-- ==== Sys2Proof/Word.lean ====
section
/-! DEFINITION. The machine's word types (spec/10_state.md R10, spec/30_encoding.md R51). -/

namespace Sys2Proof

/-- A 16-bit register value, address or instruction word. -/
abbrev Word := BitVec 16

/-- A byte of memory, or the payload of a prefix word. -/
abbrev Byte := BitVec 8

/-- A 4-bit field of an instruction word. -/
abbrev Nibble := BitVec 4

end Sys2Proof
end

