-- ==== Sys2Proof/Config.lean ====
section
/-! DEFINITION. What a build of the core fixes (spec/00_scope.md R4, R5) and the values the spec leaves free
(R8). A build is plain data and stands in the state, so a claim over all states is a claim over all builds. -/

namespace Sys2Proof

/-- The optional units of spec/00_scope.md R4, as the `requires` column of the opcode table names them. -/
inductive BuildUnit where
  | shift
  | mlt
  | mlh
  | byte
deriving DecidableEq, Repr

/-- `SUB_CARRY` (spec/45_alu.md R153): what CF says after a subtraction. -/
inductive SubCarry where
  | borrow
  | notBorrow
deriving DecidableEq, Repr

/-- `BYTE_ORDER` (spec/20_memory.md R33). -/
inductive ByteOrder where
  | little
  | big
deriving DecidableEq, Repr

/-- `REL_BASE` (spec/41_branch_call.md R93): the byte offset added to the address of the branch word. -/
inductive RelBase where
  | zero
  | two
  | four
deriving DecidableEq, Repr

/-- `SM_BIT` (spec/43_shift.md R120): the word bit that holds SM. -/
inductive SmBit where
  | bit4
  | bit5
  | bit6
  | bit7
deriving DecidableEq, Repr

/-- `FETCH_SEES_STORES` (spec/20_memory.md R42). -/
inductive FetchSeesStores where
  | refuse
  | immediately
deriving DecidableEq, Repr

/-- A range of byte addresses that hold memory (spec/20_memory.md R38). -/
structure Region where
  base : Nat
  size : Nat
deriving DecidableEq, Repr

/-- One build of the core on one platform: the options of spec/00_scope.md R4 and the parameters of R5. -/
structure Config where
  hasShift : Bool
  hasMlt : Bool
  hasMlh : Bool
  hasByte : Bool
  subCarry : SubCarry
  byteOrder : ByteOrder
  relBase : RelBase
  smBit : SmBit
  adcSbcZSticky : Bool
  ldstRb15IsFlag : Bool
  fetchSeesStores : FetchSeesStores
  iackOnZeroPrefix : Bool
  map : List Region
deriving DecidableEq, Repr

/-- R5's defaults, with every optional unit present and all 65536 bytes mapped (DESIGN CHOICE: the source does
not say whether one build may hold both the shift and the multiply unit, log 20). -/
def Config.standard : Config where
  hasShift := true
  hasMlt := true
  hasMlh := true
  hasByte := true
  subCarry := .borrow
  byteOrder := .little
  relBase := .two
  smBit := .bit4
  adcSbcZSticky := false
  ldstRb15IsFlag := false
  fetchSeesStores := .refuse
  iackOnZeroPrefix := false
  map := [⟨0, 65536⟩]

/-- Whether the build has a unit (spec/00_scope.md R4). -/
def Config.has (c : Config) : BuildUnit → Bool
  | .shift => c.hasShift
  | .mlt => c.hasMlt
  | .mlh => c.hasMlh
  | .byte => c.hasByte

/-- The builds R4 admits: `HAS_MLH` implies `HAS_MLT`. -/
def Config.wf (c : Config) : Bool :=
  !c.hasMlh || c.hasMlt

/-- The spec's ANY1 (spec/00_scope.md R8): the bit the n-th draw gives. It has no body, so nothing can be proved
of its value (log 5). -/
opaque Config.freeBit : Nat → Bool

/-- The eleven unspecified bits above IF in the word PUSH FLAG stores (spec/10_state.md R16), as the n-th draw
gives them (log 7). -/
opaque Config.freeHigh : Nat → BitVec 11

end Sys2Proof
end

