-- ==== Sys2Proof/Syntax.lean ====
section
/-! DEFINITION. The instructions of the MR16: one constructor per row of spec/opcode_table.json. -/

namespace Sys2Proof

/-- The sixteen general registers (spec/10_state.md R10); R15 is the stack pointer (R12). -/
inductive Reg where
  | r0 | r1 | r2 | r3 | r4 | r5 | r6 | r7
  | r8 | r9 | r10 | r11 | r12 | r13 | r14 | r15
deriving DecidableEq, Repr

/-- The sixteen condition codes, in the order of their codes (spec/41_branch_call.md R91). -/
inductive Cond where
  | cs | eq | vs | mi | ls | lt | le | never
  | cc | ne | vc | pl | hi | ge | gt | always
deriving DecidableEq, Repr

/-- One instruction word as the decoder of spec/30_encoding.md R63 delivers it. A row of the prefixed map (format
P+LS, P+J, P+I16) is the second word of a two-word instruction with the pending payload already assembled into its
operand. The four Booleans of a flag operation are IFL, ZFL, CFL and FD in that order (R62). -/
inductive Instr where
  /-- `RET` (R96). -/
  | ret
  /-- `RET CLI` (R97). -/
  | retCli
  /-- `RET STI` (R98). -/
  | retSti
  /-- `RET` with any other flag operation (R99). -/
  | retFlag (ifl zfl cfl fd : Bool)
  /-- `POP FLAG` (R113). -/
  | popFlag
  /-- `POP Rn` (R112). -/
  | popReg (n : Reg)
  /-- `LDM Rd,(Rbase,#2*p)` (R133). -/
  | ldm (data base : Reg) (p : Nibble)
  /-- `PUSH FLAG` (R111). -/
  | pushFlag
  /-- `PUSH Rn` (R110). -/
  | pushReg (n : Reg)
  /-- RSV2 of R65: `0001 1111 bbbb xxx0`. -/
  | rsv2 (b : Nibble) (x : BitVec 3)
  /-- `STM (Rbase,#2*p),Rs` (R134). -/
  | stm (base : Reg) (p : Nibble) (data : Reg)
  /-- The prefix word (R154). -/
  | pfx (payload : Byte)
  /-- `B<cc> label` (R93). -/
  | bcc (cond : Cond) (rel : Byte)
  /-- `NOP` (R81). -/
  | nop
  /-- `CLC` (R82). -/
  | clc
  /-- `STC` (R83). -/
  | stc
  /-- `CLZ` (R84). -/
  | clz
  /-- `STZ` (R85). -/
  | stz
  /-- `CLI` (R86). -/
  | cli
  /-- `STI` (R87). -/
  | sti
  /-- A flag operation that selects more than one flag (R88). -/
  | flagop (ifl zfl cfl fd : Bool)
  /-- RSV1 of R65: `0011 aaaa bbbb 0000`, a not 1111. -/
  | rsv1 (a b : Nibble)
  /-- `ASR Ra` (R122). -/
  | asr (ra : Reg)
  /-- `SHR Ra` (R121). -/
  | shr (ra : Reg)
  /-- RSV4 of R65: `0011 aaaa ssss 0001` with SMOD bits other than SM set. -/
  | rsv4 (a smod : Nibble)
  /-- `J<cc> Rb` (R94). -/
  | jcc (cond : Cond) (rb : Reg)
  /-- `JSR Rb` (R95). -/
  | jsr (rb : Reg)
  /-- RSV3 of R65: `0011 aaaa bbbb 0011`, a not 1111. -/
  | rsv3 (a b : Nibble)
  /-- `AND Ra,Rb` (R155). -/
  | andRR (ra rb : Reg)
  /-- `OR Ra,Rb` (R156). -/
  | orRR (ra rb : Reg)
  /-- `XOR Ra,Rb` (R157). -/
  | xorRR (ra rb : Reg)
  /-- `MOV Ra,Rb` (R158). -/
  | movRR (ra rb : Reg)
  /-- `ADD Ra,Rb` (R159). -/
  | addRR (ra rb : Reg)
  /-- `SUB Ra,Rb` (R161). -/
  | subRR (ra rb : Reg)
  /-- `ADC Ra,Rb` (R160). -/
  | adcRR (ra rb : Reg)
  /-- `SBC Ra,Rb` (R162). -/
  | sbcRR (ra rb : Reg)
  /-- `TST Ra,Rb` (R164). -/
  | tstRR (ra rb : Reg)
  /-- `CMP Ra,Rb` (R163). -/
  | cmpRR (ra rb : Reg)
  /-- `MLT Ra,Rb` (R165). -/
  | mltRR (ra rb : Reg)
  /-- `MLH Ra,Rb` (R166). -/
  | mlhRR (ra rb : Reg)
  /-- `AND Ra,#imm8` (R155). -/
  | andI8 (ra : Reg) (imm : Byte)
  /-- `OR Ra,#imm8` (R156). -/
  | orI8 (ra : Reg) (imm : Byte)
  /-- `XOR Ra,#imm8` (R157). -/
  | xorI8 (ra : Reg) (imm : Byte)
  /-- `MOV Ra,#imm8` (R158). -/
  | movI8 (ra : Reg) (imm : Byte)
  /-- `ADD Ra,#imm8` (R159). -/
  | addI8 (ra : Reg) (imm : Byte)
  /-- `SUB Ra,#imm8` (R161). -/
  | subI8 (ra : Reg) (imm : Byte)
  /-- `ADC Ra,#imm8` (R160). -/
  | adcI8 (ra : Reg) (imm : Byte)
  /-- `SBC Ra,#imm8` (R162). -/
  | sbcI8 (ra : Reg) (imm : Byte)
  /-- `TST Ra,#imm8` (R164). -/
  | tstI8 (ra : Reg) (imm : Byte)
  /-- `CMP Ra,#imm8` (R163). -/
  | cmpI8 (ra : Reg) (imm : Byte)
  /-- `MLT Ra,#imm8` (R165). -/
  | mltI8 (ra : Reg) (imm : Byte)
  /-- `MLH Ra,#imm8` (R166). -/
  | mlhI8 (ra : Reg) (imm : Byte)
  /-- `LDMB Rd,(Rbase,#disp)` (R137). -/
  | ldmb (data base : Reg) (disp : BitVec 11)
  /-- `LDMW Rd,(Rbase,#disp)` (R135). -/
  | ldmw (data base : Reg) (disp : BitVec 11)
  /-- `STMB (Rbase,#disp),Rs` (R138). -/
  | stmb (base : Reg) (disp : BitVec 11) (data : Reg)
  /-- `STMW (Rbase,#disp),Rs` (R136). -/
  | stmw (base : Reg) (disp : BitVec 11) (data : Reg)
  /-- `JSR label`, absolute (R101). -/
  | jsrAbs (target : Word)
  /-- RSV6 of R65: prefixed `0010 cccc aaaaaaa 1`, c not 1111. -/
  | rsv6 (payload : Byte) (c : Nibble) (a : BitVec 7)
  /-- RSV7 of R65: prefixed `0010 0111 aaaaaaa 0`. -/
  | rsv7 (payload : Byte) (a : BitVec 7)
  /-- `J<cc> label`, absolute (R100). -/
  | jccAbs (cond : Cond) (target : Word)
  /-- RSV5 of R65: prefixed `0011 ....`. -/
  | rsv5 (payload : Byte) (rest : BitVec 12)
  /-- `AND Ra,#imm16`, second word (R155). -/
  | andI16 (ra : Reg) (imm : Word)
  /-- `OR Ra,#imm16`, second word (R156). -/
  | orI16 (ra : Reg) (imm : Word)
  /-- `XOR Ra,#imm16`, second word (R157). -/
  | xorI16 (ra : Reg) (imm : Word)
  /-- `MOV Ra,#imm16`, second word (R158). -/
  | movI16 (ra : Reg) (imm : Word)
  /-- `ADD Ra,#imm16`, second word (R159). -/
  | addI16 (ra : Reg) (imm : Word)
  /-- `SUB Ra,#imm16`, second word (R161). -/
  | subI16 (ra : Reg) (imm : Word)
  /-- `ADC Ra,#imm16`, second word (R160). -/
  | adcI16 (ra : Reg) (imm : Word)
  /-- `SBC Ra,#imm16`, second word (R162). -/
  | sbcI16 (ra : Reg) (imm : Word)
  /-- `TST Ra,#imm16`, second word (R164). -/
  | tstI16 (ra : Reg) (imm : Word)
  /-- `CMP Ra,#imm16`, second word (R163). -/
  | cmpI16 (ra : Reg) (imm : Word)
  /-- `MLT Ra,#imm16`, second word (R165). -/
  | mltI16 (ra : Reg) (imm : Word)
  /-- `MLH Ra,#imm16`, second word (R166). -/
  | mlhI16 (ra : Reg) (imm : Word)
deriving DecidableEq, Repr

/-- The optional unit an instruction needs (the `requires` column of spec/opcode_table.json; spec/30_encoding.md R66).
DESIGN CHOICE: `rsv4` needs none, so a shift-group word with stray SMOD bits is RSV4 by R65 also in a build without
`HAS_SHIFT`, where R66 would make it RSV8 with all of format SH (log 15). -/
def Instr.unit : Instr → Option BuildUnit
  | .asr _ | .shr _ => some .shift
  | .mltRR _ _ | .mltI8 _ _ | .mltI16 _ _ => some .mlt
  | .mlhRR _ _ | .mlhI8 _ _ | .mlhI16 _ _ => some .mlh
  | .ldmb _ _ _ | .stmb _ _ _ => some .byte
  | .ret | .retCli | .retSti | .retFlag _ _ _ _ | .popFlag | .popReg _ | .ldm _ _ _
  | .pushFlag | .pushReg _ | .rsv2 _ _ | .stm _ _ _ | .pfx _ | .bcc _ _
  | .nop | .clc | .stc | .clz | .stz | .cli | .sti | .flagop _ _ _ _
  | .rsv1 _ _ | .rsv4 _ _ | .jcc _ _ | .jsr _ | .rsv3 _ _
  | .andRR _ _ | .orRR _ _ | .xorRR _ _ | .movRR _ _ | .addRR _ _ | .subRR _ _
  | .adcRR _ _ | .sbcRR _ _ | .tstRR _ _ | .cmpRR _ _
  | .andI8 _ _ | .orI8 _ _ | .xorI8 _ _ | .movI8 _ _ | .addI8 _ _ | .subI8 _ _
  | .adcI8 _ _ | .sbcI8 _ _ | .tstI8 _ _ | .cmpI8 _ _
  | .ldmw _ _ _ | .stmw _ _ _ | .jsrAbs _ | .rsv6 _ _ _ | .rsv7 _ _ | .jccAbs _ _ | .rsv5 _ _
  | .andI16 _ _ | .orI16 _ _ | .xorI16 _ _ | .movI16 _ _ | .addI16 _ _ | .subI16 _ _
  | .adcI16 _ _ | .sbcI16 _ _ | .tstI16 _ _ | .cmpI16 _ _ => none

end Sys2Proof
end

