-- ==== Sys2Proof/WellFormed.lean ====
section
/-! DEFINITION. Which terms of Instr stand for an instruction word of a build: the restrictions the formats of
spec/30_encoding.md R52 put on their fields, and the unit the instruction needs (R66). -/

namespace Sys2Proof

/-- The SMOD field of SHR: only SM set, at word bit `SM_BIT` (spec/43_shift.md R120). -/
def SmBit.mask : SmBit → Nibble
  | .bit4 => 0b0001#4
  | .bit5 => 0b0010#4
  | .bit6 => 0b0100#4
  | .bit7 => 0b1000#4

/-- Whether a selection of flags is one the instruction list names for RET: none, or IF alone, so neither ZF nor
CF (R96 to R98). -/
def namedRet (zfl cfl : Bool) : Bool :=
  !zfl && !cfl

/-- Whether at most one flag is selected, which NOP and the six named flag instructions cover (R81 to R87). -/
def atMostOneFlag (ifl zfl cfl : Bool) : Bool :=
  (!ifl && !zfl) || (!ifl && !cfl) || (!zfl && !cfl)

/-- The conditions on an instruction's own fields. -/
def Instr.fieldsOk (c : Config) : Instr → Bool
  | .retFlag _ zfl cfl _ => !namedRet zfl cfl
  | .popReg n | .pushReg n => n != .r15
  | .ldm _ base _ | .stm base _ _ => base != .r15
  | .bcc cond _ => cond != .never
  | .flagop ifl zfl cfl _ => !atMostOneFlag ifl zfl cfl
  | .rsv1 a _ | .rsv3 a _ => a != 0xF#4
  | .rsv4 _ smod => smod != 0#4 && smod != c.smBit.mask
  | .jsrAbs target => !target.getLsbD 0
  | .jccAbs cond target => cond != .never && !target.getLsbD 0
  | .rsv6 _ cc _ => cc != 0xF#4
  | .ret | .retCli | .retSti | .popFlag | .pushFlag | .rsv2 _ _ | .pfx _
  | .nop | .clc | .stc | .clz | .stz | .cli | .sti
  | .asr _ | .shr _ | .jcc _ _ | .jsr _
  | .andRR _ _ | .orRR _ _ | .xorRR _ _ | .movRR _ _ | .addRR _ _ | .subRR _ _
  | .adcRR _ _ | .sbcRR _ _ | .tstRR _ _ | .cmpRR _ _ | .mltRR _ _ | .mlhRR _ _
  | .andI8 _ _ | .orI8 _ _ | .xorI8 _ _ | .movI8 _ _ | .addI8 _ _ | .subI8 _ _
  | .adcI8 _ _ | .sbcI8 _ _ | .tstI8 _ _ | .cmpI8 _ _ | .mltI8 _ _ | .mlhI8 _ _
  | .ldmb _ _ _ | .ldmw _ _ _ | .stmb _ _ _ | .stmw _ _ _ | .rsv7 _ _ | .rsv5 _ _
  | .andI16 _ _ | .orI16 _ _ | .xorI16 _ _ | .movI16 _ _ | .addI16 _ _ | .subI16 _ _
  | .adcI16 _ _ | .sbcI16 _ _ | .tstI16 _ _ | .cmpI16 _ _ | .mltI16 _ _ | .mlhI16 _ _ => true

/-- Whether the build has the unit the instruction needs (R66). -/
def Instr.inBuild (c : Config) (i : Instr) : Bool :=
  match i.unit with
  | none => true
  | some u => c.has u

/-- A well-formed instruction of a build: the terms that encode to a word of it. -/
def Instr.wf (c : Config) (i : Instr) : Bool :=
  i.fieldsOk c && i.inBuild c

end Sys2Proof
end

