-- ==== Sys2Proof/Decode.lean ====
section
/-! DEFINITION. The decoder of spec/30_encoding.md R53 to R63, total on every word in both decode maps, and the
encoder of R52. The machine never sees a raw field: register and condition codes become constructors here. -/

namespace Sys2Proof

/-- The register a 4-bit field of kind `rs` selects (spec/10_state.md R11). -/
def Reg.ofBits (n : Nibble) : Reg :=
  match n.toNat with
  | 0 => .r0
  | 1 => .r1
  | 2 => .r2
  | 3 => .r3
  | 4 => .r4
  | 5 => .r5
  | 6 => .r6
  | 7 => .r7
  | 8 => .r8
  | 9 => .r9
  | 10 => .r10
  | 11 => .r11
  | 12 => .r12
  | 13 => .r13
  | 14 => .r14
  | _ => .r15

/-- The 4-bit code of a register (R11). -/
def Reg.bits : Reg → Nibble
  | .r0 => 0x0#4
  | .r1 => 0x1#4
  | .r2 => 0x2#4
  | .r3 => 0x3#4
  | .r4 => 0x4#4
  | .r5 => 0x5#4
  | .r6 => 0x6#4
  | .r7 => 0x7#4
  | .r8 => 0x8#4
  | .r9 => 0x9#4
  | .r10 => 0xA#4
  | .r11 => 0xB#4
  | .r12 => 0xC#4
  | .r13 => 0xD#4
  | .r14 => 0xE#4
  | .r15 => 0xF#4

/-- The condition a 4-bit field selects (spec/41_branch_call.md R91). -/
def Cond.ofBits (n : Nibble) : Cond :=
  match n.toNat with
  | 0 => .cs
  | 1 => .eq
  | 2 => .vs
  | 3 => .mi
  | 4 => .ls
  | 5 => .lt
  | 6 => .le
  | 7 => .never
  | 8 => .cc
  | 9 => .ne
  | 10 => .vc
  | 11 => .pl
  | 12 => .hi
  | 13 => .ge
  | 14 => .gt
  | _ => .always

/-- The 4-bit code of a condition (R91). -/
def Cond.bits : Cond → Nibble
  | .cs => 0x0#4
  | .eq => 0x1#4
  | .vs => 0x2#4
  | .mi => 0x3#4
  | .ls => 0x4#4
  | .lt => 0x5#4
  | .le => 0x6#4
  | .never => 0x7#4
  | .cc => 0x8#4
  | .ne => 0x9#4
  | .vc => 0xA#4
  | .pl => 0xB#4
  | .hi => 0xC#4
  | .ge => 0xD#4
  | .gt => 0xE#4
  | .always => 0xF#4

/-- Bits 15:12, the major opcode (R51). -/
def fieldOp (w : Word) : Nibble := w.extractLsb' 12 4
/-- Bits 11:8 (R51). -/
def fieldA (w : Word) : Nibble := w.extractLsb' 8 4
/-- Bits 7:4 (R51). -/
def fieldB (w : Word) : Nibble := w.extractLsb' 4 4
/-- Bits 3:0 (R51). -/
def fieldF (w : Word) : Nibble := w.extractLsb' 0 4
/-- Bits 7:0: an 8-bit immediate, REL, or a prefix payload (R51). -/
def fieldImm8 (w : Word) : Byte := w.extractLsb' 0 8

/-- The signed displacement of a two-word load or store, assembled as R58 says. -/
def longDisp (payload : Byte) (f : Nibble) : BitVec 11 :=
  payload.extractLsb' 1 6 ++ f ++ payload.extractLsb' 0 1

/-- The absolute target of a two-word jump or call (R59). -/
def absTarget (payload : Byte) (w : Word) : Word :=
  payload ++ w.extractLsb' 1 7 ++ 0#1

/-- The 16-bit immediate of a two-word instruction (R57). -/
def longImm (payload : Byte) (w : Word) : Word :=
  payload ++ fieldImm8 w

/-- Whether a word is the prefix word `0010 0111 pppppppp` (R68). -/
def isPrefix (w : Word) : Bool :=
  w.extractLsb' 8 8 == 0x27#8

/-- RET with the flag operation of bits 7:4, by the names of the opcode table (R96 to R99). -/
def retOf (ifl zfl cfl fd : Bool) : Instr :=
  if zfl || cfl then .retFlag ifl zfl cfl fd
  else if ifl then (if fd then .retSti else .retCli)
  else .ret

/-- The flag operation of bits 7:4 of format FLG, by the names of the opcode table (R81 to R88). -/
def flagOf (ifl zfl cfl fd : Bool) : Instr :=
  if !atMostOneFlag ifl zfl cfl then .flagop ifl zfl cfl fd
  else if ifl then (if fd then .sti else .cli)
  else if zfl then (if fd then .stz else .clz)
  else if cfl then (if fd then .stc else .clc)
  else .nop

/-- The shift group (spec/43_shift.md R120): SM at `SM_BIT`, any other SMOD bit set is RSV4. DESIGN CHOICE: it is RSV4
in a build without `HAS_SHIFT` too, although R66 counts all of format SH there as RSV8 (log 15). -/
def shiftOf (c : Config) (a smod : Nibble) : Instr :=
  if smod = 0#4 then .asr (Reg.ofBits a)
  else if smod = c.smBit.mask then .shr (Reg.ofBits a)
  else .rsv4 a smod

/-- The register form of the ALU operation `fn` (R56); codes below 0100 do not reach it. -/
def aluRR (fn : Nibble) (ra rb : Reg) : Instr :=
  if fn = 0x4#4 then .andRR ra rb
  else if fn = 0x5#4 then .orRR ra rb
  else if fn = 0x6#4 then .xorRR ra rb
  else if fn = 0x7#4 then .movRR ra rb
  else if fn = 0x8#4 then .addRR ra rb
  else if fn = 0x9#4 then .subRR ra rb
  else if fn = 0xA#4 then .adcRR ra rb
  else if fn = 0xB#4 then .sbcRR ra rb
  else if fn = 0xC#4 then .tstRR ra rb
  else if fn = 0xD#4 then .cmpRR ra rb
  else if fn = 0xE#4 then .mltRR ra rb
  else .mlhRR ra rb

/-- The 8-bit immediate form of the ALU operation `fn` (R56). -/
def aluI8 (fn : Nibble) (ra : Reg) (imm : Byte) : Instr :=
  if fn = 0x4#4 then .andI8 ra imm
  else if fn = 0x5#4 then .orI8 ra imm
  else if fn = 0x6#4 then .xorI8 ra imm
  else if fn = 0x7#4 then .movI8 ra imm
  else if fn = 0x8#4 then .addI8 ra imm
  else if fn = 0x9#4 then .subI8 ra imm
  else if fn = 0xA#4 then .adcI8 ra imm
  else if fn = 0xB#4 then .sbcI8 ra imm
  else if fn = 0xC#4 then .tstI8 ra imm
  else if fn = 0xD#4 then .cmpI8 ra imm
  else if fn = 0xE#4 then .mltI8 ra imm
  else .mlhI8 ra imm

/-- The 16-bit immediate form of the ALU operation `fn` (R56). -/
def aluI16 (fn : Nibble) (ra : Reg) (imm : Word) : Instr :=
  if fn = 0x4#4 then .andI16 ra imm
  else if fn = 0x5#4 then .orI16 ra imm
  else if fn = 0x6#4 then .xorI16 ra imm
  else if fn = 0x7#4 then .movI16 ra imm
  else if fn = 0x8#4 then .addI16 ra imm
  else if fn = 0x9#4 then .subI16 ra imm
  else if fn = 0xA#4 then .adcI16 ra imm
  else if fn = 0xB#4 then .sbcI16 ra imm
  else if fn = 0xC#4 then .tstI16 ra imm
  else if fn = 0xD#4 then .cmpI16 ra imm
  else if fn = 0xE#4 then .mltI16 ra imm
  else .mlhI16 ra imm

/-- The group `op = 0011` of the one-word map (R54). -/
def decodeGroup3 (c : Config) (w : Word) : Instr :=
  let a := fieldA w
  let b := fieldB w
  let f := fieldF w
  if f = 0x0#4 then
    if a = 0xF#4 then flagOf (b.getLsbD 3) (b.getLsbD 2) (b.getLsbD 1) (b.getLsbD 0) else .rsv1 a b
  else if f = 0x1#4 then shiftOf c a b
  else if f = 0x2#4 then .jcc (Cond.ofBits a) (Reg.ofBits b)
  else if f = 0x3#4 then (if a = 0xF#4 then .jsr (Reg.ofBits b) else .rsv3 a b)
  else aluRR f (Reg.ofBits a) (Reg.ofBits b)

/-- The one-word map (R53), used when no prefix is pending. -/
def decodeShort (c : Config) (w : Word) : Instr :=
  let a := fieldA w
  let b := fieldB w
  let f := fieldF w
  if fieldOp w = 0x0#4 then
    if a = 0xF#4 then
      if !w.getLsbD 0 then retOf (b.getLsbD 3) (b.getLsbD 2) (b.getLsbD 1) (b.getLsbD 0)
      else if b = 0xF#4 then .popFlag
      else .popReg (Reg.ofBits b)
    else .ldm (Reg.ofBits b) (Reg.ofBits a) f
  else if fieldOp w = 0x1#4 then
    if a = 0xF#4 then
      if !w.getLsbD 0 then .rsv2 b (w.extractLsb' 1 3)
      else if b = 0xF#4 then .pushFlag
      else .pushReg (Reg.ofBits b)
    else .stm (Reg.ofBits a) f (Reg.ofBits b)
  else if fieldOp w = 0x2#4 then
    if a = 0x7#4 then .pfx (fieldImm8 w) else .bcc (Cond.ofBits a) (fieldImm8 w)
  else if fieldOp w = 0x3#4 then decodeGroup3 c w
  else aluI8 (fieldOp w) (Reg.ofBits a) (fieldImm8 w)

/-- The prefixed map (R55), used for the word that follows a prefix word with payload `p`. -/
def decodeLong (p : Byte) (w : Word) : Instr :=
  let a := fieldA w
  let b := fieldB w
  let f := fieldF w
  if fieldOp w = 0x0#4 then
    if p.getLsbD 7 then .ldmb (Reg.ofBits b) (Reg.ofBits a) (longDisp p f)
    else .ldmw (Reg.ofBits b) (Reg.ofBits a) (longDisp p f)
  else if fieldOp w = 0x1#4 then
    if p.getLsbD 7 then .stmb (Reg.ofBits a) (longDisp p f) (Reg.ofBits b)
    else .stmw (Reg.ofBits a) (longDisp p f) (Reg.ofBits b)
  else if fieldOp w = 0x2#4 then
    if w.getLsbD 0 then
      if a = 0xF#4 then .jsrAbs (absTarget p w) else .rsv6 p a (w.extractLsb' 1 7)
    else if a = 0x7#4 then .rsv7 p (w.extractLsb' 1 7)
    else .jccAbs (Cond.ofBits a) (absTarget p w)
  else if fieldOp w = 0x3#4 then .rsv5 p (w.extractLsb' 0 12)
  else aluI16 (fieldOp w) (Reg.ofBits a) (longImm p w)

/-- Why the decoder refuses. -/
inductive DecodeReject where
  /-- RSV8: the word is an instruction of a unit the build lacks (R63, R66). -/
  | absentUnit (u : BuildUnit)
  /-- There are not enough bytes for a word. -/
  | tooShort
deriving DecidableEq, Repr

/-- `decode(pfx_valid, pfx, w)` of R63; the pending payload is `some pfx` when `pfx_valid = 1`. -/
def decode (c : Config) (pending : Option Byte) (w : Word) : Except DecodeReject Instr :=
  let i := match pending with
    | none => decodeShort c w
    | some p => decodeLong p w
  match i.unit with
  | none => .ok i
  | some u => if c.has u then .ok i else .error (.absentUnit u)

/-- The instruction at the head of a list of words: a prefix word takes the word behind it with it (R50, R68). -/
def decodeWords (c : Config) : List Word → Except DecodeReject Instr
  | [] => .error .tooShort
  | [w] => decode c none w
  | w :: w2 :: _ => if isPrefix w then decode c (some (fieldImm8 w)) w2 else decode c none w

/-- A 16-bit word from the byte at the even address and the one above it (spec/20_memory.md R33, R34). -/
def joinBytes (o : ByteOrder) (lo hi : Byte) : Word :=
  match o with
  | .little => hi ++ lo
  | .big => lo ++ hi

/-- The byte of a word that stands at the even address (R33). -/
def evenByte (o : ByteOrder) (v : Word) : Byte :=
  match o with
  | .little => v.extractLsb' 0 8
  | .big => v.extractLsb' 8 8

/-- The byte of a word that stands at the odd address above it (R33). -/
def oddByte (o : ByteOrder) (v : Word) : Byte :=
  match o with
  | .little => v.extractLsb' 8 8
  | .big => v.extractLsb' 0 8

/-- The words a list of bytes holds, in the build's byte order; an odd byte at the end is no word. -/
def wordsOfBytes (o : ByteOrder) : List Byte → List Word
  | lo :: hi :: rest => joinBytes o lo hi :: wordsOfBytes o rest
  | _ => []

/-- The bytes of a list of words as the hardware stores them. -/
def bytesOfWords (o : ByteOrder) : List Word → List Byte
  | [] => []
  | v :: rest => evenByte o v :: oddByte o v :: bytesOfWords o rest

/-- The instruction a list of bytes begins with. -/
def decodeBytes (c : Config) (bytes : List Byte) : Except DecodeReject Instr :=
  decodeWords c (wordsOfBytes c.byteOrder bytes)

/-- The words of a table instruction whose bits are `w`, the first word in the low bits. -/
def tableWords (nbits w : Nat) : List Word :=
  let v := w % 2 ^ nbits
  if nbits ≤ 16 then [BitVec.ofNat 16 v] else [BitVec.ofNat 16 v, BitVec.ofNat 16 (v / 65536)]

/-- What this decoder reads from a table row's bits, in the standard build. A row of one word is read by the
one-word map (so `0x27pp` alone is the prefix word); with more bits a prefix word takes the second word with it. -/
def decodeTableWord (nbits w : Nat) : Option Instr :=
  match decodeBytes Config.standard (bytesOfWords Config.standard.byteOrder (tableWords nbits w)) with
  | .ok i => some i
  | .error _ => none

/-! The encoder, written from the formats of R52. -/

/-- A word from its four fields (R51). -/
def word4 (op a b f : Nibble) : Word :=
  op ++ a ++ b ++ f

/-- A word from two fields and an 8-bit field (R51). -/
def word8 (op a : Nibble) (imm : Byte) : Word :=
  op ++ a ++ imm

/-- The four flag-operation bits IFL ZFL CFL FD as bits 7:4 (R62). -/
def flagBits (ifl zfl cfl fd : Bool) : Nibble :=
  BitVec.ofBool ifl ++ BitVec.ofBool zfl ++ BitVec.ofBool cfl ++ BitVec.ofBool fd

/-- The prefix word with a payload (R154). -/
def prefixWord (payload : Byte) : Word :=
  word8 0x2#4 0x7#4 payload

/-- The prefix word of a two-word load or store: payload `B DISP[10:5] DISP[0]` (R52, P+LS). -/
def dispPrefix (byteAccess : Bool) (disp : BitVec 11) : Word :=
  prefixWord (BitVec.ofBool byteAccess ++ disp.extractLsb' 5 6 ++ disp.extractLsb' 0 1)

/-- The second word of a two-word load or store (R52, P+LS). -/
def dispWord (op : Nibble) (base data : Reg) (disp : BitVec 11) : Word :=
  word4 op base.bits data.bits (disp.extractLsb' 1 4)

/-- The prefix word of a two-word jump or call: payload ABS[15:8] (R52, P+J). -/
def absPrefix (target : Word) : Word :=
  prefixWord (target.extractLsb' 8 8)

/-- The second word of a two-word jump or call (R52, P+J). -/
def absWord (a : Nibble) (target : Word) (call : Bool) : Word :=
  0x2#4 ++ a ++ target.extractLsb' 1 7 ++ BitVec.ofBool call

/-- A register-form ALU word (R52, RR). -/
def encodeRR (fn : Nibble) (ra rb : Reg) : List Word :=
  [word4 0x3#4 ra.bits rb.bits fn]

/-- An 8-bit immediate ALU word (R52, I8). -/
def encodeI8 (fn : Nibble) (ra : Reg) (imm : Byte) : List Word :=
  [word8 fn ra.bits imm]

/-- A 16-bit immediate ALU instruction (R52, P+I16). -/
def encodeI16 (fn : Nibble) (ra : Reg) (imm : Word) : List Word :=
  [prefixWord (imm.extractLsb' 8 8), word8 fn ra.bits (imm.extractLsb' 0 8)]

/-- The words of an instruction, don't-care bits written as 0 (R64). -/
def encode (c : Config) : Instr → List Word
  | .ret => [word4 0x0#4 0xF#4 0x0#4 0x0#4]
  | .retCli => [word4 0x0#4 0xF#4 (flagBits true false false false) 0x0#4]
  | .retSti => [word4 0x0#4 0xF#4 (flagBits true false false true) 0x0#4]
  | .retFlag i z k d => [word4 0x0#4 0xF#4 (flagBits i z k d) 0x0#4]
  | .popFlag => [word4 0x0#4 0xF#4 0xF#4 0x1#4]
  | .popReg n => [word4 0x0#4 0xF#4 n.bits 0x1#4]
  | .ldm data base p => [word4 0x0#4 base.bits data.bits p]
  | .pushFlag => [word4 0x1#4 0xF#4 0xF#4 0x1#4]
  | .pushReg n => [word4 0x1#4 0xF#4 n.bits 0x1#4]
  | .rsv2 b x => [word4 0x1#4 0xF#4 b (x ++ 0#1)]
  | .stm base p data => [word4 0x1#4 base.bits data.bits p]
  | .pfx payload => [prefixWord payload]
  | .bcc cond rel => [word8 0x2#4 cond.bits rel]
  | .nop => [word4 0x3#4 0xF#4 0x0#4 0x0#4]
  | .clc => [word4 0x3#4 0xF#4 (flagBits false false true false) 0x0#4]
  | .stc => [word4 0x3#4 0xF#4 (flagBits false false true true) 0x0#4]
  | .clz => [word4 0x3#4 0xF#4 (flagBits false true false false) 0x0#4]
  | .stz => [word4 0x3#4 0xF#4 (flagBits false true false true) 0x0#4]
  | .cli => [word4 0x3#4 0xF#4 (flagBits true false false false) 0x0#4]
  | .sti => [word4 0x3#4 0xF#4 (flagBits true false false true) 0x0#4]
  | .flagop i z k d => [word4 0x3#4 0xF#4 (flagBits i z k d) 0x0#4]
  | .rsv1 a b => [word4 0x3#4 a b 0x0#4]
  | .asr ra => [word4 0x3#4 ra.bits 0x0#4 0x1#4]
  | .shr ra => [word4 0x3#4 ra.bits c.smBit.mask 0x1#4]
  | .rsv4 a smod => [word4 0x3#4 a smod 0x1#4]
  | .jcc cond rb => [word4 0x3#4 cond.bits rb.bits 0x2#4]
  | .jsr rb => [word4 0x3#4 0xF#4 rb.bits 0x3#4]
  | .rsv3 a b => [word4 0x3#4 a b 0x3#4]
  | .andRR ra rb => encodeRR 0x4#4 ra rb
  | .orRR ra rb => encodeRR 0x5#4 ra rb
  | .xorRR ra rb => encodeRR 0x6#4 ra rb
  | .movRR ra rb => encodeRR 0x7#4 ra rb
  | .addRR ra rb => encodeRR 0x8#4 ra rb
  | .subRR ra rb => encodeRR 0x9#4 ra rb
  | .adcRR ra rb => encodeRR 0xA#4 ra rb
  | .sbcRR ra rb => encodeRR 0xB#4 ra rb
  | .tstRR ra rb => encodeRR 0xC#4 ra rb
  | .cmpRR ra rb => encodeRR 0xD#4 ra rb
  | .mltRR ra rb => encodeRR 0xE#4 ra rb
  | .mlhRR ra rb => encodeRR 0xF#4 ra rb
  | .andI8 ra imm => encodeI8 0x4#4 ra imm
  | .orI8 ra imm => encodeI8 0x5#4 ra imm
  | .xorI8 ra imm => encodeI8 0x6#4 ra imm
  | .movI8 ra imm => encodeI8 0x7#4 ra imm
  | .addI8 ra imm => encodeI8 0x8#4 ra imm
  | .subI8 ra imm => encodeI8 0x9#4 ra imm
  | .adcI8 ra imm => encodeI8 0xA#4 ra imm
  | .sbcI8 ra imm => encodeI8 0xB#4 ra imm
  | .tstI8 ra imm => encodeI8 0xC#4 ra imm
  | .cmpI8 ra imm => encodeI8 0xD#4 ra imm
  | .mltI8 ra imm => encodeI8 0xE#4 ra imm
  | .mlhI8 ra imm => encodeI8 0xF#4 ra imm
  | .ldmb data base disp => [dispPrefix true disp, dispWord 0x0#4 base data disp]
  | .ldmw data base disp => [dispPrefix false disp, dispWord 0x0#4 base data disp]
  | .stmb base disp data => [dispPrefix true disp, dispWord 0x1#4 base data disp]
  | .stmw base disp data => [dispPrefix false disp, dispWord 0x1#4 base data disp]
  | .jsrAbs target => [absPrefix target, absWord 0xF#4 target true]
  | .rsv6 payload k a => [prefixWord payload, 0x2#4 ++ k ++ a ++ 1#1]
  | .rsv7 payload a => [prefixWord payload, 0x2#4 ++ 0x7#4 ++ a ++ 0#1]
  | .jccAbs cond target => [absPrefix target, absWord cond.bits target false]
  | .rsv5 payload rest => [prefixWord payload, 0x3#4 ++ rest]
  | .andI16 ra imm => encodeI16 0x4#4 ra imm
  | .orI16 ra imm => encodeI16 0x5#4 ra imm
  | .xorI16 ra imm => encodeI16 0x6#4 ra imm
  | .movI16 ra imm => encodeI16 0x7#4 ra imm
  | .addI16 ra imm => encodeI16 0x8#4 ra imm
  | .subI16 ra imm => encodeI16 0x9#4 ra imm
  | .adcI16 ra imm => encodeI16 0xA#4 ra imm
  | .sbcI16 ra imm => encodeI16 0xB#4 ra imm
  | .tstI16 ra imm => encodeI16 0xC#4 ra imm
  | .cmpI16 ra imm => encodeI16 0xD#4 ra imm
  | .mltI16 ra imm => encodeI16 0xE#4 ra imm
  | .mlhI16 ra imm => encodeI16 0xF#4 ra imm

end Sys2Proof
end

