-- ==== Sys2Proof/Machine/State.lean ====
section
/-! DEFINITION. The state of one MR16 core with its memory, its interrupt input and the build it is a core of
(spec/10_state.md R10 to R24, spec/20_memory.md R30), and the reasons for which a step stops. -/

namespace Sys2Proof.Machine

/-- The sixteen general registers (spec/10_state.md R10). -/
structure RegFile where
  R0 : Word
  R1 : Word
  R2 : Word
  R3 : Word
  R4 : Word
  R5 : Word
  R6 : Word
  R7 : Word
  R8 : Word
  R9 : Word
  R10 : Word
  R11 : Word
  R12 : Word
  R13 : Word
  R14 : Word
  R15 : Word
deriving DecidableEq, Repr

/-- The five bits of FLAG that exist (spec/10_state.md R15). -/
structure Flags where
  IF : Bool
  NF : Bool
  VF : Bool
  ZF : Bool
  CF : Bool
deriving DecidableEq, Repr

/-- Byte-addressed memory: the bytes that differ from what an unlisted address reads as, by rising address. -/
abbrev Memory := List Host.Cell

/-- What a byte no entry lists reads as. DESIGN CHOICE: the spec gives memory no reset contents (R23, R38); log 3. -/
def unlistedByte : Byte := 0x00#8

/-- The machine. `build`, `freeCount` and `cycles` are the model's own fields; the rest is the spec's. -/
structure State where
  /-- The build and platform the core is of; no step changes it (spec/00_scope.md R4, R5; log 4). -/
  build : Config
  /-- R0 to R15 (R10). -/
  regs : RegFile
  /-- The address of the word about to execute; every write drops bit 0 (R13). -/
  pc : Word
  /-- IF NF VF ZF CF (R15). -/
  flags : Flags
  /-- A prefix word has executed and the next word has not (R19). -/
  pfxValid : Bool
  /-- The payload of that prefix word (R19). -/
  pfx : Byte
  /-- The memory (spec/20_memory.md R30). -/
  mem : Memory
  /-- The addresses of the bytes a store of this run has written, rising (spec/20_memory.md R42). -/
  written : List Nat
  /-- The samples of `ivector` still to come, one per boundary; an empty list reads 0 (R21; log 8). -/
  ivectors : List (BitVec 6)
  /-- How many free values have been drawn (spec/00_scope.md R8; log 5). -/
  freeCount : Nat
  /-- Clock cycles spent, for information (spec/70_reset_and_hazards.md R211; log 24). -/
  cycles : Nat
deriving DecidableEq, Repr

/-- The optional part of a build, or the defect of its encoding, that makes a word reserved: the ids of
spec/30_encoding.md R65. -/
inductive ReservedId where
  | rsv1 | rsv2 | rsv3 | rsv4 | rsv5 | rsv6 | rsv7 | rsv8
deriving DecidableEq, Repr

/-- The faults of the machine: none. The MR16 has no synchronous exception (spec/60_exceptions.md R180), and
spec/93_implementation_defined.md calls the treatment `fault` never applicable; every stop is a Refusal (log 9). -/
inductive Fault where
deriving DecidableEq, Repr

/-- Where the model stops because the spec gives the case no meaning (spec/00_scope.md R8, `REFUSE`). -/
inductive Refusal where
  /-- Raised by the dispatcher for an instruction without a meaning; none is left. Safe. -/
  | notModelled (mnemonic : String)
  /-- Raised by a reserved encoding or an instruction of an absent unit (spec/30_encoding.md R65, R66). Safe. -/
  | reservedEncoding (id : ReservedId)
  /-- Raised by a 16-bit access at an odd address (spec/20_memory.md R37). Safe. -/
  | misalignedWordAccess
  /-- Raised by a fetch, a load or a store of a byte outside the platform's memory map (spec/20_memory.md R38). Safe. -/
  | unmappedAddress
  /-- Raised by the fetch of a byte a store of this run has written, in a build with `FETCH_SEES_STORES = refuse`
  (spec/20_memory.md R42). Safe. -/
  | fetchOfModifiedCode
deriving DecidableEq, Repr

/-- Every general register at the value the model names for reset. DESIGN CHOICE: the spec gives none (R23); log 1. -/
def RegFile.reset : RegFile :=
  ⟨0#16, 0#16, 0#16, 0#16, 0#16, 0#16, 0#16, 0#16, 0#16, 0#16, 0#16, 0#16, 0#16, 0#16, 0#16, 0#16⟩

/-- FLAG after reset: IF is 0 by R23. DESIGN CHOICE: the other four, which the spec leaves unspecified; log 2. -/
def Flags.reset : Flags := ⟨false, false, false, false, false⟩

/-- The machine right after reset (R23, spec/70_reset_and_hazards.md R200) with nothing loaded: PC is the word at
address 0, which reads as 0 there. -/
def State.reset : State where
  build := Config.standard
  regs := RegFile.reset
  pc := 0x0000#16
  flags := Flags.reset
  pfxValid := false
  pfx := 0x00#8
  mem := []
  written := []
  ivectors := []
  freeCount := 0
  cycles := 0

end Sys2Proof.Machine
end

