-- ==== Sys2Proof/Machine/Ops.lean ====
section
/-! DEFINITION. The named operations over registers, PC, memory and stack, the fetch, the reset sequence, and the
one way the machine is entered from outside its instructions: the interrupt acknowledge sequence and its return. -/

namespace Sys2Proof.Machine

/-- A value, or the reason the machine stops. -/
abbrev Res (α : Type) := Host.Outcome α Fault Refusal

/-- Go on with the value, or stop where the first part stopped. -/
def Res.bind {α β : Type} (x : Res α) (k : α → Res β) : Res β :=
  match x with
  | .next a => k a
  | .fault f => .fault f
  | .refused r => .refused r

/-! ### Registers (spec/10_state.md R10, R12) -/

/-- Read a register of the file. -/
def RegFile.get (f : RegFile) : Reg → Word
  | .r0 => f.R0 | .r1 => f.R1 | .r2 => f.R2 | .r3 => f.R3
  | .r4 => f.R4 | .r5 => f.R5 | .r6 => f.R6 | .r7 => f.R7
  | .r8 => f.R8 | .r9 => f.R9 | .r10 => f.R10 | .r11 => f.R11
  | .r12 => f.R12 | .r13 => f.R13 | .r14 => f.R14 | .r15 => f.R15

/-- Write a register of the file. -/
def RegFile.set (f : RegFile) (r : Reg) (v : Word) : RegFile :=
  match r with
  | .r0 => { f with R0 := v } | .r1 => { f with R1 := v } | .r2 => { f with R2 := v } | .r3 => { f with R3 := v }
  | .r4 => { f with R4 := v } | .r5 => { f with R5 := v } | .r6 => { f with R6 := v } | .r7 => { f with R7 := v }
  | .r8 => { f with R8 := v } | .r9 => { f with R9 := v } | .r10 => { f with R10 := v } | .r11 => { f with R11 := v }
  | .r12 => { f with R12 := v } | .r13 => { f with R13 := v } | .r14 => { f with R14 := v } | .r15 => { f with R15 := v }

/-- `x[i]` of spec/00_scope.md R7. -/
def State.reg (s : State) (r : Reg) : Word := s.regs.get r

/-- `x[i] <- v` of R7. -/
def State.setReg (s : State) (r : Reg) (v : Word) : State := { s with regs := s.regs.set r v }

/-! ### Program counter (spec/10_state.md R13, R14) -/

/-- `npc`: the address of the next sequential word. -/
def State.npc (s : State) : Word := s.pc + 2#16

/-- `pc <- t`: bit 0 of the written value is dropped (R13). -/
def State.setPc (s : State) (t : Word) : State := { s with pc := t &&& 0xFFFE#16 }

/-- `pc <- npc`. -/
def State.advance (s : State) : State := s.setPc s.npc

/-! ### The prefix register (spec/10_state.md R19, R20) -/

/-- The pending payload, if a prefix word has just executed. -/
def State.pending (s : State) : Option Byte := if s.pfxValid then some s.pfx else none

/-- `pfx <- p, pfx_valid <- 1`. -/
def State.setPrefix (s : State) (p : Byte) : State := { s with pfxValid := true, pfx := p }

/-- `pfx_valid <- 0`. -/
def State.endPrefix (s : State) : State := { s with pfxValid := false }

/-! ### Memory as data -/

/-- The byte at an address. -/
def Memory.read : Memory → Nat → Byte
  | [], _ => unlistedByte
  | (b, v) :: m, a => if a = b then v else Memory.read m a

/-- The memory without any entry for an address. -/
def Memory.erase (m : Memory) (a : Nat) : Memory := List.filter (fun c => c.1 != a) m

/-- An entry put before the first entry of a higher address. -/
def Memory.insert : Memory → Nat → Byte → Memory
  | [], a, v => [(a, v)]
  | (b, w) :: m, a, v => if a < b then (a, v) :: (b, w) :: m else (b, w) :: Memory.insert m a v

/-- Write a byte; a byte that reads as an unlisted one does is not listed. -/
def Memory.write (m : Memory) (a : Nat) (v : Byte) : Memory :=
  if v = unlistedByte then Memory.erase m a else Memory.insert (Memory.erase m a) a v

/-- Every address lies above `lo`, they rise, and none is past the top of the space. -/
def Memory.risingFrom : Option Nat → Memory → Bool
  | _, [] => true
  | lo, (a, v) :: m =>
    (match lo with | none => true | some b => decide (b < a)) && decide (a < 65536) && v != unlistedByte
      && Memory.risingFrom (some a) m

/-- The canonical form: addresses strictly rising and inside the space, no entry equal to an unlisted byte. -/
def Memory.wf (m : Memory) : Bool := Memory.risingFrom none m

/-- Put an address into a rising list without repeats. -/
def insertAddr (a : Nat) : List Nat → List Nat
  | [] => [a]
  | b :: l => if a < b then a :: b :: l else if a = b then b :: l else b :: insertAddr a l

/-- Whether a list of addresses rises strictly inside the space. -/
def addrsRisingFrom : Option Nat → List Nat → Bool
  | _, [] => true
  | lo, a :: l =>
    (match lo with | none => true | some b => decide (b < a)) && decide (a < 65536) && addrsRisingFrom (some a) l

/-! ### Memory accesses (spec/20_memory.md R33 to R38) -/

/-- Bit 0 of an address: a 16-bit access there is misaligned (R37). -/
def isOdd (a : Word) : Bool := a.getLsbD 0

/-- Whether the platform's map has a byte at the address (R38). -/
def mapped (c : Config) (a : Nat) : Bool :=
  c.map.any fun r => decide (r.base ≤ a) && decide (a < r.base + r.size)

/-- Whether both bytes of the word at an address are mapped. -/
def mappedWord (c : Config) (a : Word) : Bool :=
  mapped c a.toNat && mapped c (a.toNat + 1)

/-- Whether a 16-bit access at the address has a meaning: even and mapped (R34, R37, R38). -/
def State.wordOk (s : State) (a : Word) : Bool := !isOdd a && mappedWord s.build a

/-- Whether an 8-bit access at the address has a meaning (R35, R38). -/
def State.byteOk (s : State) (a : Word) : Bool := mapped s.build a.toNat

/-- The byte at an address. -/
def State.byteAt (s : State) (a : Nat) : Byte := s.mem.read a

/-- The word whose bytes stand at an address and the one above it, in the build's byte order (R34). -/
def State.wordAt (s : State) (a : Word) : Word :=
  joinBytes s.build.byteOrder (s.byteAt a.toNat) (s.byteAt (a.toNat + 1))

/-- Stop unless a 16-bit access at the address has a meaning (R37, R38; log 10). -/
def State.checkWord {α : Type} (s : State) (a : Word) (k : Res α) : Res α :=
  if isOdd a then .refused .misalignedWordAccess
  else if mappedWord s.build a then k
  else .refused .unmappedAddress

/-- `MemRead(a, 2)` (R34). -/
def State.readWord (s : State) (a : Word) : Res Word :=
  s.checkWord a (.next (s.wordAt a))

/-- `MemRead(a, 1)` (R35). -/
def State.readByte (s : State) (a : Word) : Res Byte :=
  if mapped s.build a.toNat then .next (s.byteAt a.toNat) else .refused .unmappedAddress

/-- Store one byte and remember that this run has written it (R42). -/
def State.putByte (s : State) (a : Nat) (v : Byte) : State :=
  { s with mem := s.mem.write a v, written := insertAddr a s.written }

/-- Store the two bytes of a word in the build's byte order (R34). -/
def State.putWord (s : State) (a : Word) (v : Word) : State :=
  (s.putByte a.toNat (evenByte s.build.byteOrder v)).putByte (a.toNat + 1) (oddByte s.build.byteOrder v)

/-- `MemWrite(a, 2, v)` (R34). -/
def State.writeWord (s : State) (a : Word) (v : Word) : Res State :=
  s.checkWord a (.next (s.putWord a v))

/-- `MemWrite(a, 1, v)` (R35). -/
def State.writeByte (s : State) (a : Word) (v : Byte) : Res State :=
  if mapped s.build a.toNat then .next (s.putByte a.toNat v) else .refused .unmappedAddress

/-! ### The stack (spec/42_push_pop.md R114) -/

/-- The address a push stores to: R15 less 2 (R110, R114). -/
def State.pushAddr (s : State) : Word := s.reg .r15 - 2#16

/-- Pre-decrement R15 by 2 and store the word there. -/
def State.push (s : State) (v : Word) : Res State :=
  (s.setReg .r15 s.pushAddr).writeWord s.pushAddr v

/-- Load the word at R15 and hand it on with R15 post-incremented by 2. -/
def State.pop {α : Type} (s : State) (k : Word → State → Res α) : Res α :=
  (s.readWord (s.reg .r15)).bind fun v => k v (s.setReg .r15 (s.reg .r15 + 2#16))

/-! ### Interrupt and reset -/

/-- The current sample of `ivector` (spec/10_state.md R21). -/
def State.ivectorNow (s : State) : BitVec 6 := s.ivectors.headD 0#6

/-- The boundary's sample has been looked at (spec/60_exceptions.md R181, R183: read once). -/
def State.sampled (s : State) : State := { s with ivectors := s.ivectors.tail }

/-- Whether the prefix register holds an interrupt off (spec/60_exceptions.md R182). -/
def State.prefixBlocks (s : State) : Bool :=
  s.pfxValid && !(s.build.iackOnZeroPrefix && s.pfx == 0#8)

/-- The acceptance condition of R182. -/
def State.accepts (s : State) : Bool :=
  s.ivectorNow != 0#6 && s.flags.IF && !s.prefixBlocks

/-- The byte address of a vector's table word (R184). -/
def vectorAddr (v : BitVec 6) : Word := BitVec.ofNat 16 (2 * v.toNat)

/-- The IACK sequence of R183 for the sampled vector: IF cleared, PC pushed, PC loaded from the table. It clears
`pfx_valid`, which matters only under `IACK_ON_ZERO_PREFIX` (R182). -/
def State.iack (s : State) (v : BitVec 6) : Res State :=
  (State.push { s with flags := { s.flags with IF := false }, pfxValid := false } s.pc).bind fun s1 =>
    (s1.readWord (vectorAddr v)).bind fun t => .next (s1.setPc t)

/-- The flag operation FLAGOP(IFL, ZFL, CFL, FD) of spec/40_system_control.md R80. -/
def State.flagOp (s : State) (ifl zfl cfl fd : Bool) : State :=
  { s with flags := { s.flags with
      IF := if ifl then fd else s.flags.IF
      ZF := if zfl then fd else s.flags.ZF
      CF := if cfl then fd else s.flags.CF } }

/-- RET with a flag operation (spec/41_branch_call.md R96): the return from a call, and with FLAGOP(1,0,0,1) from an
interrupt (spec/60_exceptions.md R187). -/
def State.returnWith (s : State) (ifl zfl cfl fd : Bool) : Res State :=
  s.pop fun t s1 => .next ((s1.setPc t).flagOp ifl zfl cfl fd)

/-- The reset sequence (spec/70_reset_and_hazards.md R200) over the build, memory and input of `s`: PC from word 0,
IF and `pfx_valid` cleared. What the spec leaves unspecified (R201) is at the values State.reset names, and a new run
begins, whose stores are none (log 23). -/
def State.takeReset (s : State) : Res State :=
  (s.readWord 0#16).bind fun t =>
    .next { State.reset with
      build := s.build, mem := s.mem, ivectors := s.ivectors, freeCount := s.freeCount, pc := t &&& 0xFFFE#16 }

/-- Count clock cycles (R211). -/
def State.addCycles (s : State) (n : Nat) : State := { s with cycles := s.cycles + n }

/-! ### Fetch (spec/20_memory.md R36, R42; spec/60_exceptions.md R198) -/

/-- Whether a store of this run has written a byte of the word at PC. -/
def State.fetchModified (s : State) : Bool :=
  s.written.contains s.pc.toNat || s.written.contains (s.pc.toNat + 1)

/-- The word at PC, unless the build refuses to fetch what this run has stored (R42). -/
def State.fetchWord (s : State) : Res Word :=
  (s.readWord s.pc).bind fun w =>
    match s.build.fetchSeesStores with
    | .immediately => .next w
    | .refuse => if s.fetchModified then .refused .fetchOfModifiedCode else .next w

/-- The instruction at PC under the decode map the prefix register selects (spec/30_encoding.md R63). -/
def State.fetchInstr (s : State) : Res Instr :=
  s.fetchWord.bind fun w =>
    match decode s.build s.pending w with
    | .ok i => .next i
    | .error _ => .refused (.reservedEncoding .rsv8)

/-- Run `k` if the build has the unit; else the instruction is reserved (spec/30_encoding.md R66). -/
def State.needsUnit (s : State) (u : BuildUnit) (k : Res State) : Res State :=
  if s.build.has u then k else .refused (.reservedEncoding .rsv8)

/-! ### Placing an instruction from outside the machine (log 22) -/

/-- Put a word into memory as a loader does: no store of the run (R42). -/
def State.placeWord (s : State) (a : Word) (v : Word) : State :=
  { s with
    mem := (s.mem.write a.toNat (evenByte s.build.byteOrder v)).write (a.toNat + 1) (oddByte s.build.byteOrder v)
    written := s.written.filter fun b => b != a.toNat && b != a.toNat + 1 }

/-- Let the coming boundary see no request if it would otherwise accept one. -/
def State.holdInterrupt (s : State) : State :=
  if s.accepts then { s with ivectors := 0#6 :: s.ivectors } else s

/-- Place an instruction where the next step fetches. A two-word instruction stands across PC - 2 and PC with its
prefix word already executed, so that the next step runs its second word. -/
def State.placeInstr (s : State) : List Word → State
  | [] => s
  | [w] => ((({ s with pfxValid := false } : State).placeWord s.pc w).placeWord s.npc 0#16).holdInterrupt
  | w :: w2 :: _ =>
    if isPrefix w then
      (((s.setPrefix (fieldImm8 w)).placeWord (s.pc - 2#16) w).placeWord s.pc w2).holdInterrupt
    else ((({ s with pfxValid := false } : State).placeWord s.pc w).placeWord s.npc w2).holdInterrupt

end Sys2Proof.Machine
end

