-- ==== Sys2Proof/Machine/Flags.lean ====
section
/-! DEFINITION. Every flag computation of the spec: carry, borrow and overflow (spec/45_alu.md R153), ZF and NF
(R152), the unspecified flags (R151), the branch conditions (spec/41_branch_call.md R90), the FLAG word
(spec/10_state.md R16). -/

namespace Sys2Proof.Machine

/-- What an addition or subtraction delivers: the result, the carry or borrow out, the overflow. -/
structure ArithOut where
  r : Word
  carry : Bool
  ovf : Bool
deriving DecidableEq, Repr

/-- `ADDC(a, b, c)` of R153. -/
def addc (a b : Word) (c : Bool) : ArithOut :=
  let t := a.toNat + b.toNat + c.toNat
  let r := BitVec.ofNat 16 t
  { r := r
    carry := decide (65536 ≤ t)
    ovf := (a.getLsbD 15 == b.getLsbD 15) && (r.getLsbD 15 != a.getLsbD 15) }

/-- `SUBB(a, b, c)` of R153. -/
def subb (a b : Word) (c : Bool) : ArithOut :=
  let t : Int := (a.toNat : Int) - b.toNat - c.toNat
  let r := BitVec.ofInt 16 t
  { r := r
    carry := decide (t < 0)
    ovf := (a.getLsbD 15 != b.getLsbD 15) && (r.getLsbD 15 != a.getLsbD 15) }

/-- CF as a borrow, or a borrow as CF: the same under `SUB_CARRY = borrow`, inverted under `not_borrow` (R153). -/
def carryOfBorrow (k : SubCarry) (b : Bool) : Bool :=
  match k with
  | .borrow => b
  | .notBorrow => !b

/-- A subtraction with its CF in the build's sense (R161 to R163). -/
def subFlags (k : SubCarry) (a b : Word) (borrowIn : Bool) : ArithOut :=
  let o := subb a b borrowIn
  { o with carry := carryOfBorrow k o.carry }

/-- NF of a result (R152). -/
def negBit (r : Word) : Bool := r.getLsbD 15

/-- ZF of a result (R152). -/
def zeroBit (r : Word) : Bool := r == 0#16

/-- ZF after ADC and SBC: the result's own, or with `ADC_SBC_Z_STICKY` also the old ZF (R152). -/
def chainZero (sticky oldZ : Bool) (r : Word) : Bool :=
  if sticky then oldZ && zeroBit r else zeroBit r

/-- The flags after ADD SUB CMP: all four from the operation, IF unchanged (R151, R153). -/
def State.arithFlags (s : State) (o : ArithOut) : State :=
  { s with flags := { s.flags with CF := o.carry, VF := o.ovf, ZF := zeroBit o.r, NF := negBit o.r } }

/-- The flags after ADC SBC: as `arithFlags` with the ZF of `chainZero` (R152). -/
def State.chainFlags (s : State) (o : ArithOut) : State :=
  { s with flags := { s.flags with
      CF := o.carry
      VF := o.ovf
      ZF := chainZero s.build.adcSbcZSticky s.flags.ZF o.r
      NF := negBit o.r } }

/-- The flags after AND OR XOR MOV TST MLT MLH: ZF and NF from the result, CF and VF each a free value (R151). -/
def State.logicFlags (s : State) (r : Word) : State :=
  { s with
    flags := { s.flags with
      CF := Config.freeBit s.freeCount
      VF := Config.freeBit (s.freeCount + 1)
      ZF := zeroBit r
      NF := negBit r }
    freeCount := s.freeCount + 2 }

/-- The flags after SHR ASR: CF the bit shifted out, ZF and NF from the result, VF a free value
(spec/43_shift.md R121, R122). -/
def State.shiftFlags (s : State) (r : Word) (out : Bool) : State :=
  { s with
    flags := { s.flags with
      CF := out
      VF := Config.freeBit s.freeCount
      ZF := zeroBit r
      NF := negBit r }
    freeCount := s.freeCount + 1 }

/-- FLAGW as PUSH FLAG stores it: eleven free bits above IF NF VF ZF CF (spec/10_state.md R16). -/
def State.flagWord (s : State) : Word :=
  Config.freeHigh s.freeCount ++ BitVec.ofBool s.flags.IF ++ BitVec.ofBool s.flags.NF ++ BitVec.ofBool s.flags.VF
    ++ BitVec.ofBool s.flags.ZF ++ BitVec.ofBool s.flags.CF

/-- The free value `flagWord` used is spent. -/
def State.drew (s : State) : State := { s with freeCount := s.freeCount + 1 }

/-- The flags POP FLAG takes from a word; IF is not written (spec/10_state.md R16, spec/42_push_pop.md R113). -/
def State.loadFlags (s : State) (w : Word) : State :=
  { s with flags := { s.flags with
      NF := w.getLsbD 3, VF := w.getLsbD 2, ZF := w.getLsbD 1, CF := w.getLsbD 0 } }

/-- The test of code 100, lower or same: `ZF | CF`, which R91 reads as `ZF | ~CF` under `not_borrow` (log 12). -/
def lowerOrSame (k : SubCarry) (f : Flags) : Bool :=
  f.ZF || carryOfBorrow k f.CF

/-- `cond(cc)` of spec/41_branch_call.md R90. -/
def condHolds (k : SubCarry) (f : Flags) : Cond → Bool
  | .cs => f.CF
  | .eq => f.ZF
  | .vs => f.VF
  | .mi => f.NF
  | .ls => lowerOrSame k f
  | .lt => f.NF ^^ f.VF
  | .le => (f.NF ^^ f.VF) || f.ZF
  | .never => false
  | .cc => !f.CF
  | .ne => !f.ZF
  | .vc => !f.VF
  | .pl => !f.NF
  | .hi => !lowerOrSame k f
  | .ge => !(f.NF ^^ f.VF)
  | .gt => !((f.NF ^^ f.VF) || f.ZF)
  | .always => true

/-- `cond(cc)` on the flags of a state. -/
def State.holds (s : State) (cond : Cond) : Bool := condHolds s.build.subCarry s.flags cond

end Sys2Proof.Machine
end

