-- ==== Sys2Proof/Machine/Operands.lean ====
section
/-! DEFINITION. The operand forms of the spec: immediates (spec/30_encoding.md R57), effective addresses
(spec/44_memory_access.md R131, R132), branch targets (R59), and the data register of loads and stores (R130). -/

namespace Sys2Proof.Machine

/-- The 8-bit immediate, extended with zeros (R57). -/
def imm8 (i : Byte) : Word := i.zeroExtend 16

/-- The effective address of LDM and STM (R131). -/
def State.shortAddr (s : State) (base : Reg) (p : Nibble) : Word :=
  s.reg base + 2#16 * p.zeroExtend 16

/-- The effective address of LDMW, STMW, LDMB and STMB (R132). -/
def State.longAddr (s : State) (base : Reg) (disp : BitVec 11) : Word :=
  s.reg base + disp.signExtend 16

/-- The value of `REL_BASE` in bytes (spec/41_branch_call.md R93). -/
def relBaseBytes : RelBase → Word
  | .zero => 0#16
  | .two => 2#16
  | .four => 4#16

/-- The target of B<cc> (spec/41_branch_call.md R93). -/
def State.relTarget (s : State) (rel : Byte) : Word :=
  s.pc + relBaseBytes s.build.relBase + 2#16 * rel.signExtend 16

/-- Whether the data register of a load or store is FLAG: code 15 under `LDST_RB15_IS_FLAG` (R130). -/
def State.dataIsFlag (s : State) (data : Reg) : Bool :=
  data == .r15 && s.build.ldstRb15IsFlag

/-- The word a store takes from its data register; from FLAG it is FLAGW, as in PUSH FLAG (R130; log 17). -/
def State.storeData (s : State) (data : Reg) : Word :=
  if s.dataIsFlag data then s.flagWord else s.reg data

/-- The free value a store of FLAG used is spent. -/
def State.afterStoreData (s : State) (data : Reg) : State :=
  if s.dataIsFlag data then s.drew else s

/-- Write a loaded word to the data register; FLAG takes it as POP FLAG does (R130; log 17). -/
def State.loadData (s : State) (data : Reg) (v : Word) : State :=
  if s.dataIsFlag data then s.loadFlags v else s.setReg data v

/-- A register's high byte kept above a new low byte (spec/44_memory_access.md R137). -/
def withLowByte (old : Word) (b : Byte) : Word := old.extractLsb' 8 8 ++ b

/-- Jump to a target if the condition holds, else go on with the next word (R93, R94, R100). -/
def State.branchIf (s : State) (taken : Bool) (target : Word) : State :=
  if taken then s.setPc target else s.advance

/-- Push the address of the next word and go to a target (R95, R101). -/
def State.callTo (s : State) (target : Word) : Res State :=
  (s.push s.npc).bind fun s1 => .next (s1.setPc target)

/-- Load a word into the data register (R133, R135). -/
def State.loadWord (s : State) (data : Reg) (ea : Word) : Res State :=
  (s.readWord ea).bind fun v => .next (s.loadData data v).advance

/-- Store the data register's word (R134, R136). -/
def State.storeWord (s : State) (data : Reg) (ea : Word) : Res State :=
  ((s.afterStoreData data).writeWord ea (s.storeData data)).bind fun s1 => .next s1.advance

/-- Load a byte into the low half of the data register (R137). -/
def State.loadByte (s : State) (data : Reg) (ea : Word) : Res State :=
  (s.readByte ea).bind fun b => .next (s.loadData data (withLowByte (s.reg data) b)).advance

/-- Store the low byte of the data register (R138). -/
def State.storeByte (s : State) (data : Reg) (ea : Word) : Res State :=
  ((s.afterStoreData data).writeByte ea ((s.storeData data).extractLsb' 0 8)).bind fun s1 => .next s1.advance

/-- A logical operation, a MOV or a multiplication: the result goes to RA (R155 to R158, R165, R166). -/
def State.logicTo (s : State) (ra : Reg) (r : Word) : State :=
  ((s.setReg ra r).logicFlags r).advance

/-- TST: flags only (R164). -/
def State.logicTest (s : State) (r : Word) : State := (s.logicFlags r).advance

/-- ADD, SUB: the result goes to RA (R159, R161). -/
def State.arithTo (s : State) (ra : Reg) (o : ArithOut) : State :=
  ((s.setReg ra o.r).arithFlags o).advance

/-- CMP: flags only (R163). -/
def State.arithTest (s : State) (o : ArithOut) : State := (s.arithFlags o).advance

/-- ADC, SBC: the result goes to RA (R160, R162). -/
def State.chainTo (s : State) (ra : Reg) (o : ArithOut) : State :=
  ((s.setReg ra o.r).chainFlags o).advance

/-- A shift right by one: the result goes to RA and bit 0 to CF (spec/43_shift.md R121, R122). -/
def State.shiftTo (s : State) (ra : Reg) (top : Bool) : State :=
  let old := s.reg ra
  let r := BitVec.ofBool top ++ old.extractLsb' 1 15
  ((s.setReg ra r).shiftFlags r (old.getLsbD 0)).advance

/-- The borrow SBC takes in: CF, or its inverse under `not_borrow` (R162). -/
def State.borrowIn (s : State) : Bool := carryOfBorrow s.build.subCarry s.flags.CF

/-- The low half of the product (R165). -/
def mulLow (a b : Word) : Word := BitVec.ofNat 16 (a.toNat * b.toNat)

/-- The high half of the unsigned product (R166). -/
def mulHigh (a b : Word) : Word := BitVec.ofNat 16 (a.toNat * b.toNat / 65536)

end Sys2Proof.Machine
end

