-- ==== Sys2Proof/Machine/Arith.lean ====
section
/-! DEFINITION. The additive operations, each in its three operand forms (spec/45_alu.md R159 to R163). -/

namespace Sys2Proof.Machine

/-- `ADD Ra,Rb` (R159). -/
def execAddRR (ra rb : Reg) (s : State) : Res State :=
  .next (s.arithTo ra (addc (s.reg ra) (s.reg rb) false))

/-- `ADD Ra,#imm8` (R159). -/
def execAddI8 (ra : Reg) (imm : Byte) (s : State) : Res State :=
  .next (s.arithTo ra (addc (s.reg ra) (imm8 imm) false))

/-- `ADD Ra,#imm16` (R159). -/
def execAddI16 (ra : Reg) (imm : Word) (s : State) : Res State :=
  .next (s.endPrefix.arithTo ra (addc (s.reg ra) imm false))

/-- `ADC Ra,Rb` (R160). -/
def execAdcRR (ra rb : Reg) (s : State) : Res State :=
  .next (s.chainTo ra (addc (s.reg ra) (s.reg rb) s.flags.CF))

/-- `ADC Ra,#imm8` (R160). -/
def execAdcI8 (ra : Reg) (imm : Byte) (s : State) : Res State :=
  .next (s.chainTo ra (addc (s.reg ra) (imm8 imm) s.flags.CF))

/-- `ADC Ra,#imm16` (R160). -/
def execAdcI16 (ra : Reg) (imm : Word) (s : State) : Res State :=
  .next (s.endPrefix.chainTo ra (addc (s.reg ra) imm s.flags.CF))

/-- `SUB Ra,Rb` (R161). -/
def execSubRR (ra rb : Reg) (s : State) : Res State :=
  .next (s.arithTo ra (subFlags s.build.subCarry (s.reg ra) (s.reg rb) false))

/-- `SUB Ra,#imm8` (R161). -/
def execSubI8 (ra : Reg) (imm : Byte) (s : State) : Res State :=
  .next (s.arithTo ra (subFlags s.build.subCarry (s.reg ra) (imm8 imm) false))

/-- `SUB Ra,#imm16` (R161). -/
def execSubI16 (ra : Reg) (imm : Word) (s : State) : Res State :=
  .next (s.endPrefix.arithTo ra (subFlags s.build.subCarry (s.reg ra) imm false))

/-- `SBC Ra,Rb` (R162). -/
def execSbcRR (ra rb : Reg) (s : State) : Res State :=
  .next (s.chainTo ra (subFlags s.build.subCarry (s.reg ra) (s.reg rb) s.borrowIn))

/-- `SBC Ra,#imm8` (R162). -/
def execSbcI8 (ra : Reg) (imm : Byte) (s : State) : Res State :=
  .next (s.chainTo ra (subFlags s.build.subCarry (s.reg ra) (imm8 imm) s.borrowIn))

/-- `SBC Ra,#imm16` (R162). -/
def execSbcI16 (ra : Reg) (imm : Word) (s : State) : Res State :=
  .next (s.endPrefix.chainTo ra (subFlags s.build.subCarry (s.reg ra) imm s.borrowIn))

/-- `CMP Ra,Rb` (R163). -/
def execCmpRR (ra rb : Reg) (s : State) : Res State :=
  .next (s.arithTest (subFlags s.build.subCarry (s.reg ra) (s.reg rb) false))

/-- `CMP Ra,#imm8` (R163). -/
def execCmpI8 (ra : Reg) (imm : Byte) (s : State) : Res State :=
  .next (s.arithTest (subFlags s.build.subCarry (s.reg ra) (imm8 imm) false))

/-- `CMP Ra,#imm16` (R163). -/
def execCmpI16 (ra : Reg) (imm : Word) (s : State) : Res State :=
  .next (s.endPrefix.arithTest (subFlags s.build.subCarry (s.reg ra) imm false))

end Sys2Proof.Machine
end

