-- ==== Sys2Proof/Machine/Branch.lean ====
section
/-! DEFINITION. Branches, jumps, calls and returns (spec/41_branch_call.md R93 to R101). -/

namespace Sys2Proof.Machine

/-- `B<cc> label` (R93). -/
def execBcc (cond : Cond) (rel : Byte) (s : State) : Res State :=
  .next (s.branchIf (s.holds cond) (s.relTarget rel))

/-- `J<cc> Rb` (R94). -/
def execJcc (cond : Cond) (rb : Reg) (s : State) : Res State :=
  .next (s.branchIf (s.holds cond) (s.reg rb))

/-- `J<cc> label`, absolute (R100). -/
def execJccAbs (cond : Cond) (target : Word) (s : State) : Res State :=
  .next (s.endPrefix.branchIf (s.holds cond) target)

/-- `JSR Rb` (R95): the target is read before R15 changes. -/
def execJsr (rb : Reg) (s : State) : Res State :=
  s.callTo (s.reg rb)

/-- `JSR label`, absolute (R101). -/
def execJsrAbs (target : Word) (s : State) : Res State :=
  s.endPrefix.callTo target

/-- `RET` (R96). -/
def execRet (s : State) : Res State :=
  s.returnWith false false false false

/-- `RET CLI` (R97). -/
def execRetCli (s : State) : Res State :=
  s.returnWith true false false false

/-- `RET STI` (R98), the return from an interrupt (spec/60_exceptions.md R187). -/
def execRetSti (s : State) : Res State :=
  s.returnWith true false false true

/-- `RET` with any other flag operation (R99). -/
def execRetFlag (ifl zfl cfl fd : Bool) (s : State) : Res State :=
  s.returnWith ifl zfl cfl fd

end Sys2Proof.Machine
end

