-- ==== Sys2Proof/Machine/LoadStore.lean ====
section
/-! DEFINITION. Loads and stores (spec/44_memory_access.md R130 to R140). -/

namespace Sys2Proof.Machine

/-- `LDM Rd,(Rbase,#2*p)` (R133). -/
def execLdm (data base : Reg) (p : Nibble) (s : State) : Res State :=
  s.loadWord data (s.shortAddr base p)

/-- `STM (Rbase,#2*p),Rs` (R134). -/
def execStm (base : Reg) (p : Nibble) (data : Reg) (s : State) : Res State :=
  s.storeWord data (s.shortAddr base p)

/-- `LDMW Rd,(Rbase,#disp)` (R135). -/
def execLdmw (data base : Reg) (disp : BitVec 11) (s : State) : Res State :=
  s.endPrefix.loadWord data (s.longAddr base disp)

/-- `STMW (Rbase,#disp),Rs` (R136). -/
def execStmw (base : Reg) (disp : BitVec 11) (data : Reg) (s : State) : Res State :=
  s.endPrefix.storeWord data (s.longAddr base disp)

/-- `LDMB Rd,(Rbase,#disp)` (R137). -/
def execLdmb (data base : Reg) (disp : BitVec 11) (s : State) : Res State :=
  s.needsUnit .byte (s.endPrefix.loadByte data (s.longAddr base disp))

/-- `STMB (Rbase,#disp),Rs` (R138). -/
def execStmb (base : Reg) (disp : BitVec 11) (data : Reg) (s : State) : Res State :=
  s.needsUnit .byte (s.endPrefix.storeByte data (s.longAddr base disp))

end Sys2Proof.Machine
end

