-- ==== Sys2Proof/Machine/Logic.lean ====
section
/-! DEFINITION. The logical operations, MOV and TST, each in its three operand forms (spec/45_alu.md R155 to R158, R164). -/

namespace Sys2Proof.Machine

/-- `AND Ra,Rb` (R155). -/
def execAndRR (ra rb : Reg) (s : State) : Res State :=
  .next (s.logicTo ra (s.reg ra &&& s.reg rb))

/-- `AND Ra,#imm8` (R155). -/
def execAndI8 (ra : Reg) (imm : Byte) (s : State) : Res State :=
  .next (s.logicTo ra (s.reg ra &&& imm8 imm))

/-- `AND Ra,#imm16` (R155). -/
def execAndI16 (ra : Reg) (imm : Word) (s : State) : Res State :=
  .next (s.endPrefix.logicTo ra (s.reg ra &&& imm))

/-- `OR Ra,Rb` (R156). -/
def execOrRR (ra rb : Reg) (s : State) : Res State :=
  .next (s.logicTo ra (s.reg ra ||| s.reg rb))

/-- `OR Ra,#imm8` (R156). -/
def execOrI8 (ra : Reg) (imm : Byte) (s : State) : Res State :=
  .next (s.logicTo ra (s.reg ra ||| imm8 imm))

/-- `OR Ra,#imm16` (R156). -/
def execOrI16 (ra : Reg) (imm : Word) (s : State) : Res State :=
  .next (s.endPrefix.logicTo ra (s.reg ra ||| imm))

/-- `XOR Ra,Rb` (R157). -/
def execXorRR (ra rb : Reg) (s : State) : Res State :=
  .next (s.logicTo ra (s.reg ra ^^^ s.reg rb))

/-- `XOR Ra,#imm8` (R157). -/
def execXorI8 (ra : Reg) (imm : Byte) (s : State) : Res State :=
  .next (s.logicTo ra (s.reg ra ^^^ imm8 imm))

/-- `XOR Ra,#imm16` (R157). -/
def execXorI16 (ra : Reg) (imm : Word) (s : State) : Res State :=
  .next (s.endPrefix.logicTo ra (s.reg ra ^^^ imm))

/-- `MOV Ra,Rb` (R158). -/
def execMovRR (ra rb : Reg) (s : State) : Res State :=
  .next (s.logicTo ra (s.reg rb))

/-- `MOV Ra,#imm8` (R158). -/
def execMovI8 (ra : Reg) (imm : Byte) (s : State) : Res State :=
  .next (s.logicTo ra (imm8 imm))

/-- `MOV Ra,#imm16` (R158). -/
def execMovI16 (ra : Reg) (imm : Word) (s : State) : Res State :=
  .next (s.endPrefix.logicTo ra imm)

/-- `TST Ra,Rb` (R164). -/
def execTstRR (ra rb : Reg) (s : State) : Res State :=
  .next (s.logicTest (s.reg ra &&& s.reg rb))

/-- `TST Ra,#imm8` (R164). -/
def execTstI8 (ra : Reg) (imm : Byte) (s : State) : Res State :=
  .next (s.logicTest (s.reg ra &&& imm8 imm))

/-- `TST Ra,#imm16` (R164). -/
def execTstI16 (ra : Reg) (imm : Word) (s : State) : Res State :=
  .next (s.endPrefix.logicTest (s.reg ra &&& imm))

end Sys2Proof.Machine
end

