-- ==== Sys2Proof/Machine/Multiply.lean ====
section
/-! DEFINITION. The multiply unit, each operation in its three operand forms (spec/45_alu.md R165, R166). -/

namespace Sys2Proof.Machine

/-- `MLT Ra,Rb` (R165). -/
def execMltRR (ra rb : Reg) (s : State) : Res State :=
  s.needsUnit .mlt (.next (s.logicTo ra (mulLow (s.reg ra) (s.reg rb))))

/-- `MLT Ra,#imm8` (R165). -/
def execMltI8 (ra : Reg) (imm : Byte) (s : State) : Res State :=
  s.needsUnit .mlt (.next (s.logicTo ra (mulLow (s.reg ra) (imm8 imm))))

/-- `MLT Ra,#imm16` (R165). -/
def execMltI16 (ra : Reg) (imm : Word) (s : State) : Res State :=
  s.needsUnit .mlt (.next (s.endPrefix.logicTo ra (mulLow (s.reg ra) imm)))

/-- `MLH Ra,Rb` (R166). -/
def execMlhRR (ra rb : Reg) (s : State) : Res State :=
  s.needsUnit .mlh (.next (s.logicTo ra (mulHigh (s.reg ra) (s.reg rb))))

/-- `MLH Ra,#imm8` (R166). -/
def execMlhI8 (ra : Reg) (imm : Byte) (s : State) : Res State :=
  s.needsUnit .mlh (.next (s.logicTo ra (mulHigh (s.reg ra) (imm8 imm))))

/-- `MLH Ra,#imm16` (R166). -/
def execMlhI16 (ra : Reg) (imm : Word) (s : State) : Res State :=
  s.needsUnit .mlh (.next (s.endPrefix.logicTo ra (mulHigh (s.reg ra) imm)))

end Sys2Proof.Machine
end

