-- ==== Sys2Proof/Machine/Prefix.lean ====
section
/-! DEFINITION. The prefix word (spec/45_alu.md R154). -/

namespace Sys2Proof.Machine

/-- The prefix word (R154). -/
def execPfx (payload : Byte) (s : State) : Res State :=
  .next (s.setPrefix payload).advance

end Sys2Proof.Machine
end

