-- ==== Sys2Proof/Machine/Reserved.lean ====
section
/-! DEFINITION. The reserved encodings: the spec gives them no effect and no trap (spec/30_encoding.md R65, spec/60_exceptions.md R180). -/

namespace Sys2Proof.Machine

/-- RSV1: `0011 aaaa bbbb 0000`, a not 1111 (R65). -/
def execRsv1 (_a _b : Nibble) (_s : State) : Res State :=
  .refused (.reservedEncoding .rsv1)

/-- RSV2: `0001 1111 bbbb xxx0` (R65). -/
def execRsv2 (_b : Nibble) (_x : BitVec 3) (_s : State) : Res State :=
  .refused (.reservedEncoding .rsv2)

/-- RSV3: `0011 aaaa bbbb 0011`, a not 1111 (R65). -/
def execRsv3 (_a _b : Nibble) (_s : State) : Res State :=
  .refused (.reservedEncoding .rsv3)

/-- RSV4: SMOD bits other than SM (R65). -/
def execRsv4 (_a _smod : Nibble) (_s : State) : Res State :=
  .refused (.reservedEncoding .rsv4)

/-- RSV5: prefixed `0011` (R65). -/
def execRsv5 (_payload : Byte) (_rest : BitVec 12) (_s : State) : Res State :=
  .refused (.reservedEncoding .rsv5)

/-- RSV6: prefixed `0010 cccc aaaaaaa 1`, c not 1111 (R65). -/
def execRsv6 (_payload : Byte) (_c : Nibble) (_a : BitVec 7) (_s : State) : Res State :=
  .refused (.reservedEncoding .rsv6)

/-- RSV7: prefixed `0010 0111 aaaaaaa 0` (R65). -/
def execRsv7 (_payload : Byte) (_a : BitVec 7) (_s : State) : Res State :=
  .refused (.reservedEncoding .rsv7)

end Sys2Proof.Machine
end

