-- ==== Sys2Proof/Machine/Shift.lean ====
section
/-! DEFINITION. The shift unit (spec/43_shift.md R120 to R122). -/

namespace Sys2Proof.Machine

/-- `SHR Ra` (R121): CF is shifted in. -/
def execShr (ra : Reg) (s : State) : Res State :=
  s.needsUnit .shift (.next (s.shiftTo ra s.flags.CF))

/-- `ASR Ra` (R122): bit 15 is shifted in. -/
def execAsr (ra : Reg) (s : State) : Res State :=
  s.needsUnit .shift (.next (s.shiftTo ra ((s.reg ra).getLsbD 15)))

end Sys2Proof.Machine
end

