-- ==== Sys2Proof/Machine/Stack.lean ====
section
/-! DEFINITION. PUSH and POP (spec/42_push_pop.md R110 to R114). -/

namespace Sys2Proof.Machine

/-- `PUSH Rn` (R110). -/
def execPushReg (n : Reg) (s : State) : Res State :=
  (s.push (s.reg n)).bind fun s1 => .next s1.advance

/-- `PUSH FLAG` (R111). -/
def execPushFlag (s : State) : Res State :=
  (s.drew.push s.flagWord).bind fun s1 => .next s1.advance

/-- `POP Rn` (R112). -/
def execPopReg (n : Reg) (s : State) : Res State :=
  s.pop fun v s1 => .next (s1.setReg n v).advance

/-- `POP FLAG` (R113). -/
def execPopFlag (s : State) : Res State :=
  s.pop fun v s1 => .next (s1.loadFlags v).advance

end Sys2Proof.Machine
end

