-- ==== Sys2Proof/Machine/System.lean ====
section
/-! DEFINITION. The flag operations (spec/40_system_control.md R80 to R88). -/

namespace Sys2Proof.Machine

/-- `NOP` (R81). -/
def execNop (s : State) : Res State :=
  .next s.advance

/-- `CLC` (R82). -/
def execClc (s : State) : Res State :=
  .next (s.flagOp false false true false).advance

/-- `STC` (R83). -/
def execStc (s : State) : Res State :=
  .next (s.flagOp false false true true).advance

/-- `CLZ` (R84). -/
def execClz (s : State) : Res State :=
  .next (s.flagOp false true false false).advance

/-- `STZ` (R85). -/
def execStz (s : State) : Res State :=
  .next (s.flagOp false true false true).advance

/-- `CLI` (R86). -/
def execCli (s : State) : Res State :=
  .next (s.flagOp true false false false).advance

/-- `STI` (R87). -/
def execSti (s : State) : Res State :=
  .next (s.flagOp true false false true).advance

/-- A flag operation with more than one select bit (R88). -/
def execFlagop (ifl zfl cfl fd : Bool) (s : State) : Res State :=
  .next (s.flagOp ifl zfl cfl fd).advance

end Sys2Proof.Machine
end

