-- ==== Sys2Proof/Machine/Dispatch.lean ====
section
/-! DEFINITION. The one dispatcher: each instruction to its meaning. -/

namespace Sys2Proof.Machine

def exec (i : Instr) (s : State) : Host.Outcome State Fault Refusal :=
  match i with
  | .ret => Sys2Proof.Machine.execRet s
  | .retCli => Sys2Proof.Machine.execRetCli s
  | .retSti => Sys2Proof.Machine.execRetSti s
  | .retFlag ifl zfl cfl fd => Sys2Proof.Machine.execRetFlag ifl zfl cfl fd s
  | .popFlag => Sys2Proof.Machine.execPopFlag s
  | .popReg n => Sys2Proof.Machine.execPopReg n s
  | .ldm data base p => Sys2Proof.Machine.execLdm data base p s
  | .pushFlag => Sys2Proof.Machine.execPushFlag s
  | .pushReg n => Sys2Proof.Machine.execPushReg n s
  | .rsv2 b x => Sys2Proof.Machine.execRsv2 b x s
  | .stm base p data => Sys2Proof.Machine.execStm base p data s
  | .pfx payload => Sys2Proof.Machine.execPfx payload s
  | .bcc cond rel => Sys2Proof.Machine.execBcc cond rel s
  | .nop => Sys2Proof.Machine.execNop s
  | .clc => Sys2Proof.Machine.execClc s
  | .stc => Sys2Proof.Machine.execStc s
  | .clz => Sys2Proof.Machine.execClz s
  | .stz => Sys2Proof.Machine.execStz s
  | .cli => Sys2Proof.Machine.execCli s
  | .sti => Sys2Proof.Machine.execSti s
  | .flagop ifl zfl cfl fd => Sys2Proof.Machine.execFlagop ifl zfl cfl fd s
  | .rsv1 a b => Sys2Proof.Machine.execRsv1 a b s
  | .asr ra => Sys2Proof.Machine.execAsr ra s
  | .shr ra => Sys2Proof.Machine.execShr ra s
  | .rsv4 a smod => Sys2Proof.Machine.execRsv4 a smod s
  | .jcc cond rb => Sys2Proof.Machine.execJcc cond rb s
  | .jsr rb => Sys2Proof.Machine.execJsr rb s
  | .rsv3 a b => Sys2Proof.Machine.execRsv3 a b s
  | .andRR ra rb => Sys2Proof.Machine.execAndRR ra rb s
  | .orRR ra rb => Sys2Proof.Machine.execOrRR ra rb s
  | .xorRR ra rb => Sys2Proof.Machine.execXorRR ra rb s
  | .movRR ra rb => Sys2Proof.Machine.execMovRR ra rb s
  | .addRR ra rb => Sys2Proof.Machine.execAddRR ra rb s
  | .subRR ra rb => Sys2Proof.Machine.execSubRR ra rb s
  | .adcRR ra rb => Sys2Proof.Machine.execAdcRR ra rb s
  | .sbcRR ra rb => Sys2Proof.Machine.execSbcRR ra rb s
  | .tstRR ra rb => Sys2Proof.Machine.execTstRR ra rb s
  | .cmpRR ra rb => Sys2Proof.Machine.execCmpRR ra rb s
  | .mltRR ra rb => Sys2Proof.Machine.execMltRR ra rb s
  | .mlhRR ra rb => Sys2Proof.Machine.execMlhRR ra rb s
  | .andI8 ra imm => Sys2Proof.Machine.execAndI8 ra imm s
  | .orI8 ra imm => Sys2Proof.Machine.execOrI8 ra imm s
  | .xorI8 ra imm => Sys2Proof.Machine.execXorI8 ra imm s
  | .movI8 ra imm => Sys2Proof.Machine.execMovI8 ra imm s
  | .addI8 ra imm => Sys2Proof.Machine.execAddI8 ra imm s
  | .subI8 ra imm => Sys2Proof.Machine.execSubI8 ra imm s
  | .adcI8 ra imm => Sys2Proof.Machine.execAdcI8 ra imm s
  | .sbcI8 ra imm => Sys2Proof.Machine.execSbcI8 ra imm s
  | .tstI8 ra imm => Sys2Proof.Machine.execTstI8 ra imm s
  | .cmpI8 ra imm => Sys2Proof.Machine.execCmpI8 ra imm s
  | .mltI8 ra imm => Sys2Proof.Machine.execMltI8 ra imm s
  | .mlhI8 ra imm => Sys2Proof.Machine.execMlhI8 ra imm s
  | .ldmb data base disp => Sys2Proof.Machine.execLdmb data base disp s
  | .ldmw data base disp => Sys2Proof.Machine.execLdmw data base disp s
  | .stmb base disp data => Sys2Proof.Machine.execStmb base disp data s
  | .stmw base disp data => Sys2Proof.Machine.execStmw base disp data s
  | .jsrAbs target => Sys2Proof.Machine.execJsrAbs target s
  | .rsv6 payload c a => Sys2Proof.Machine.execRsv6 payload c a s
  | .rsv7 payload a => Sys2Proof.Machine.execRsv7 payload a s
  | .jccAbs cond target => Sys2Proof.Machine.execJccAbs cond target s
  | .rsv5 payload rest => Sys2Proof.Machine.execRsv5 payload rest s
  | .andI16 ra imm => Sys2Proof.Machine.execAndI16 ra imm s
  | .orI16 ra imm => Sys2Proof.Machine.execOrI16 ra imm s
  | .xorI16 ra imm => Sys2Proof.Machine.execXorI16 ra imm s
  | .movI16 ra imm => Sys2Proof.Machine.execMovI16 ra imm s
  | .addI16 ra imm => Sys2Proof.Machine.execAddI16 ra imm s
  | .subI16 ra imm => Sys2Proof.Machine.execSubI16 ra imm s
  | .adcI16 ra imm => Sys2Proof.Machine.execAdcI16 ra imm s
  | .sbcI16 ra imm => Sys2Proof.Machine.execSbcI16 ra imm s
  | .tstI16 ra imm => Sys2Proof.Machine.execTstI16 ra imm s
  | .cmpI16 ra imm => Sys2Proof.Machine.execCmpI16 ra imm s
  | .mltI16 ra imm => Sys2Proof.Machine.execMltI16 ra imm s
  | .mlhI16 ra imm => Sys2Proof.Machine.execMlhI16 ra imm s

end Sys2Proof.Machine
end

