-- ==== Sys2Proof/Machine/Timing.lean ====
section
/-! DEFINITION. The clock cycles of every instruction (spec/70_reset_and_hazards.md R210), for information only (R211). -/

namespace Sys2Proof.Machine

/-- The clock cycles of one instruction word (R210). A row of the prefixed map is charged its table count less the
one cycle of its prefix word; the reserved rows have no count. -/
def instrCycles : Instr → Nat
  | .nop | .clc | .stc | .clz | .stz | .cli | .sti | .flagop _ _ _ _ | .pfx _
  | .bcc _ _ | .jcc _ _ | .jccAbs _ _ | .asr _ | .shr _
  | .andRR _ _ | .orRR _ _ | .xorRR _ _ | .movRR _ _ | .addRR _ _ | .subRR _ _
  | .adcRR _ _ | .sbcRR _ _ | .tstRR _ _ | .cmpRR _ _ | .mltRR _ _ | .mlhRR _ _
  | .andI8 _ _ | .orI8 _ _ | .xorI8 _ _ | .movI8 _ _ | .addI8 _ _ | .subI8 _ _
  | .adcI8 _ _ | .sbcI8 _ _ | .tstI8 _ _ | .cmpI8 _ _ | .mltI8 _ _ | .mlhI8 _ _
  | .andI16 _ _ | .orI16 _ _ | .xorI16 _ _ | .movI16 _ _ | .addI16 _ _ | .subI16 _ _
  | .adcI16 _ _ | .sbcI16 _ _ | .tstI16 _ _ | .cmpI16 _ _ | .mltI16 _ _ | .mlhI16 _ _ => 1
  | .ret | .retCli | .retSti | .retFlag _ _ _ _ | .jsr _ | .jsrAbs _
  | .pushReg _ | .pushFlag | .popReg _ | .popFlag
  | .ldm _ _ _ | .stm _ _ _ | .ldmw _ _ _ | .stmw _ _ _ | .ldmb _ _ _ | .stmb _ _ _ => 2
  | .rsv1 _ _ | .rsv2 _ _ | .rsv3 _ _ | .rsv4 _ _ | .rsv5 _ _ | .rsv6 _ _ _ | .rsv7 _ _ => 0

/-- The WRD column of R210: two words for the rows of the prefixed map, the prefix word among them. -/
def instrWords : Instr → Nat
  | .ldmb _ _ _ | .ldmw _ _ _ | .stmb _ _ _ | .stmw _ _ _ | .jsrAbs _ | .rsv6 _ _ _ | .rsv7 _ _ | .jccAbs _ _
  | .rsv5 _ _ | .andI16 _ _ | .orI16 _ _ | .xorI16 _ _ | .movI16 _ _ | .addI16 _ _ | .subI16 _ _ | .adcI16 _ _
  | .sbcI16 _ _ | .tstI16 _ _ | .cmpI16 _ _ | .mltI16 _ _ | .mlhI16 _ _ => 2
  | .ret | .retCli | .retSti | .retFlag _ _ _ _ | .popFlag | .popReg _ | .ldm _ _ _ | .pushFlag | .pushReg _
  | .rsv2 _ _ | .stm _ _ _ | .pfx _ | .bcc _ _ | .nop | .clc | .stc | .clz | .stz | .cli | .sti
  | .flagop _ _ _ _ | .rsv1 _ _ | .asr _ | .shr _ | .rsv4 _ _ | .jcc _ _ | .jsr _ | .rsv3 _ _ | .andRR _ _
  | .orRR _ _ | .xorRR _ _ | .movRR _ _ | .addRR _ _ | .subRR _ _ | .adcRR _ _ | .sbcRR _ _ | .tstRR _ _
  | .cmpRR _ _ | .mltRR _ _ | .mlhRR _ _ | .andI8 _ _ | .orI8 _ _ | .xorI8 _ _ | .movI8 _ _ | .addI8 _ _
  | .subI8 _ _ | .adcI8 _ _ | .sbcI8 _ _ | .tstI8 _ _ | .cmpI8 _ _ | .mltI8 _ _ | .mlhI8 _ _ => 1

/-- The CYC column of R210: the cycles of an instruction with its prefix word, which costs one. -/
def totalCycles (i : Instr) : Nat := instrCycles i + (instrWords i - 1)

/-- The clock cycles of the interrupt acknowledge sequence (R210). -/
def iackCycles : Nat := 2

end Sys2Proof.Machine
end

