-- ==== Sys2Proof/Machine/Step.lean ====
section
/-! DEFINITION. One step of the machine (spec/60_exceptions.md R198): the interrupt acknowledge sequence if the
boundary's sample of `ivector` is accepted, else one instruction word. -/

namespace Sys2Proof.Machine

/-- `step(ivector_now)` of R198; the sample is the head of `ivectors` and each step consumes one (log 21). -/
def step (s : State) : Host.Outcome State Fault Refusal :=
  if s.accepts then (s.sampled.addCycles iackCycles).iack s.ivectorNow
  else s.fetchInstr.bind fun i => exec i (s.sampled.addCycles (instrCycles i))

/-- The state with a table instruction placed where the next step fetches (log 22). -/
def State.withFetchWord (s : State) (nbits w : Nat) : State :=
  s.placeInstr (tableWords nbits w)

end Sys2Proof.Machine
end

