-- ==== Sys2Proof/Safety.lean ====
section
/-! DEFINITION. The terms the claims use: what an instruction leaves unchanged, the invariant every step keeps, and
when a run has ended. -/

namespace Sys2Proof.Machine

/-- Every register outside the list is unchanged. -/
def SameRegsBut (changed : List Reg) (s t : State) : Prop :=
  ∀ r : Reg, r ∉ changed → t.reg r = s.reg r

/-- Every byte of memory is unchanged, and nothing is recorded as stored. -/
def SameMem (s t : State) : Prop :=
  (∀ a : Nat, t.byteAt a = s.byteAt a) ∧ t.written = s.written

/-- Every byte outside the `n` bytes at `a` is unchanged. -/
def SameMemBut (a : Word) (n : Nat) (s t : State) : Prop :=
  ∀ b : Nat, ¬ (a.toNat ≤ b ∧ b < a.toNat + n) → t.byteAt b = s.byteAt b

/-- The prefix register is unchanged. -/
def SamePrefix (s t : State) : Prop :=
  t.pfxValid = s.pfxValid ∧ t.pfx = s.pfx

/-- The second word of a two-word instruction has used the prefix up (spec/10_state.md R20). -/
def PrefixUsed (s t : State) : Prop :=
  t.pfxValid = false ∧ t.pfx = s.pfx

/-- The build, the input and the cycle count are unchanged: an instruction's own effect touches none of them. -/
def SameModel (s t : State) : Prop :=
  t.build = s.build ∧ t.ivectors = s.ivectors ∧ t.cycles = s.cycles

/-- PC stands at the next word, bit 0 dropped (spec/10_state.md R13, R14). -/
def PcNext (s t : State) : Prop :=
  t.pc = (s.pc + 2#16) &&& 0xFFFE#16

/-- The invariant of the machine: PC is even (R13), memory and the record of stores are in canonical form, and the
build is one R4 of spec/00_scope.md admits. -/
def State.Inv (s : State) : Prop :=
  isOdd s.pc = false ∧ s.mem.wf = true ∧ addrsRisingFrom none s.written = true ∧ s.build.wf = true

/-- A run has ended: the word at PC is an unconditional branch to itself and no interrupt can leave the loop
(spec/70_reset_and_hazards.md R203). -/
def State.Ended (s : State) : Prop :=
  ∃ rel : Byte, s.fetchInstr = .next (.bcc .always rel) ∧ s.relTarget rel &&& 0xFFFE#16 = s.pc
    ∧ (s.flags.IF = false ∨ ∀ v ∈ s.ivectors, v = 0#6)

/-- No fault and no refusal in the next `k` steps. -/
def State.SafeFor (s : State) (k : Nat) : Prop :=
  ∃ t : State, Sys2Proof.core.run k s = .next t

end Sys2Proof.Machine
end

