-- ==== Sys2Proof/Certificates/Slice0/Obligations.lean ====
section
/-! DEFINITION. The statements for the provers, after the vocabulary they are written in. -/

namespace Sys2Proof.Claims

open Sys2Proof.Machine

/-- The second operand of an ALU operation in its three forms (spec/45_alu.md R150). -/
inductive AluOperand where
  | reg (rb : Reg)
  | byte (imm : Byte)
  | word (imm : Word)
deriving DecidableEq, Repr

/-- The value B of the operand (R150): the register, the zero-extended byte, the 16-bit immediate. -/
def AluOperand.value (s : State) : AluOperand → Word
  | .reg rb => s.reg rb
  | .byte imm => imm.zeroExtend 16
  | .word imm => imm

/-- `pfx_valid` afterwards: the 16-bit immediate form uses the prefix up, the one-word forms leave it (R150). -/
def AluOperand.pfxValidAfter (s : State) : AluOperand → Bool
  | .reg _ | .byte _ => s.pfxValid
  | .word _ => false

/-- AND in the operand's form: andRR, andI8, andI16. -/
def andOf (ra : Reg) : AluOperand → Instr
  | .reg rb => .andRR ra rb | .byte imm => .andI8 ra imm | .word imm => .andI16 ra imm
/-- OR: orRR, orI8, orI16. -/
def orOf (ra : Reg) : AluOperand → Instr
  | .reg rb => .orRR ra rb | .byte imm => .orI8 ra imm | .word imm => .orI16 ra imm
/-- XOR: xorRR, xorI8, xorI16. -/
def xorOf (ra : Reg) : AluOperand → Instr
  | .reg rb => .xorRR ra rb | .byte imm => .xorI8 ra imm | .word imm => .xorI16 ra imm
/-- MOV: movRR, movI8, movI16. -/
def movOf (ra : Reg) : AluOperand → Instr
  | .reg rb => .movRR ra rb | .byte imm => .movI8 ra imm | .word imm => .movI16 ra imm
/-- TST: tstRR, tstI8, tstI16. -/
def tstOf (ra : Reg) : AluOperand → Instr
  | .reg rb => .tstRR ra rb | .byte imm => .tstI8 ra imm | .word imm => .tstI16 ra imm
/-- ADD: addRR, addI8, addI16. -/
def addOf (ra : Reg) : AluOperand → Instr
  | .reg rb => .addRR ra rb | .byte imm => .addI8 ra imm | .word imm => .addI16 ra imm
/-- ADC: adcRR, adcI8, adcI16. -/
def adcOf (ra : Reg) : AluOperand → Instr
  | .reg rb => .adcRR ra rb | .byte imm => .adcI8 ra imm | .word imm => .adcI16 ra imm
/-- SUB: subRR, subI8, subI16. -/
def subOf (ra : Reg) : AluOperand → Instr
  | .reg rb => .subRR ra rb | .byte imm => .subI8 ra imm | .word imm => .subI16 ra imm
/-- SBC: sbcRR, sbcI8, sbcI16. -/
def sbcOf (ra : Reg) : AluOperand → Instr
  | .reg rb => .sbcRR ra rb | .byte imm => .sbcI8 ra imm | .word imm => .sbcI16 ra imm
/-- CMP: cmpRR, cmpI8, cmpI16. -/
def cmpOf (ra : Reg) : AluOperand → Instr
  | .reg rb => .cmpRR ra rb | .byte imm => .cmpI8 ra imm | .word imm => .cmpI16 ra imm
/-- MLT: mltRR, mltI8, mltI16. -/
def mltOf (ra : Reg) : AluOperand → Instr
  | .reg rb => .mltRR ra rb | .byte imm => .mltI8 ra imm | .word imm => .mltI16 ra imm
/-- MLH: mlhRR, mlhI8, mlhI16. -/
def mlhOf (ra : Reg) : AluOperand → Instr
  | .reg rb => .mlhRR ra rb | .byte imm => .mlhI8 ra imm | .word imm => .mlhI16 ra imm

/-- What an ALU operation leaves unchanged beside its destination and its flags. -/
def AluFrame (b : AluOperand) (changed : List Reg) (s t : State) : Prop :=
  SameRegsBut changed s t ∧ SameMem s t ∧ SameModel s t ∧ PcNext s t
    ∧ t.pfxValid = b.pfxValidAfter s ∧ t.pfx = s.pfx ∧ t.flags.IF = s.flags.IF

/-- ZF and NF are those of the 16-bit result (R152). -/
def ZeroNegOf (r : Word) (t : State) : Prop :=
  t.flags.ZF = decide (r = 0#16) ∧ t.flags.NF = r.getLsbD 15

/-- A subtraction's CF in the build's sense of the borrow (R153). -/
def BorrowFlag (s t : State) (borrow : Prop) : Prop :=
  (s.build.subCarry = .borrow → (t.flags.CF = true ↔ borrow)) ∧
  (s.build.subCarry = .notBorrow → (t.flags.CF = true ↔ ¬ borrow))

/-- The carry an SBC subtracts, 0 or 1 (R162). -/
def borrowOf (s : State) : Nat :=
  match s.build.subCarry with
  | .borrow => s.flags.CF.toNat
  | .notBorrow => 1 - s.flags.CF.toNat

/-- A signed value that 16 bits cannot hold (R153). -/
def OutOfRange (v : Int) : Prop := v < -32768 ∨ 32767 < v

/-- ZF after ADC and SBC (R152): the result's, and under `ADC_SBC_Z_STICKY` only if ZF was set. -/
def ChainZero (s t : State) (r : Word) : Prop :=
  (s.build.adcSbcZSticky = false → t.flags.ZF = decide (r = 0#16)) ∧
  (s.build.adcSbcZSticky = true → t.flags.ZF = (s.flags.ZF && decide (r = 0#16)))

/-- Everything but PC is unchanged. -/
def OnlyPc (s t : State) : Prop :=
  SameRegsBut [] s t ∧ t.flags = s.flags ∧ SamePrefix s t ∧ SameMem s t ∧ SameModel s t

/-- The `n` bytes at `a` are stored to and recorded as stored, and no other byte is. -/
def StoresOnly (a : Word) (n : Nat) (s t : State) : Prop :=
  SameMemBut a n s t ∧ ∀ b : Nat, b ∈ t.written ↔ (b ∈ s.written ∨ (a.toNat ≤ b ∧ b < a.toNat + n))

/-- A push of `v`: R15 less 2, the word there, nothing else of registers and memory (spec/42_push_pop.md R114). -/
def Pushes (v : Word) (s t : State) : Prop :=
  t.reg .r15 = s.reg .r15 - 2#16 ∧ SameRegsBut [.r15] s t
    ∧ t.wordAt s.pushAddr = v ∧ s.pushAddr = s.reg .r15 - 2#16 ∧ StoresOnly s.pushAddr 2 s t

/-- Which instructions need a unit (spec/30_encoding.md R66): the shift group, FN 1110 and FN 1111 in their three
forms, and the byte loads and stores. -/
def NeedsUnit (i : Instr) : BuildUnit → Prop
  | .shift => ∃ ra, i = .asr ra ∨ i = .shr ra
  | .mlt => ∃ ra b, i = mltOf ra b
  | .mlh => ∃ ra b, i = mlhOf ra b
  | .byte => ∃ data base disp, i = .ldmb data base disp ∨ i = .stmb base disp data

/-- The low five bits of a word are IF NF VF ZF CF of a state (spec/10_state.md R16). -/
def FlagImage (s : State) (w : Word) : Prop :=
  w.getLsbD 4 = s.flags.IF ∧ w.getLsbD 3 = s.flags.NF ∧ w.getLsbD 2 = s.flags.VF
    ∧ w.getLsbD 1 = s.flags.ZF ∧ w.getLsbD 0 = s.flags.CF

/-- NF VF ZF CF are taken from a word and IF is kept (R16). -/
def FlagsFrom (w : Word) (s t : State) : Prop :=
  t.flags.NF = w.getLsbD 3 ∧ t.flags.VF = w.getLsbD 2 ∧ t.flags.ZF = w.getLsbD 1 ∧ t.flags.CF = w.getLsbD 0
    ∧ t.flags.IF = s.flags.IF

/-- The data register of a load or store names FLAG in this build (spec/44_memory_access.md R130). -/
def NamesFlag (s : State) (data : Reg) : Prop := data = .r15 ∧ s.build.ldstRb15IsFlag = true

/-- A load delivers `v` to the data register and changes no other register, no flag and no memory; where the build
reads code 15 as FLAG, the flags are taken from `v` instead. -/
def Loads (data : Reg) (v : Word) (s t : State) : Prop :=
  (¬ NamesFlag s data → t.reg data = v ∧ SameRegsBut [data] s t ∧ t.flags = s.flags) ∧
  (NamesFlag s data → SameRegsBut [] s t ∧ FlagsFrom v s t) ∧
  SameMem s t ∧ SameModel s t ∧ PcNext s t

/-- A store of a data register changes no register and no flag. -/
def StoreFrame (s t : State) : Prop :=
  SameRegsBut [] s t ∧ t.flags = s.flags ∧ SameModel s t ∧ PcNext s t

/-- The word at an address can be fetched: accessible, and not stored to by this run in a build that refuses that
(spec/20_memory.md R42). -/
def CanFetch (s : State) (a : Word) : Prop :=
  s.wordOk a = true ∧
    (s.build.fetchSeesStores = .immediately ∨ (a.toNat ∉ s.written ∧ a.toNat + 1 ∉ s.written))

/-- One row of spec/opcode_table.json: its map, the conditions on the opcode word and on the payload. -/
structure TableRow where
  prefixed : Bool
  value : Word
  mask : Word
  payloadValue : Byte
  payloadMask : Byte
deriving DecidableEq, Repr

/-- Whether a word in a decode map falls in the row. -/
def TableRow.matches (r : TableRow) (pending : Option Byte) (w : Word) : Bool :=
  (w &&& r.mask == r.value) &&
    match pending with
    | none => !r.prefixed
    | some p => r.prefixed && (p &&& r.payloadMask == r.payloadValue)

/-- Rows 0 to 27: the one-word map but for the ALU operations. -/
def tableRowsShort : List TableRow :=
  [⟨false, 0x0F00#16, 0xFFE1#16, 0x00#8, 0x00#8⟩, ⟨false, 0x0F80#16, 0xFFF1#16, 0x00#8, 0x00#8⟩,
   ⟨false, 0x0F90#16, 0xFFF1#16, 0x00#8, 0x00#8⟩, ⟨false, 0x0F00#16, 0xFF01#16, 0x00#8, 0x00#8⟩,
   ⟨false, 0x0FF1#16, 0xFFF1#16, 0x00#8, 0x00#8⟩, ⟨false, 0x0F01#16, 0xFF01#16, 0x00#8, 0x00#8⟩,
   ⟨false, 0x0000#16, 0xF000#16, 0x00#8, 0x00#8⟩, ⟨false, 0x1FF1#16, 0xFFF1#16, 0x00#8, 0x00#8⟩,
   ⟨false, 0x1F01#16, 0xFF01#16, 0x00#8, 0x00#8⟩, ⟨false, 0x1F00#16, 0xFF01#16, 0x00#8, 0x00#8⟩,
   ⟨false, 0x1000#16, 0xF000#16, 0x00#8, 0x00#8⟩, ⟨false, 0x2700#16, 0xFF00#16, 0x00#8, 0x00#8⟩,
   ⟨false, 0x2000#16, 0xF000#16, 0x00#8, 0x00#8⟩, ⟨false, 0x3F00#16, 0xFFEF#16, 0x00#8, 0x00#8⟩,
   ⟨false, 0x3F20#16, 0xFFFF#16, 0x00#8, 0x00#8⟩, ⟨false, 0x3F30#16, 0xFFFF#16, 0x00#8, 0x00#8⟩,
   ⟨false, 0x3F40#16, 0xFFFF#16, 0x00#8, 0x00#8⟩, ⟨false, 0x3F50#16, 0xFFFF#16, 0x00#8, 0x00#8⟩,
   ⟨false, 0x3F80#16, 0xFFFF#16, 0x00#8, 0x00#8⟩, ⟨false, 0x3F90#16, 0xFFFF#16, 0x00#8, 0x00#8⟩,
   ⟨false, 0x3F00#16, 0xFF0F#16, 0x00#8, 0x00#8⟩, ⟨false, 0x3000#16, 0xF00F#16, 0x00#8, 0x00#8⟩,
   ⟨false, 0x3001#16, 0xF0FF#16, 0x00#8, 0x00#8⟩, ⟨false, 0x3011#16, 0xF0FF#16, 0x00#8, 0x00#8⟩,
   ⟨false, 0x3001#16, 0xF00F#16, 0x00#8, 0x00#8⟩, ⟨false, 0x3002#16, 0xF00F#16, 0x00#8, 0x00#8⟩,
   ⟨false, 0x3F03#16, 0xFF0F#16, 0x00#8, 0x00#8⟩, ⟨false, 0x3003#16, 0xF00F#16, 0x00#8, 0x00#8⟩]

/-- Rows 28 to 51: the one-word ALU operations. -/
def tableRowsAlu : List TableRow :=
  [⟨false, 0x3004#16, 0xF00F#16, 0x00#8, 0x00#8⟩, ⟨false, 0x3005#16, 0xF00F#16, 0x00#8, 0x00#8⟩,
   ⟨false, 0x3006#16, 0xF00F#16, 0x00#8, 0x00#8⟩, ⟨false, 0x3007#16, 0xF00F#16, 0x00#8, 0x00#8⟩,
   ⟨false, 0x3008#16, 0xF00F#16, 0x00#8, 0x00#8⟩, ⟨false, 0x3009#16, 0xF00F#16, 0x00#8, 0x00#8⟩,
   ⟨false, 0x300A#16, 0xF00F#16, 0x00#8, 0x00#8⟩, ⟨false, 0x300B#16, 0xF00F#16, 0x00#8, 0x00#8⟩,
   ⟨false, 0x300C#16, 0xF00F#16, 0x00#8, 0x00#8⟩, ⟨false, 0x300D#16, 0xF00F#16, 0x00#8, 0x00#8⟩,
   ⟨false, 0x300E#16, 0xF00F#16, 0x00#8, 0x00#8⟩, ⟨false, 0x300F#16, 0xF00F#16, 0x00#8, 0x00#8⟩,
   ⟨false, 0x4000#16, 0xF000#16, 0x00#8, 0x00#8⟩, ⟨false, 0x5000#16, 0xF000#16, 0x00#8, 0x00#8⟩,
   ⟨false, 0x6000#16, 0xF000#16, 0x00#8, 0x00#8⟩, ⟨false, 0x7000#16, 0xF000#16, 0x00#8, 0x00#8⟩,
   ⟨false, 0x8000#16, 0xF000#16, 0x00#8, 0x00#8⟩, ⟨false, 0x9000#16, 0xF000#16, 0x00#8, 0x00#8⟩,
   ⟨false, 0xA000#16, 0xF000#16, 0x00#8, 0x00#8⟩, ⟨false, 0xB000#16, 0xF000#16, 0x00#8, 0x00#8⟩,
   ⟨false, 0xC000#16, 0xF000#16, 0x00#8, 0x00#8⟩, ⟨false, 0xD000#16, 0xF000#16, 0x00#8, 0x00#8⟩,
   ⟨false, 0xE000#16, 0xF000#16, 0x00#8, 0x00#8⟩, ⟨false, 0xF000#16, 0xF000#16, 0x00#8, 0x00#8⟩]

/-- Rows 52 to 72: the prefixed map. -/
def tableRowsPrefixed : List TableRow :=
  [⟨true, 0x0000#16, 0xF000#16, 0x80#8, 0x80#8⟩, ⟨true, 0x0000#16, 0xF000#16, 0x00#8, 0x80#8⟩,
   ⟨true, 0x1000#16, 0xF000#16, 0x80#8, 0x80#8⟩, ⟨true, 0x1000#16, 0xF000#16, 0x00#8, 0x80#8⟩,
   ⟨true, 0x2F01#16, 0xFF01#16, 0x00#8, 0x00#8⟩, ⟨true, 0x2001#16, 0xF001#16, 0x00#8, 0x00#8⟩,
   ⟨true, 0x2700#16, 0xFF01#16, 0x00#8, 0x00#8⟩, ⟨true, 0x2000#16, 0xF001#16, 0x00#8, 0x00#8⟩,
   ⟨true, 0x3000#16, 0xF000#16, 0x00#8, 0x00#8⟩, ⟨true, 0x4000#16, 0xF000#16, 0x00#8, 0x00#8⟩,
   ⟨true, 0x5000#16, 0xF000#16, 0x00#8, 0x00#8⟩, ⟨true, 0x6000#16, 0xF000#16, 0x00#8, 0x00#8⟩,
   ⟨true, 0x7000#16, 0xF000#16, 0x00#8, 0x00#8⟩, ⟨true, 0x8000#16, 0xF000#16, 0x00#8, 0x00#8⟩,
   ⟨true, 0x9000#16, 0xF000#16, 0x00#8, 0x00#8⟩, ⟨true, 0xA000#16, 0xF000#16, 0x00#8, 0x00#8⟩,
   ⟨true, 0xB000#16, 0xF000#16, 0x00#8, 0x00#8⟩, ⟨true, 0xC000#16, 0xF000#16, 0x00#8, 0x00#8⟩,
   ⟨true, 0xD000#16, 0xF000#16, 0x00#8, 0x00#8⟩, ⟨true, 0xE000#16, 0xF000#16, 0x00#8, 0x00#8⟩,
   ⟨true, 0xF000#16, 0xF000#16, 0x00#8, 0x00#8⟩]

/-- The 73 rows of spec/opcode_table.json in their order, which is most specific first (R69). -/
def tableRows : List TableRow := tableRowsShort ++ tableRowsAlu ++ tableRowsPrefixed

/-- The index of the row an instruction stands for. -/
def rowOf : Instr → Nat
  | .ret => 0 | .retCli => 1 | .retSti => 2 | .retFlag _ _ _ _ => 3 | .popFlag => 4 | .popReg _ => 5
  | .ldm _ _ _ => 6 | .pushFlag => 7 | .pushReg _ => 8 | .rsv2 _ _ => 9 | .stm _ _ _ => 10 | .pfx _ => 11
  | .bcc _ _ => 12 | .nop => 13 | .clc => 14 | .stc => 15 | .clz => 16 | .stz => 17 | .cli => 18 | .sti => 19
  | .flagop _ _ _ _ => 20 | .rsv1 _ _ => 21 | .asr _ => 22 | .shr _ => 23 | .rsv4 _ _ => 24 | .jcc _ _ => 25
  | .jsr _ => 26 | .rsv3 _ _ => 27 | .andRR _ _ => 28 | .orRR _ _ => 29 | .xorRR _ _ => 30 | .movRR _ _ => 31
  | .addRR _ _ => 32 | .subRR _ _ => 33 | .adcRR _ _ => 34 | .sbcRR _ _ => 35 | .tstRR _ _ => 36
  | .cmpRR _ _ => 37 | .mltRR _ _ => 38 | .mlhRR _ _ => 39 | .andI8 _ _ => 40 | .orI8 _ _ => 41
  | .xorI8 _ _ => 42 | .movI8 _ _ => 43 | .addI8 _ _ => 44 | .subI8 _ _ => 45 | .adcI8 _ _ => 46
  | .sbcI8 _ _ => 47 | .tstI8 _ _ => 48 | .cmpI8 _ _ => 49 | .mltI8 _ _ => 50 | .mlhI8 _ _ => 51
  | .ldmb _ _ _ => 52 | .ldmw _ _ _ => 53 | .stmb _ _ _ => 54 | .stmw _ _ _ => 55 | .jsrAbs _ => 56
  | .rsv6 _ _ _ => 57 | .rsv7 _ _ => 58 | .jccAbs _ _ => 59 | .rsv5 _ _ => 60 | .andI16 _ _ => 61
  | .orI16 _ _ => 62 | .xorI16 _ _ => 63 | .movI16 _ _ => 64 | .addI16 _ _ => 65 | .subI16 _ _ => 66
  | .adcI16 _ _ => 67 | .sbcI16 _ _ => 68 | .tstI16 _ _ => 69 | .cmpI16 _ _ => 70 | .mltI16 _ _ => 71
  | .mlhI16 _ _ => 72

/-- The first row that matches, as the table's convention says (spec/30_encoding.md R69). -/
def firstRow (pending : Option Byte) (w : Word) : Option Nat :=
  tableRows.findIdx? fun r => r.matches pending w

end Sys2Proof.Claims

open Sys2Proof Sys2Proof.Machine Sys2Proof.Claims

/-! ### Reset -/

/-- R23, R200: what the spec fixes of the state right after reset: PC is the word at address 0 less its bit 0, IF and
`pfx_valid` are 0 (the spec's own decision D13). Of the values the model chose nothing is said. -/
def Obligations.ResetStateHasTheSpecValues : Prop :=
  State.reset.pc = State.reset.wordAt 0#16 &&& 0xFFFE#16 ∧ State.reset.flags.IF = false
    ∧ State.reset.pfxValid = false

/-- R200: reset loads PC from word 0, clears IF and drops a pending prefix (the spec's own decision D13); it stores
nothing. That it leaves the build and the input alone is the model's choice (logs 4, 8, 23). -/
def Obligations.ResetSequenceLoadsPcFromWordZero : Prop :=
  ∀ s : State, s.wordOk 0#16 = true →
    ∃ t, s.takeReset = .next t ∧ t.pc = s.wordAt 0#16 &&& 0xFFFE#16 ∧ t.flags.IF = false ∧ t.pfxValid = false
      ∧ (∀ a : Nat, t.byteAt a = s.byteAt a) ∧ t.build = s.build ∧ t.ivectors = s.ivectors

/-- The invariant holds right after reset: PC is even (R13). The other clauses rest on the model's choices: nothing is
listed in memory and its canonical form (log 3), nothing in the record of stores (log 11), and State.reset's build, which
R4 admits (logs 4, 20). -/
def Obligations.ResetSatisfiesTheMachineInvariant : Prop := State.reset.Inv

/-- R13, R34, R42: PC stays even, memory and the record of stores stay in canonical form (the forms are the model's,
logs 3, 11), and the build stays one R4 admits (log 4). -/
def Obligations.EveryStepKeepsTheMachineInvariant : Prop :=
  ∀ s t : State, s.Inv → step s = .next t → t.Inv

/-! ### Encoding -/

/-- R52, R63: decoding the words of a well-formed instruction gives it back, in every build. -/
def Obligations.DecodeOfEncodeIsTheInstruction : Prop :=
  ∀ (c : Config) (i : Instr), i.wf c = true → decodeWords c (encode c i) = .ok i

/-- R63: what the decoder delivers is a well-formed instruction of the build. -/
def Obligations.DecodedInstructionIsWellFormed : Prop :=
  ∀ (c : Config) (p : Option Byte) (w : Word) (i : Instr), decode c p w = .ok i → i.wf c = true

/-- R52, R64: outside the formats with don't-care bits, no bit of a word is lost in decoding. -/
def Obligations.EncodeOfDecodeIsTheWord : Prop :=
  ∀ (c : Config) (p : Option Byte) (w : Word) (i : Instr), decode c p w = .ok i →
    (match i with
      | .ret | .retCli | .retSti | .retFlag _ _ _ _ | .popReg _ | .popFlag | .pushReg _ | .pushFlag | .nop => False
      | _ => True) →
    encode c i = (match p with | none => [w] | some q => [0x27#8 ++ q, w])

/-- R64: bits 3:1 of RET, POP and PUSH are ignored. -/
def Obligations.DontCareBitsAreIgnored : Prop :=
  ∀ (c : Config) (b : Nibble) (x y : BitVec 3) (k : BitVec 1),
    decode c none (0x0F#8 ++ b ++ x ++ k) = decode c none (0x0F#8 ++ b ++ y ++ k) ∧
    decode c none (0x1F#8 ++ b ++ x ++ 1#1) = decode c none (0x1F#8 ++ b ++ y ++ 1#1)

/-- R63, R69: in the standard build, decoding agrees with the first matching row of the opcode table on every word. That
every word decodes there rests on the model's choice of a build with all four units (log 20). -/
def Obligations.DecodeAgreesWithTheOpcodeTable : Prop :=
  ∀ (p : Option Byte) (w : Word),
    ∃ i, decode Config.standard p w = .ok i ∧ firstRow p w = some (rowOf i)

/-- R63, R66: the decoder refuses a word exactly when it is an instruction of a unit the build lacks, and names the unit:
the shift group, FN 1110, FN 1111, the byte loads and stores. That such a word is reserved is the spec's own decision D22;
that the decoder refuses it under the unit's name, where R63 says RESERVED, is the model's form (log 30). -/
def Obligations.DecodeRefusesExactlyAbsentUnits : Prop :=
  ∀ (c : Config) (p : Option Byte) (w : Word),
    ∃ i, decode { c with hasShift := true, hasMlt := true, hasMlh := true, hasByte := true } p w = .ok i ∧
      ((∀ u, NeedsUnit i u → c.has u = true) → decode c p w = .ok i) ∧
      (∀ u, NeedsUnit i u → c.has u = false → decode c p w = .error (.absentUnit u))

/-- Words the spec's examples write out (spec/95_test_vectors.md section 2.1) decode to what they stand for. -/
def Obligations.SampleWordsDecode : Prop :=
  decode Config.standard none 0x3F90#16 = .ok .sti ∧
  decode Config.standard none 0x29FD#16 = .ok (.bcc .ne 0xFD#8) ∧
  decode Config.standard none 0x0E5F#16 = .ok (.ldm .r5 .r14 0xF#4) ∧
  decode Config.standard none 0x1FE1#16 = .ok (.pushReg .r14) ∧
  decode Config.standard none 0x3011#16 = .ok (.shr .r0) ∧
  decode Config.standard (some 0x02#8) 0x1F40#16 = .ok (.stmw .r15 0x020#11 .r4) ∧
  decode Config.standard (some 0x12#8) 0xB134#16 = .ok (.sbcI16 .r1 0x1234#16) ∧
  decode Config.standard (some 0x01#8) 0x2F21#16 = .ok (.jsrAbs 0x0120#16)

/-! ### The step and the interrupt -/

/-- R198: where no interrupt is accepted, a step runs the instruction the bytes at PC decode to. That the instruction
runs on the state with the boundary's sample consumed and its cycles counted is the model's choice (logs 21, 24). -/
def Obligations.StepRunsTheDecodedInstruction : Prop :=
  ∀ (s : State) (i : Instr), s.accepts = false → CanFetch s s.pc →
    decode s.build (if s.pfxValid then some s.pfx else none) (s.wordAt s.pc) = .ok i →
    step s = exec i { s with ivectors := s.ivectors.tail, cycles := s.cycles + instrCycles i }

/-- R182: a request is accepted exactly when IF is set and no prefix is pending; under `IACK_ON_ZERO_PREFIX` a pending
payload of 0 does not hold it off (the spec's own decisions D14, D23, D29). The request is the head of the model's list
of samples (log 8). -/
def Obligations.InterruptAcceptanceCondition : Prop :=
  ∀ s : State,
    (s.build.iackOnZeroPrefix = false →
      (s.accepts = true ↔ s.ivectors.headD 0#6 ≠ 0#6 ∧ s.flags.IF = true ∧ s.pfxValid = false)) ∧
    (s.build.iackOnZeroPrefix = true →
      (s.accepts = true ↔ s.ivectors.headD 0#6 ≠ 0#6 ∧ s.flags.IF = true ∧ (s.pfxValid = false ∨ s.pfx = 0#8)))

/-- R183: an accepted request clears IF, pushes PC, and goes to the vector's table entry; nothing else changes (which PC
is pushed and that the vector is read once are the spec's own decisions D7, D14; the consumed sample and the two counted
cycles are the model's, logs 21, 24). -/
def Obligations.AcceptedInterruptEntersTheHandler : Prop :=
  ∀ s : State, s.accepts = true → s.wordOk s.pushAddr = true →
    s.wordOk (BitVec.ofNat 16 (2 * (s.ivectors.headD 0#6).toNat)) = true →
    ∃ t, step s = .next t ∧ t.flags = { s.flags with IF := false } ∧ Pushes s.pc s t ∧
      t.pc = t.wordAt (BitVec.ofNat 16 (2 * (s.ivectors.headD 0#6).toNat)) &&& 0xFFFE#16 ∧
      t.pfxValid = false ∧ t.pfx = s.pfx ∧ t.build = s.build ∧ t.ivectors = s.ivectors.tail ∧ t.cycles = s.cycles + 2

/-- R187: RET STI, with R15 and the stack word as the handler was entered with, resumes the interrupted program with
interrupts enabled. -/
def Obligations.RetStiResumesTheInterruptedProgram : Prop :=
  ∀ (s t u : State) (v : BitVec 6), isOdd s.pc = false → s.iack v = .next t →
    u.build = t.build → u.reg .r15 = t.reg .r15 → u.wordAt (t.reg .r15) = t.wordAt (t.reg .r15) →
    ∃ w, exec .retSti u = .next w ∧ w.pc = s.pc ∧ w.reg .r15 = s.reg .r15 ∧ w.flags = { u.flags with IF := true }
      ∧ SameRegsBut [.r15] u w ∧ SameMem u w

/-- R154, R182, R208: a prefix word and its second word run back to back, whatever `ivector` shows between them, unless
`IACK_ON_ZERO_PREFIX` is on (the spec's own decision D23). That they are two steps, each consuming a sample, is the model's
choice (logs 21, 25). -/
def Obligations.TwoWordInstructionIsNotInterrupted : Prop :=
  ∀ (s : State) (p : Byte) (i : Instr), s.build.iackOnZeroPrefix = false → s.accepts = false → s.pfxValid = false →
    CanFetch s s.pc → CanFetch s (s.pc + 2#16) → s.wordAt s.pc = 0x27#8 ++ p →
    decode s.build (some p) (s.wordAt (s.pc + 2#16)) = .ok i →
    ∃ t, step s = .next t ∧ t.pc = s.pc + 2#16 ∧ t.pfxValid = true ∧ t.pfx = p ∧ t.regs = s.regs ∧ t.flags = s.flags
      ∧ t.mem = s.mem ∧ t.accepts = false
      ∧ step t = exec i { t with ivectors := t.ivectors.tail, cycles := t.cycles + instrCycles i }

/-- R18, R88, R99: an instruction changes IF only if it is CLI, STI, RET CLI, RET STI, or a flag operation or RET that
selects IF (the last two by the spec's own decision D19, log 27). -/
def Obligations.OnlyFlagOperationsChangeIF : Prop :=
  ∀ (i : Instr) (s t : State), exec i s = .next t → t.flags.IF ≠ s.flags.IF →
    i = .cli ∨ i = .sti ∨ i = .retCli ∨ i = .retSti ∨ (∃ z c d, i = .flagop true z c d)
      ∨ (∃ z c d, i = .retFlag true z c d)

/-- R32: no instruction but STM STMW STMB PUSH JSR changes memory, or the model's record of stores (log 11). -/
def Obligations.OnlyStoringInstructionsChangeMemory : Prop :=
  ∀ (i : Instr) (s t : State), exec i s = .next t →
    (match i with
      | .stm _ _ _ | .stmw _ _ _ | .stmb _ _ _ | .pushReg _ | .pushFlag | .jsr _ | .jsrAbs _ => False
      | _ => True) →
    SameMem s t

/-- R42: every byte a step changes, or has stored to before, stands in the model's record of stores (log 11). -/
def Obligations.EveryChangedByteIsRecordedAsStored : Prop :=
  ∀ s t : State, step s = .next t →
    (∀ a : Nat, a ∈ s.written → a ∈ t.written) ∧ (∀ a : Nat, t.byteAt a ≠ s.byteAt a → a ∈ t.written)

/-- R42: the fetch of a word this run has stored to is refused or reads the current memory, as the build says (the spec's
own decision D17; log 11). -/
def Obligations.FetchOfStoredCodeFollowsTheParameter : Prop :=
  ∀ s : State, s.accepts = false → s.wordOk s.pc = true →
    (s.pc.toNat ∈ s.written ∨ s.pc.toNat + 1 ∈ s.written) →
    (s.build.fetchSeesStores = .refuse → step s = .refused .fetchOfModifiedCode) ∧
    (s.build.fetchSeesStores = .immediately → s.fetchWord = .next (s.wordAt s.pc))

/-- R181, R198, R211: a step leaves the build alone, consumes one sample of `ivector`, and neither the cycle count nor
the count of free values drawn goes back. All four are the model's own fields (logs 4, 5, 21, 24). -/
def Obligations.EveryStepConsumesOneSample : Prop :=
  ∀ s t : State, step s = .next t →
    t.build = s.build ∧ t.ivectors = s.ivectors.tail ∧ s.cycles ≤ t.cycles ∧ s.freeCount ≤ t.freeCount

/-- R210: the CYC column, of whole instructions with their prefix word. -/
def Obligations.CycleCountsAreTheTable : Prop :=
  (∀ i ∈ ([.nop, .clc, .stc, .clz, .stz, .cli, .sti] : List Instr), totalCycles i = 1) ∧
  (∀ (k : Cond) (r : Byte) (q : Reg), totalCycles (.bcc k r) = 1 ∧ totalCycles (.jcc k q) = 1) ∧
  (∀ (q : Reg) (k : Cond) (a : Word),
    totalCycles (.jsr q) = 2 ∧ totalCycles (.jccAbs k a) = 2 ∧ totalCycles (.jsrAbs a) = 3) ∧
  (∀ i ∈ ([.ret, .retCli, .retSti, .pushFlag, .popFlag] : List Instr), totalCycles i = 2) ∧
  (∀ q : Reg, totalCycles (.pushReg q) = 2 ∧ totalCycles (.popReg q) = 2 ∧ totalCycles (.shr q) = 1
    ∧ totalCycles (.asr q) = 1) ∧
  (∀ (d b : Reg) (p : Nibble), totalCycles (.ldm d b p) = 2 ∧ totalCycles (.stm b p d) = 2) ∧
  (∀ (d b : Reg) (x : BitVec 11), totalCycles (.ldmw d b x) = 3 ∧ totalCycles (.stmw b x d) = 3
    ∧ totalCycles (.ldmb d b x) = 3 ∧ totalCycles (.stmb b x d) = 3) ∧
  (∀ (ra : Reg) (b : AluOperand),
    ∀ f ∈ [andOf, orOf, xorOf, movOf, addOf, adcOf, subOf, sbcOf, mltOf, mlhOf, tstOf, cmpOf],
      totalCycles (f ra b) = (match b with | .word _ => 2 | _ => 1)) ∧
  iackCycles = 2

/-- R203: a run that has ended stays where it is: each step answers the same registers, flags, memory and PC (the
convention is the spec's own decision D31; the consumed sample and the counted cycle are the model's, logs 21, 24, 33). -/
def Obligations.EndedRunStaysEnded : Prop :=
  ∀ s : State, s.Ended → ∃ t, step s = .next t ∧ t.Ended ∧ t.pc = s.pc ∧ OnlyPc { s with
    ivectors := s.ivectors.tail, cycles := s.cycles + 1 } t

/-! ### Flag operations -/

/-- R80 to R85: NOP changes PC alone; CLC STC CLZ STZ write their one flag with FD. -/
def Obligations.CarryAndZeroFlagInstructions : Prop :=
  ∀ s : State,
    (∃ t, exec .nop s = .next t ∧ PcNext s t ∧ OnlyPc s t) ∧
    (∃ t, exec .clc s = .next t ∧ PcNext s t ∧ OnlyPc { s with flags := { s.flags with CF := false } } t) ∧
    (∃ t, exec .stc s = .next t ∧ PcNext s t ∧ OnlyPc { s with flags := { s.flags with CF := true } } t) ∧
    (∃ t, exec .clz s = .next t ∧ PcNext s t ∧ OnlyPc { s with flags := { s.flags with ZF := false } } t) ∧
    (∃ t, exec .stz s = .next t ∧ PcNext s t ∧ OnlyPc { s with flags := { s.flags with ZF := true } } t)

/-- R86, R87: CLI and STI write IF, and the new value governs the very next boundary (the spec's own decision D14). -/
def Obligations.InterruptEnableInstructions : Prop :=
  ∀ s : State,
    (∃ t, exec .cli s = .next t ∧ PcNext s t ∧ OnlyPc { s with flags := { s.flags with IF := false } } t
      ∧ t.accepts = false) ∧
    (∃ t, exec .sti s = .next t ∧ PcNext s t ∧ OnlyPc { s with flags := { s.flags with IF := true } } t
      ∧ (s.pfxValid = false → (t.accepts = true ↔ s.ivectors.headD 0#6 ≠ 0#6)))

/-- R80, R88: in a flag operation with several select bits every selected flag receives FD, and no other flag changes
(the spec's own decision D19, log 27). -/
def Obligations.EverySelectedFlagReceivesFD : Prop :=
  ∀ (s : State) (i z c d : Bool), ∃ t, exec (.flagop i z c d) s = .next t ∧ PcNext s t ∧
    OnlyPc { s with flags := { s.flags with
      IF := if i then d else s.flags.IF, ZF := if z then d else s.flags.ZF, CF := if c then d else s.flags.CF } } t

/-! ### Branches, jumps, calls, returns -/

/-- R90: the condition function (the corrected table is the spec's own decision D6). Codes 100 and its inversion are R90's
under `SUB_CARRY = borrow`; how they read CF under `not_borrow` is R91's own construction (log 12). -/
def Obligations.ConditionFunctionIsTheTable : Prop :=
  ∀ f : Flags,
    (∀ k : SubCarry,
      condHolds k f .cs = f.CF ∧ condHolds k f .cc = !f.CF ∧
      condHolds k f .eq = f.ZF ∧ condHolds k f .ne = !f.ZF ∧
      condHolds k f .vs = f.VF ∧ condHolds k f .vc = !f.VF ∧
      condHolds k f .mi = f.NF ∧ condHolds k f .pl = !f.NF ∧
      condHolds k f .lt = (f.NF ^^ f.VF) ∧ condHolds k f .ge = !(f.NF ^^ f.VF) ∧
      condHolds k f .le = ((f.NF ^^ f.VF) || f.ZF) ∧ condHolds k f .gt = !((f.NF ^^ f.VF) || f.ZF) ∧
      condHolds k f .never = false ∧ condHolds k f .always = true) ∧
    condHolds .borrow f .ls = (f.ZF || f.CF) ∧ condHolds .borrow f .hi = !(f.ZF || f.CF) ∧
    condHolds .notBorrow f .ls = (f.ZF || !f.CF) ∧ condHolds .notBorrow f .hi = !(f.ZF || !f.CF)

/-- R91: what each condition says of A and B after CMP A,B, in every operand form and under both carry senses (the spec's
own decisions D1, D6; how LS and HI read CF under `not_borrow` is R91's own construction, log 12). -/
def Obligations.ConditionsAfterCompare : Prop :=
  ∀ (s : State) (ra : Reg) (b : AluOperand), ∃ t, exec (cmpOf ra b) s = .next t ∧
    (t.holds .eq = true ↔ s.reg ra = b.value s) ∧ (t.holds .ne = true ↔ s.reg ra ≠ b.value s) ∧
    (t.holds .ls = true ↔ (s.reg ra).toNat ≤ (b.value s).toNat) ∧
    (t.holds .hi = true ↔ (b.value s).toNat < (s.reg ra).toNat) ∧
    (t.holds .lt = true ↔ (s.reg ra).toInt < (b.value s).toInt) ∧
    (t.holds .ge = true ↔ (b.value s).toInt ≤ (s.reg ra).toInt) ∧
    (t.holds .le = true ↔ (s.reg ra).toInt ≤ (b.value s).toInt) ∧
    (t.holds .gt = true ↔ (b.value s).toInt < (s.reg ra).toInt) ∧
    (t.holds .vs = true ↔ OutOfRange ((s.reg ra).toInt - (b.value s).toInt)) ∧
    (t.holds .vc = true ↔ ¬ OutOfRange ((s.reg ra).toInt - (b.value s).toInt)) ∧
    (t.holds .mi = true ↔ (s.reg ra - b.value s).getLsbD 15 = true) ∧
    (t.holds .pl = true ↔ (s.reg ra - b.value s).getLsbD 15 = false) ∧
    t.holds .never = false ∧ t.holds .always = true ∧
    (s.build.subCarry = .borrow →
      (t.holds .cs = true ↔ (s.reg ra).toNat < (b.value s).toNat) ∧
      (t.holds .cc = true ↔ (b.value s).toNat ≤ (s.reg ra).toNat)) ∧
    (s.build.subCarry = .notBorrow →
      (t.holds .cs = true ↔ (b.value s).toNat ≤ (s.reg ra).toNat) ∧
      (t.holds .cc = true ↔ (s.reg ra).toNat < (b.value s).toNat))

/-- R93: B<cc> goes to the address of the branch word plus `REL_BASE` plus twice the signed REL, or to the next word (the
base is the spec's own decision D7, log 14). -/
def Obligations.RelativeBranch : Prop :=
  ∀ (s : State) (k : Cond) (rel : Byte), ∃ t, exec (.bcc k rel) s = .next t ∧ OnlyPc s t ∧
    (s.holds k = false → PcNext s t) ∧
    (s.holds k = true → t.pc = (s.pc + (match s.build.relBase with | .zero => 0#16 | .two => 2#16 | .four => 4#16)
      + 2#16 * rel.signExtend 16) &&& 0xFFFE#16)

/-- R94, R100: J<cc> goes to the register's value with bit 0 dropped, or to the absolute address, or to the next word;
the absolute form uses the prefix up. Code 0111 never jumps (R67). -/
def Obligations.JumpsGoToTheirTarget : Prop :=
  ∀ (s : State) (k : Cond),
    (∀ rb : Reg, ∃ t, exec (.jcc k rb) s = .next t ∧ OnlyPc s t ∧
      (s.holds k = false → PcNext s t) ∧ (s.holds k = true → t.pc = s.reg rb &&& 0xFFFE#16)) ∧
    (∀ target : Word, isOdd target = false →
      ∃ t, exec (.jccAbs k target) s = .next t ∧ OnlyPc { s with pfxValid := false } t ∧
      (s.holds k = false → PcNext s t) ∧ (s.holds k = true → t.pc = target))

/-- R95, R101: JSR pushes the address of the next word and goes to the register's old value (for JSR R15 the spec's own
decision D21), or to the absolute address. -/
def Obligations.CallsPushTheReturnAddress : Prop :=
  ∀ s : State, s.wordOk s.pushAddr = true →
    (∀ rb : Reg, ∃ t, exec (.jsr rb) s = .next t ∧ Pushes (s.pc + 2#16) s t ∧ t.pc = s.reg rb &&& 0xFFFE#16
      ∧ t.flags = s.flags ∧ SamePrefix s t ∧ SameModel s t) ∧
    (∀ target : Word, isOdd target = false →
      ∃ t, exec (.jsrAbs target) s = .next t ∧ Pushes (s.pc + 2#16) s t ∧ t.pc = target
      ∧ t.flags = s.flags ∧ PrefixUsed s t ∧ SameModel s t)

/-- R96 to R99: RET pops PC with bit 0 dropped and applies its flag operation (for RET with another selection than the
instruction list names, the spec's own decision D19, log 27). -/
def Obligations.ReturnsPopPcAndApplyTheFlagOperation : Prop :=
  ∀ (s : State) (i z c d : Bool), s.wordOk (s.reg .r15) = true →
    ∀ e ∈ [(Instr.ret, s.flags), (.retCli, { s.flags with IF := false }), (.retSti, { s.flags with IF := true }),
        (.retFlag i z c d, { s.flags with
          IF := if i then d else s.flags.IF, ZF := if z then d else s.flags.ZF, CF := if c then d else s.flags.CF })],
      ∃ t, exec e.1 s = .next t ∧ t.pc = s.wordAt (s.reg .r15) &&& 0xFFFE#16
        ∧ t.reg .r15 = s.reg .r15 + 2#16 ∧ SameRegsBut [.r15] s t ∧ t.flags = e.2
        ∧ SamePrefix s t ∧ SameMem s t ∧ SameModel s t

/-- R95, R96, R103: RET straight after JSR Rb comes back behind the call with R15 as it was. -/
def Obligations.ReturnComesBackBehindTheCall : Prop :=
  ∀ (s t : State) (rb : Reg), isOdd s.pc = false → exec (.jsr rb) s = .next t →
    ∃ u, exec .ret t = .next u ∧ u.pc = s.pc + 2#16 ∧ (∀ r, u.reg r = s.reg r) ∧ u.flags = s.flags

/-! ### Stack -/

/-- R110, R111: PUSH stores Rn, or a word whose low five bits are IF NF VF ZF CF (the other eleven are unspecified and
nothing is said of them, log 7), at R15 less 2; no flag changes. -/
def Obligations.PushStoresItsOperand : Prop :=
  ∀ s : State, s.wordOk s.pushAddr = true →
    (∀ n : Reg, n ≠ .r15 → ∃ t, exec (.pushReg n) s = .next t ∧ Pushes (s.reg n) s t ∧ PcNext s t ∧ t.flags = s.flags
      ∧ SamePrefix s t ∧ SameModel s t) ∧
    (∃ (t : State) (v : Word), exec .pushFlag s = .next t ∧ FlagImage s v ∧ Pushes v s t ∧ PcNext s t
      ∧ t.flags = s.flags ∧ SamePrefix s t ∧ SameModel s t)

/-- R112, R113: POP loads Rn from R15 and adds 2 to R15, and changes no flag; POP FLAG takes NF VF ZF CF from the popped
word and leaves IF. -/
def Obligations.PopLoadsItsOperand : Prop :=
  ∀ s : State, s.wordOk (s.reg .r15) = true →
    (∀ n : Reg, n ≠ .r15 → ∃ t, exec (.popReg n) s = .next t ∧ t.reg n = s.wordAt (s.reg .r15)
      ∧ t.reg .r15 = s.reg .r15 + 2#16 ∧ SameRegsBut [n, .r15] s t ∧ t.flags = s.flags
      ∧ PcNext s t ∧ SamePrefix s t ∧ SameMem s t ∧ SameModel s t) ∧
    (∃ t, exec .popFlag s = .next t ∧ FlagsFrom (s.wordAt (s.reg .r15)) s t
      ∧ t.reg .r15 = s.reg .r15 + 2#16 ∧ SameRegsBut [.r15] s t
      ∧ PcNext s t ∧ SamePrefix s t ∧ SameMem s t ∧ SameModel s t)

/-- R114, R111, R113: POP Rm after PUSH Rn brings the pushed value back and R15 as it was; POP FLAG after PUSH FLAG, with
R15 and the stack word untouched, restores the four arithmetic flags, whatever they became in between. -/
def Obligations.PopUndoesPush : Prop :=
  (∀ (s t : State) (n m : Reg), n ≠ .r15 → m ≠ .r15 → exec (.pushReg n) s = .next t →
    ∃ u, exec (.popReg m) t = .next u ∧ u.reg m = s.reg n ∧ u.reg .r15 = s.reg .r15 ∧ SameRegsBut [m] s u
      ∧ u.flags = s.flags) ∧
  (∀ (s t u : State), exec .pushFlag s = .next t → u.build = t.build → u.reg .r15 = t.reg .r15 →
    u.wordAt (t.reg .r15) = t.wordAt (t.reg .r15) →
    ∃ w, exec .popFlag u = .next w ∧ w.flags = { s.flags with IF := u.flags.IF } ∧ w.reg .r15 = s.reg .r15)

/-! ### Memory -/

/-- R33, R34, R37: which byte of a word stands at the even address, and what a misaligned word access does (the spec's own
decisions D8, D9; logs 9, 13). That an odd address outside the map is refused as misaligned, where R38 gives the other
refusal, is the model's choice: alignment is looked at first (log 10). -/
def Obligations.WordAccessFollowsTheByteOrder : Prop :=
  ∀ (s : State) (a v : Word),
    (isOdd a = true → s.readWord a = .refused .misalignedWordAccess ∧
      s.writeWord a v = .refused .misalignedWordAccess) ∧
    (s.wordOk a = true →
      (s.build.byteOrder = .little → s.readWord a = .next (s.byteAt (a.toNat + 1) ++ s.byteAt a.toNat)) ∧
      (s.build.byteOrder = .big → s.readWord a = .next (s.byteAt a.toNat ++ s.byteAt (a.toNat + 1))) ∧
      ∃ t, s.writeWord a v = .next t ∧ SameMemBut a 2 s t ∧
        (s.build.byteOrder = .little →
          t.byteAt a.toNat = v.extractLsb' 0 8 ∧ t.byteAt (a.toNat + 1) = v.extractLsb' 8 8) ∧
        (s.build.byteOrder = .big →
          t.byteAt a.toNat = v.extractLsb' 8 8 ∧ t.byteAt (a.toNat + 1) = v.extractLsb' 0 8))

/-- R35: a byte access at any mapped address, odd or even, reads or sets that byte alone. -/
def Obligations.ByteAccessTouchesOneByte : Prop :=
  ∀ (s : State) (a : Word) (v : Byte), s.byteOk a = true →
    s.readByte a = .next (s.byteAt a.toNat) ∧
    ∃ t, s.writeByte a v = .next t ∧ t.byteAt a.toNat = v ∧ SameMemBut a 1 s t

/-- R131, R132, R45, R58: effective addresses, as numbers modulo 2^16, and the fields of the words they are built from:
base 0 to 14 and an unsigned even displacement in one word; any base and a signed 11-bit displacement in two, where payload
bit 7 selects the width. Every two-word form clears `pfx_valid`. -/
def Obligations.EffectiveAddressesOfLoadsAndStores : Prop :=
  (∀ (s : State) (base : Reg) (p : Nibble) (disp : BitVec 11),
    (s.shortAddr base p).toNat = ((s.reg base).toNat + 2 * p.toNat) % 65536 ∧
    ((s.longAddr base disp).toNat : Int) = (((s.reg base).toNat : Int) + disp.toInt) % 65536 ∧
    -1024 ≤ disp.toInt ∧ disp.toInt ≤ 1023) ∧
  (∀ (c : Config) (b d p : Nibble), b ≠ 0xF#4 →
    decode c none (0x0#4 ++ b ++ d ++ p) = .ok (.ldm (Reg.ofBits d) (Reg.ofBits b) p) ∧
    decode c none (0x1#4 ++ b ++ d ++ p) = .ok (.stm (Reg.ofBits b) p (Reg.ofBits d))) ∧
  (∀ (c : Config) (q : Byte) (b d p : Nibble) (disp : BitVec 11),
    disp = q.extractLsb' 1 6 ++ p ++ q.extractLsb' 0 1 →
    (q.getLsbD 7 = false →
      decode c (some q) (0x0#4 ++ b ++ d ++ p) = .ok (.ldmw (Reg.ofBits d) (Reg.ofBits b) disp) ∧
      decode c (some q) (0x1#4 ++ b ++ d ++ p) = .ok (.stmw (Reg.ofBits b) disp (Reg.ofBits d))) ∧
    (q.getLsbD 7 = true → c.hasByte = true →
      decode c (some q) (0x0#4 ++ b ++ d ++ p) = .ok (.ldmb (Reg.ofBits d) (Reg.ofBits b) disp) ∧
      decode c (some q) (0x1#4 ++ b ++ d ++ p) = .ok (.stmb (Reg.ofBits b) disp (Reg.ofBits d)))) ∧
  (∀ (s t : State) (data base : Reg) (disp : BitVec 11),
    ∀ i ∈ ([.ldmw data base disp, .stmw base disp data, .ldmb data base disp, .stmb base disp data] : List Instr),
      exec i s = .next t → t.pfxValid = false)

/-- R133, R135: LDM and LDMW load the word at their effective address. Where the build reads data code 15 as FLAG (R130),
that the load then acts as POP FLAG is the model's reading (log 17). -/
def Obligations.WordLoads : Prop :=
  ∀ (s : State) (data base : Reg),
    (∀ p : Nibble, base ≠ .r15 → s.wordOk (s.shortAddr base p) = true →
      ∃ t, exec (.ldm data base p) s = .next t ∧ Loads data (s.wordAt (s.shortAddr base p)) s t ∧ SamePrefix s t) ∧
    (∀ disp : BitVec 11, s.wordOk (s.longAddr base disp) = true →
      ∃ t, exec (.ldmw data base disp) s = .next t ∧ Loads data (s.wordAt (s.longAddr base disp)) s t
        ∧ PrefixUsed s t)

/-- R134, R136: STM and STMW store the data register's word at their effective address. Where the build reads data code
15 as FLAG (R130), that the store then acts as PUSH FLAG is the model's reading (log 17). -/
def Obligations.WordStores : Prop :=
  ∀ (s : State) (data base : Reg),
    (∀ p : Nibble, base ≠ .r15 → s.wordOk (s.shortAddr base p) = true →
      ∃ t, exec (.stm base p data) s = .next t ∧ StoresOnly (s.shortAddr base p) 2 s t ∧ StoreFrame s t
        ∧ SamePrefix s t
        ∧ (¬ NamesFlag s data → t.wordAt (s.shortAddr base p) = s.reg data)
        ∧ (NamesFlag s data → FlagImage s (t.wordAt (s.shortAddr base p)))) ∧
    (∀ disp : BitVec 11, s.wordOk (s.longAddr base disp) = true →
      ∃ t, exec (.stmw base disp data) s = .next t ∧ StoresOnly (s.longAddr base disp) 2 s t ∧ StoreFrame s t
        ∧ PrefixUsed s t
        ∧ (¬ NamesFlag s data → t.wordAt (s.longAddr base disp) = s.reg data)
        ∧ (NamesFlag s data → FlagImage s (t.wordAt (s.longAddr base disp))))

/-- R137, R138: LDMB replaces the low byte of the data register and keeps the high byte; STMB stores the low byte and no
other byte. Where the build reads data code 15 as FLAG (R130), what a byte of FLAG is is the model's reading (log 17). -/
def Obligations.ByteLoadsAndStores : Prop :=
  ∀ (s : State) (data base : Reg) (disp : BitVec 11), s.build.hasByte = true →
    s.byteOk (s.longAddr base disp) = true →
    (∃ t, exec (.ldmb data base disp) s = .next t ∧ PrefixUsed s t ∧
      Loads data ((s.reg data).extractLsb' 8 8 ++ s.byteAt (s.longAddr base disp).toNat) s t) ∧
    (∃ t, exec (.stmb base disp data) s = .next t ∧ StoresOnly (s.longAddr base disp) 1 s t ∧ StoreFrame s t
      ∧ PrefixUsed s t
      ∧ (¬ NamesFlag s data → t.byteAt (s.longAddr base disp).toNat = (s.reg data).extractLsb' 0 8)
      ∧ (NamesFlag s data → ∃ w, FlagImage s w ∧ t.byteAt (s.longAddr base disp).toNat = w.extractLsb' 0 8))

/-- R37: every 16-bit access at an odd address is refused: loads, stores, pushes, pops, calls, returns and the
interrupt push (the spec's own decision D9). That the refusal comes before any other stop is the model's choice (log 10). -/
def Obligations.MisalignedWordAccessIsRefused : Prop :=
  ∀ (s : State) (data base : Reg) (p : Nibble) (disp : BitVec 11) (target : Word),
    (isOdd (s.shortAddr base p) = true →
      exec (.ldm data base p) s = .refused .misalignedWordAccess ∧
      exec (.stm base p data) s = .refused .misalignedWordAccess) ∧
    (isOdd (s.longAddr base disp) = true →
      exec (.ldmw data base disp) s = .refused .misalignedWordAccess ∧
      exec (.stmw base disp data) s = .refused .misalignedWordAccess) ∧
    (isOdd (s.reg .r15) = true →
      (∀ i ∈ ([.pushReg data, .pushFlag, .popReg data, .popFlag, .ret, .retCli, .retSti, .jsr base,
        .jsrAbs target] : List Instr), exec i s = .refused .misalignedWordAccess) ∧
      (∀ i z c d : Bool, exec (.retFlag i z c d) s = .refused .misalignedWordAccess) ∧
      (∀ v : BitVec 6, s.iack v = .refused .misalignedWordAccess))

/-- R38: an access outside the platform's memory map is refused, as `REFUSE(unmapped address)` says: loads, stores,
pushes, pops, calls, returns, the two accesses of the acknowledge sequence, the fetch and the reset read (the spec's own
decision D25). That alignment is looked at first is the model's choice (log 10), and so is the form of the map (log 19). -/
def Obligations.UnmappedAccessIsRefused : Prop :=
  ∀ (s : State) (data base : Reg) (p : Nibble) (disp : BitVec 11) (target : Word),
    (isOdd (s.shortAddr base p) = false → s.wordOk (s.shortAddr base p) = false →
      exec (.ldm data base p) s = .refused .unmappedAddress ∧
      exec (.stm base p data) s = .refused .unmappedAddress) ∧
    (isOdd (s.longAddr base disp) = false → s.wordOk (s.longAddr base disp) = false →
      exec (.ldmw data base disp) s = .refused .unmappedAddress ∧
      exec (.stmw base disp data) s = .refused .unmappedAddress) ∧
    (s.build.hasByte = true → s.byteOk (s.longAddr base disp) = false →
      exec (.ldmb data base disp) s = .refused .unmappedAddress ∧
      exec (.stmb base disp data) s = .refused .unmappedAddress) ∧
    (isOdd s.pushAddr = false → s.wordOk s.pushAddr = false →
      (∀ i ∈ ([.pushReg data, .pushFlag, .jsr base, .jsrAbs target] : List Instr),
        exec i s = .refused .unmappedAddress) ∧
      (∀ v : BitVec 6, s.iack v = .refused .unmappedAddress)) ∧
    (isOdd (s.reg .r15) = false → s.wordOk (s.reg .r15) = false →
      (∀ i ∈ ([.popReg data, .popFlag, .ret, .retCli, .retSti] : List Instr),
        exec i s = .refused .unmappedAddress) ∧
      (∀ i z c d : Bool, exec (.retFlag i z c d) s = .refused .unmappedAddress)) ∧
    (∀ v : BitVec 6, s.wordOk s.pushAddr = true → s.wordOk (BitVec.ofNat 16 (2 * v.toNat)) = false →
      s.iack v = .refused .unmappedAddress) ∧
    (s.accepts = false → isOdd s.pc = false → s.wordOk s.pc = false → step s = .refused .unmappedAddress) ∧
    (s.wordOk 0#16 = false → s.takeReset = .refused .unmappedAddress)

/-! ### Shifts -/

/-- R121, R122: SHR shifts CF into bit 15, ASR keeps the sign (the floor of half the signed value); bit 0 goes to CF. That
ZF and NF are the result's is the spec's own decision D2; VF is unspecified and nothing is said of it (log 6). -/
def Obligations.ShiftsRightByOne : Prop :=
  ∀ (s : State) (ra : Reg), s.build.hasShift = true →
    (∃ t, exec (.shr ra) s = .next t ∧ (t.reg ra).toNat = s.flags.CF.toNat * 32768 + (s.reg ra).toNat / 2 ∧
      t.flags.CF = (s.reg ra).getLsbD 0 ∧ ZeroNegOf (t.reg ra) t ∧ t.flags.IF = s.flags.IF ∧ SameRegsBut [ra] s t
      ∧ PcNext s t ∧ SamePrefix s t ∧ SameMem s t ∧ SameModel s t) ∧
    (∃ t, exec (.asr ra) s = .next t ∧ (t.reg ra).toInt = (s.reg ra).toInt / 2 ∧
      t.flags.CF = (s.reg ra).getLsbD 0 ∧ ZeroNegOf (t.reg ra) t ∧ t.flags.IF = s.flags.IF ∧ SameRegsBut [ra] s t
      ∧ PcNext s t ∧ SamePrefix s t ∧ SameMem s t ∧ SameModel s t)

/-- R121: ASR on the high word and SHR on the low word shift a 32-bit signed value right by one. -/
def Obligations.TwoWordShiftChain : Prop :=
  ∀ (s t u : State) (hi lo : Reg), hi ≠ lo → exec (.asr hi) s = .next t → exec (.shr lo) t = .next u →
    (u.reg hi).toInt * 65536 + (u.reg lo).toNat = ((s.reg hi).toInt * 65536 + (s.reg lo).toNat) / 2

/-! ### ALU -/

/-- R155 to R158: AND OR XOR MOV write RA with the bitwise result and ZF NF from it; CF and VF are unspecified and
nothing is said of them (log 6). -/
def Obligations.LogicalOperations : Prop :=
  ∀ (s : State) (ra : Reg) (b : AluOperand),
    ∀ e ∈ [(andOf, s.reg ra &&& b.value s), (orOf, s.reg ra ||| b.value s), (xorOf, s.reg ra ^^^ b.value s),
        (movOf, b.value s)],
      ∃ t, exec (e.1 ra b) s = .next t ∧ t.reg ra = e.2 ∧ ZeroNegOf e.2 t ∧ AluFrame b [ra] s t

/-- R164: TST writes ZF and NF from the bitwise and, and no register; CF and VF are unspecified and nothing is said of
them (log 6). -/
def Obligations.TestSetsFlagsOnly : Prop :=
  ∀ (s : State) (ra : Reg) (b : AluOperand),
    ∃ t, exec (tstOf ra b) s = .next t ∧ ZeroNegOf (s.reg ra &&& b.value s) t ∧ AluFrame b [] s t

/-- R159: ADD, its result modulo 2^16 and its four flags. -/
def Obligations.AddResultAndFlags : Prop :=
  ∀ (s : State) (ra : Reg) (b : AluOperand),
    ∃ t, exec (addOf ra b) s = .next t ∧ t.reg ra = s.reg ra + b.value s ∧ ZeroNegOf (t.reg ra) t
      ∧ (t.flags.CF = true ↔ 65536 ≤ (s.reg ra).toNat + (b.value s).toNat)
      ∧ (t.flags.VF = true ↔ OutOfRange ((s.reg ra).toInt + (b.value s).toInt)) ∧ AluFrame b [ra] s t

/-- R160, R152: ADC adds CF as well. -/
def Obligations.AddWithCarryResultAndFlags : Prop :=
  ∀ (s : State) (ra : Reg) (b : AluOperand),
    ∃ t, exec (adcOf ra b) s = .next t
      ∧ (t.reg ra).toNat = ((s.reg ra).toNat + (b.value s).toNat + s.flags.CF.toNat) % 65536
      ∧ t.flags.NF = (t.reg ra).getLsbD 15 ∧ ChainZero s t (t.reg ra)
      ∧ (t.flags.CF = true ↔ 65536 ≤ (s.reg ra).toNat + (b.value s).toNat + s.flags.CF.toNat)
      ∧ (t.flags.VF = true ↔ OutOfRange ((s.reg ra).toInt + (b.value s).toInt + s.flags.CF.toNat))
      ∧ AluFrame b [ra] s t

/-- R161: SUB, its result modulo 2^16 and its four flags, CF in the build's sense of the borrow. -/
def Obligations.SubtractResultAndFlags : Prop :=
  ∀ (s : State) (ra : Reg) (b : AluOperand),
    ∃ t, exec (subOf ra b) s = .next t ∧ t.reg ra = s.reg ra - b.value s ∧ ZeroNegOf (t.reg ra) t
      ∧ BorrowFlag s t ((s.reg ra).toNat < (b.value s).toNat)
      ∧ (t.flags.VF = true ↔ OutOfRange ((s.reg ra).toInt - (b.value s).toInt)) ∧ AluFrame b [ra] s t

/-- R162, R152: SBC subtracts the borrow CF stands for as well. -/
def Obligations.SubtractWithCarryResultAndFlags : Prop :=
  ∀ (s : State) (ra : Reg) (b : AluOperand),
    ∃ t, exec (sbcOf ra b) s = .next t
      ∧ ((t.reg ra).toNat : Int) = ((s.reg ra).toNat - (b.value s).toNat - borrowOf s : Int) % 65536
      ∧ t.flags.NF = (t.reg ra).getLsbD 15 ∧ ChainZero s t (t.reg ra)
      ∧ BorrowFlag s t ((s.reg ra).toNat < (b.value s).toNat + borrowOf s)
      ∧ (t.flags.VF = true ↔ OutOfRange ((s.reg ra).toInt - (b.value s).toInt - borrowOf s))
      ∧ AluFrame b [ra] s t

/-- R163: CMP writes the flags of SUB and no register. -/
def Obligations.CompareSetsTheFlagsOfSubtract : Prop :=
  ∀ (s : State) (ra : Reg) (b : AluOperand),
    ∃ t, exec (cmpOf ra b) s = .next t ∧ ZeroNegOf (s.reg ra - b.value s) t
      ∧ BorrowFlag s t ((s.reg ra).toNat < (b.value s).toNat)
      ∧ (t.flags.VF = true ↔ OutOfRange ((s.reg ra).toInt - (b.value s).toInt)) ∧ AluFrame b [] s t

/-- R165, R166: MLT writes RA with the low half, MLH with the high half of the unsigned product (that MLH is unsigned is
the spec's own derivation in R166); ZF and NF are the result's; CF and VF are unspecified and nothing is said of them. -/
def Obligations.MultiplyWritesOneHalf : Prop :=
  ∀ (s : State) (ra : Reg) (b : AluOperand),
    (s.build.hasMlt = true → ∃ t, exec (mltOf ra b) s = .next t
      ∧ (t.reg ra).toNat = (s.reg ra).toNat * (b.value s).toNat % 65536 ∧ ZeroNegOf (t.reg ra) t
      ∧ AluFrame b [ra] s t) ∧
    (s.build.hasMlh = true → ∃ t, exec (mlhOf ra b) s = .next t
      ∧ (t.reg ra).toNat = (s.reg ra).toNat * (b.value s).toNat / 65536 ∧ ZeroNegOf (t.reg ra) t
      ∧ AluFrame b [ra] s t)

/-- R160: ADD on the low words and ADC on the high words add two 32-bit numbers, with the carry out of bit 31. -/
def Obligations.TwoWordAdditionChain : Prop :=
  ∀ (s t u : State) (ah al bh bl : Reg), al ≠ ah → al ≠ bh →
    exec (.addRR al bl) s = .next t → exec (.adcRR ah bh) t = .next u →
    (u.reg ah).toNat * 65536 + (u.reg al).toNat + u.flags.CF.toNat * 4294967296 =
      ((s.reg ah).toNat * 65536 + (s.reg al).toNat) + ((s.reg bh).toNat * 65536 + (s.reg bl).toNat)

/-- R162, R170: SUB on the low words and SBC on the high words subtract two 32-bit numbers, under either sense of
CF. -/
def Obligations.TwoWordSubtractionChain : Prop :=
  ∀ (s t u : State) (ah al bh bl : Reg), al ≠ ah → al ≠ bh →
    exec (.subRR al bl) s = .next t → exec (.sbcRR ah bh) t = .next u →
    ((u.reg ah).toNat * 65536 + (u.reg al).toNat : Int) =
      (((s.reg ah).toNat * 65536 + (s.reg al).toNat : Int) - ((s.reg bh).toNat * 65536 + (s.reg bl).toNat))
        % 4294967296

/-- R165, R166: MLT and MLH on copies give the low and the high half of the 32-bit product. -/
def Obligations.MultiplyHalvesMakeTheProduct : Prop :=
  ∀ (s t u : State) (lo hi b : Reg), lo ≠ hi → lo ≠ b → s.reg lo = s.reg hi →
    exec (.mltRR lo b) s = .next t → exec (.mlhRR hi b) t = .next u →
    (u.reg hi).toNat * 65536 + (u.reg lo).toNat = (s.reg hi).toNat * (s.reg b).toNat

/-- R154: the prefix word makes its payload pending and goes on; it changes nothing else. -/
def Obligations.PrefixWordMakesItsPayloadPending : Prop :=
  ∀ (s : State) (p : Byte), ∃ t, exec (.pfx p) s = .next t ∧ PcNext s t ∧
    OnlyPc { s with pfxValid := true, pfx := p } t

/-! ### Reserved encodings -/

/-- R65: each of the seven reserved patterns, fetched at PC, is refused under its own id (the spec's own decisions D15,
D10 for RSV4; log 9). That RSV4 keeps its id in a build without `HAS_SHIFT` is the model's choice (log 15). -/
def Obligations.ReservedPatternsAreRefused : Prop :=
  ∀ s : State, s.accepts = false → CanFetch s s.pc →
    (s.pfxValid = false →
      (∀ a b : Nibble, a ≠ 0xF#4 → s.wordAt s.pc = 0x3#4 ++ a ++ b ++ 0x0#4 →
        step s = .refused (.reservedEncoding .rsv1)) ∧
      (∀ (b : Nibble) (x : BitVec 3), s.wordAt s.pc = 0x1F#8 ++ b ++ x ++ 0#1 →
        step s = .refused (.reservedEncoding .rsv2)) ∧
      (∀ a b : Nibble, a ≠ 0xF#4 → s.wordAt s.pc = 0x3#4 ++ a ++ b ++ 0x3#4 →
        step s = .refused (.reservedEncoding .rsv3)) ∧
      (∀ a m : Nibble, m ≠ 0#4 → m ≠ s.build.smBit.mask → s.wordAt s.pc = 0x3#4 ++ a ++ m ++ 0x1#4 →
        step s = .refused (.reservedEncoding .rsv4))) ∧
    (s.pfxValid = true →
      (∀ x : BitVec 12, s.wordAt s.pc = 0x3#4 ++ x → step s = .refused (.reservedEncoding .rsv5)) ∧
      (∀ (k : Nibble) (x : BitVec 7), k ≠ 0xF#4 → s.wordAt s.pc = 0x2#4 ++ k ++ x ++ 1#1 →
        step s = .refused (.reservedEncoding .rsv6)) ∧
      (∀ x : BitVec 7, s.wordAt s.pc = 0x27#8 ++ x ++ 0#1 → step s = .refused (.reservedEncoding .rsv7)))

/-- R65, R66: the reserved rows of the opcode table are refused in every state, and so is an instruction of a unit the
build lacks, whatever its operands: the shift group, FN 1110 and FN 1111 in their three forms, the byte loads and stores
(the spec's own decisions D15, D22; log 9). That `rsv4` keeps its id in a build without `HAS_SHIFT` is the model's choice
(log 15). -/
def Obligations.ReservedInstructionsStop : Prop :=
  ∀ s : State,
    (∀ (a b : Nibble) (p : Byte) (x : BitVec 3) (y : BitVec 7) (z : BitVec 12),
      exec (.rsv1 a b) s = .refused (.reservedEncoding .rsv1) ∧
      exec (.rsv2 b x) s = .refused (.reservedEncoding .rsv2) ∧
      exec (.rsv3 a b) s = .refused (.reservedEncoding .rsv3) ∧
      exec (.rsv4 a b) s = .refused (.reservedEncoding .rsv4) ∧
      exec (.rsv5 p z) s = .refused (.reservedEncoding .rsv5) ∧
      exec (.rsv6 p a y) s = .refused (.reservedEncoding .rsv6) ∧
      exec (.rsv7 p y) s = .refused (.reservedEncoding .rsv7)) ∧
    (s.build.hasShift = false → ∀ ra : Reg,
      exec (.asr ra) s = .refused (.reservedEncoding .rsv8) ∧
      exec (.shr ra) s = .refused (.reservedEncoding .rsv8)) ∧
    (s.build.hasMlt = false → ∀ (ra : Reg) (b : AluOperand),
      exec (mltOf ra b) s = .refused (.reservedEncoding .rsv8)) ∧
    (s.build.hasMlh = false → ∀ (ra : Reg) (b : AluOperand),
      exec (mlhOf ra b) s = .refused (.reservedEncoding .rsv8)) ∧
    (s.build.hasByte = false → ∀ (data base : Reg) (disp : BitVec 11),
      exec (.ldmb data base disp) s = .refused (.reservedEncoding .rsv8) ∧
      exec (.stmb base disp data) s = .refused (.reservedEncoding .rsv8)) ∧
    (∀ (i : Instr) (u : BuildUnit), i.unit = some u ↔ NeedsUnit i u)
end

