-- ==== Sys2Proof/Laws/State.lean ====
section
/-! SUPPORT. One lemma per field per update of State, each true by rfl, so that no later proof unfolds a record
update. -/

namespace Sys2Proof.Machine

/-! `setReg` -/

@[simp] theorem State.setReg_build (s : State) (r : Reg) (v : Word) : (s.setReg r v).build = s.build := rfl
@[simp] theorem State.setReg_regs (s : State) (r : Reg) (v : Word) : (s.setReg r v).regs = s.regs.set r v := rfl
@[simp] theorem State.setReg_pc (s : State) (r : Reg) (v : Word) : (s.setReg r v).pc = s.pc := rfl
@[simp] theorem State.setReg_flags (s : State) (r : Reg) (v : Word) : (s.setReg r v).flags = s.flags := rfl
@[simp] theorem State.setReg_pfxValid (s : State) (r : Reg) (v : Word) : (s.setReg r v).pfxValid = s.pfxValid := rfl
@[simp] theorem State.setReg_pfx (s : State) (r : Reg) (v : Word) : (s.setReg r v).pfx = s.pfx := rfl
@[simp] theorem State.setReg_mem (s : State) (r : Reg) (v : Word) : (s.setReg r v).mem = s.mem := rfl
@[simp] theorem State.setReg_written (s : State) (r : Reg) (v : Word) : (s.setReg r v).written = s.written := rfl
@[simp] theorem State.setReg_ivectors (s : State) (r : Reg) (v : Word) : (s.setReg r v).ivectors = s.ivectors := rfl
@[simp] theorem State.setReg_freeCount (s : State) (r : Reg) (v : Word) :
    (s.setReg r v).freeCount = s.freeCount := rfl
@[simp] theorem State.setReg_cycles (s : State) (r : Reg) (v : Word) : (s.setReg r v).cycles = s.cycles := rfl

/-! `setPc` -/

@[simp] theorem State.setPc_build (s : State) (t : Word) : (s.setPc t).build = s.build := rfl
@[simp] theorem State.setPc_regs (s : State) (t : Word) : (s.setPc t).regs = s.regs := rfl
@[simp] theorem State.setPc_pc (s : State) (t : Word) : (s.setPc t).pc = t &&& 0xFFFE#16 := rfl
@[simp] theorem State.setPc_flags (s : State) (t : Word) : (s.setPc t).flags = s.flags := rfl
@[simp] theorem State.setPc_pfxValid (s : State) (t : Word) : (s.setPc t).pfxValid = s.pfxValid := rfl
@[simp] theorem State.setPc_pfx (s : State) (t : Word) : (s.setPc t).pfx = s.pfx := rfl
@[simp] theorem State.setPc_mem (s : State) (t : Word) : (s.setPc t).mem = s.mem := rfl
@[simp] theorem State.setPc_written (s : State) (t : Word) : (s.setPc t).written = s.written := rfl
@[simp] theorem State.setPc_ivectors (s : State) (t : Word) : (s.setPc t).ivectors = s.ivectors := rfl
@[simp] theorem State.setPc_freeCount (s : State) (t : Word) : (s.setPc t).freeCount = s.freeCount := rfl
@[simp] theorem State.setPc_cycles (s : State) (t : Word) : (s.setPc t).cycles = s.cycles := rfl

/-! `advance` -/

@[simp] theorem State.advance_build (s : State) : s.advance.build = s.build := rfl
@[simp] theorem State.advance_regs (s : State) : s.advance.regs = s.regs := rfl
@[simp] theorem State.advance_pc (s : State) : s.advance.pc = (s.pc + 2#16) &&& 0xFFFE#16 := rfl
@[simp] theorem State.advance_flags (s : State) : s.advance.flags = s.flags := rfl
@[simp] theorem State.advance_pfxValid (s : State) : s.advance.pfxValid = s.pfxValid := rfl
@[simp] theorem State.advance_pfx (s : State) : s.advance.pfx = s.pfx := rfl
@[simp] theorem State.advance_mem (s : State) : s.advance.mem = s.mem := rfl
@[simp] theorem State.advance_written (s : State) : s.advance.written = s.written := rfl
@[simp] theorem State.advance_ivectors (s : State) : s.advance.ivectors = s.ivectors := rfl
@[simp] theorem State.advance_freeCount (s : State) : s.advance.freeCount = s.freeCount := rfl
@[simp] theorem State.advance_cycles (s : State) : s.advance.cycles = s.cycles := rfl

/-! `setPrefix` -/

@[simp] theorem State.setPrefix_build (s : State) (p : Byte) : (s.setPrefix p).build = s.build := rfl
@[simp] theorem State.setPrefix_regs (s : State) (p : Byte) : (s.setPrefix p).regs = s.regs := rfl
@[simp] theorem State.setPrefix_pc (s : State) (p : Byte) : (s.setPrefix p).pc = s.pc := rfl
@[simp] theorem State.setPrefix_flags (s : State) (p : Byte) : (s.setPrefix p).flags = s.flags := rfl
@[simp] theorem State.setPrefix_pfxValid (s : State) (p : Byte) : (s.setPrefix p).pfxValid = true := rfl
@[simp] theorem State.setPrefix_pfx (s : State) (p : Byte) : (s.setPrefix p).pfx = p := rfl
@[simp] theorem State.setPrefix_mem (s : State) (p : Byte) : (s.setPrefix p).mem = s.mem := rfl
@[simp] theorem State.setPrefix_written (s : State) (p : Byte) : (s.setPrefix p).written = s.written := rfl
@[simp] theorem State.setPrefix_ivectors (s : State) (p : Byte) : (s.setPrefix p).ivectors = s.ivectors := rfl
@[simp] theorem State.setPrefix_freeCount (s : State) (p : Byte) : (s.setPrefix p).freeCount = s.freeCount := rfl
@[simp] theorem State.setPrefix_cycles (s : State) (p : Byte) : (s.setPrefix p).cycles = s.cycles := rfl

/-! `endPrefix` -/

@[simp] theorem State.endPrefix_build (s : State) : s.endPrefix.build = s.build := rfl
@[simp] theorem State.endPrefix_regs (s : State) : s.endPrefix.regs = s.regs := rfl
@[simp] theorem State.endPrefix_pc (s : State) : s.endPrefix.pc = s.pc := rfl
@[simp] theorem State.endPrefix_flags (s : State) : s.endPrefix.flags = s.flags := rfl
@[simp] theorem State.endPrefix_pfxValid (s : State) : s.endPrefix.pfxValid = false := rfl
@[simp] theorem State.endPrefix_pfx (s : State) : s.endPrefix.pfx = s.pfx := rfl
@[simp] theorem State.endPrefix_mem (s : State) : s.endPrefix.mem = s.mem := rfl
@[simp] theorem State.endPrefix_written (s : State) : s.endPrefix.written = s.written := rfl
@[simp] theorem State.endPrefix_ivectors (s : State) : s.endPrefix.ivectors = s.ivectors := rfl
@[simp] theorem State.endPrefix_freeCount (s : State) : s.endPrefix.freeCount = s.freeCount := rfl
@[simp] theorem State.endPrefix_cycles (s : State) : s.endPrefix.cycles = s.cycles := rfl

/-! `putByte` -/

@[simp] theorem State.putByte_build (s : State) (a : Nat) (v : Byte) : (s.putByte a v).build = s.build := rfl
@[simp] theorem State.putByte_regs (s : State) (a : Nat) (v : Byte) : (s.putByte a v).regs = s.regs := rfl
@[simp] theorem State.putByte_pc (s : State) (a : Nat) (v : Byte) : (s.putByte a v).pc = s.pc := rfl
@[simp] theorem State.putByte_flags (s : State) (a : Nat) (v : Byte) : (s.putByte a v).flags = s.flags := rfl
@[simp] theorem State.putByte_pfxValid (s : State) (a : Nat) (v : Byte) :
    (s.putByte a v).pfxValid = s.pfxValid := rfl
@[simp] theorem State.putByte_pfx (s : State) (a : Nat) (v : Byte) : (s.putByte a v).pfx = s.pfx := rfl
@[simp] theorem State.putByte_mem (s : State) (a : Nat) (v : Byte) : (s.putByte a v).mem = s.mem.write a v := rfl
@[simp] theorem State.putByte_written (s : State) (a : Nat) (v : Byte) :
    (s.putByte a v).written = insertAddr a s.written := rfl
@[simp] theorem State.putByte_ivectors (s : State) (a : Nat) (v : Byte) :
    (s.putByte a v).ivectors = s.ivectors := rfl
@[simp] theorem State.putByte_freeCount (s : State) (a : Nat) (v : Byte) :
    (s.putByte a v).freeCount = s.freeCount := rfl
@[simp] theorem State.putByte_cycles (s : State) (a : Nat) (v : Byte) : (s.putByte a v).cycles = s.cycles := rfl

/-! `sampled` -/

@[simp] theorem State.sampled_build (s : State) : s.sampled.build = s.build := rfl
@[simp] theorem State.sampled_regs (s : State) : s.sampled.regs = s.regs := rfl
@[simp] theorem State.sampled_pc (s : State) : s.sampled.pc = s.pc := rfl
@[simp] theorem State.sampled_flags (s : State) : s.sampled.flags = s.flags := rfl
@[simp] theorem State.sampled_pfxValid (s : State) : s.sampled.pfxValid = s.pfxValid := rfl
@[simp] theorem State.sampled_pfx (s : State) : s.sampled.pfx = s.pfx := rfl
@[simp] theorem State.sampled_mem (s : State) : s.sampled.mem = s.mem := rfl
@[simp] theorem State.sampled_written (s : State) : s.sampled.written = s.written := rfl
@[simp] theorem State.sampled_ivectors (s : State) : s.sampled.ivectors = s.ivectors.tail := rfl
@[simp] theorem State.sampled_freeCount (s : State) : s.sampled.freeCount = s.freeCount := rfl
@[simp] theorem State.sampled_cycles (s : State) : s.sampled.cycles = s.cycles := rfl

/-! `addCycles` -/

@[simp] theorem State.addCycles_build (s : State) (n : Nat) : (s.addCycles n).build = s.build := rfl
@[simp] theorem State.addCycles_regs (s : State) (n : Nat) : (s.addCycles n).regs = s.regs := rfl
@[simp] theorem State.addCycles_pc (s : State) (n : Nat) : (s.addCycles n).pc = s.pc := rfl
@[simp] theorem State.addCycles_flags (s : State) (n : Nat) : (s.addCycles n).flags = s.flags := rfl
@[simp] theorem State.addCycles_pfxValid (s : State) (n : Nat) : (s.addCycles n).pfxValid = s.pfxValid := rfl
@[simp] theorem State.addCycles_pfx (s : State) (n : Nat) : (s.addCycles n).pfx = s.pfx := rfl
@[simp] theorem State.addCycles_mem (s : State) (n : Nat) : (s.addCycles n).mem = s.mem := rfl
@[simp] theorem State.addCycles_written (s : State) (n : Nat) : (s.addCycles n).written = s.written := rfl
@[simp] theorem State.addCycles_ivectors (s : State) (n : Nat) : (s.addCycles n).ivectors = s.ivectors := rfl
@[simp] theorem State.addCycles_freeCount (s : State) (n : Nat) : (s.addCycles n).freeCount = s.freeCount := rfl
@[simp] theorem State.addCycles_cycles (s : State) (n : Nat) : (s.addCycles n).cycles = s.cycles + n := rfl

/-! `flagOp` -/

@[simp] theorem State.flagOp_build (s : State) (ifl zfl cfl fd : Bool) :
    (s.flagOp ifl zfl cfl fd).build = s.build := rfl
@[simp] theorem State.flagOp_regs (s : State) (ifl zfl cfl fd : Bool) :
    (s.flagOp ifl zfl cfl fd).regs = s.regs := rfl
@[simp] theorem State.flagOp_pc (s : State) (ifl zfl cfl fd : Bool) : (s.flagOp ifl zfl cfl fd).pc = s.pc := rfl
@[simp] theorem State.flagOp_flags (s : State) (ifl zfl cfl fd : Bool) :
    (s.flagOp ifl zfl cfl fd).flags = { s.flags with
      IF := if ifl then fd else s.flags.IF, ZF := if zfl then fd else s.flags.ZF, CF := if cfl then fd else s.flags.CF } := rfl
@[simp] theorem State.flagOp_pfxValid (s : State) (ifl zfl cfl fd : Bool) :
    (s.flagOp ifl zfl cfl fd).pfxValid = s.pfxValid := rfl
@[simp] theorem State.flagOp_pfx (s : State) (ifl zfl cfl fd : Bool) : (s.flagOp ifl zfl cfl fd).pfx = s.pfx := rfl
@[simp] theorem State.flagOp_mem (s : State) (ifl zfl cfl fd : Bool) : (s.flagOp ifl zfl cfl fd).mem = s.mem := rfl
@[simp] theorem State.flagOp_written (s : State) (ifl zfl cfl fd : Bool) :
    (s.flagOp ifl zfl cfl fd).written = s.written := rfl
@[simp] theorem State.flagOp_ivectors (s : State) (ifl zfl cfl fd : Bool) :
    (s.flagOp ifl zfl cfl fd).ivectors = s.ivectors := rfl
@[simp] theorem State.flagOp_freeCount (s : State) (ifl zfl cfl fd : Bool) :
    (s.flagOp ifl zfl cfl fd).freeCount = s.freeCount := rfl
@[simp] theorem State.flagOp_cycles (s : State) (ifl zfl cfl fd : Bool) :
    (s.flagOp ifl zfl cfl fd).cycles = s.cycles := rfl

/-! `drew` -/

@[simp] theorem State.drew_build (s : State) : s.drew.build = s.build := rfl
@[simp] theorem State.drew_regs (s : State) : s.drew.regs = s.regs := rfl
@[simp] theorem State.drew_pc (s : State) : s.drew.pc = s.pc := rfl
@[simp] theorem State.drew_flags (s : State) : s.drew.flags = s.flags := rfl
@[simp] theorem State.drew_pfxValid (s : State) : s.drew.pfxValid = s.pfxValid := rfl
@[simp] theorem State.drew_pfx (s : State) : s.drew.pfx = s.pfx := rfl
@[simp] theorem State.drew_mem (s : State) : s.drew.mem = s.mem := rfl
@[simp] theorem State.drew_written (s : State) : s.drew.written = s.written := rfl
@[simp] theorem State.drew_ivectors (s : State) : s.drew.ivectors = s.ivectors := rfl
@[simp] theorem State.drew_freeCount (s : State) : s.drew.freeCount = s.freeCount + 1 := rfl
@[simp] theorem State.drew_cycles (s : State) : s.drew.cycles = s.cycles := rfl

/-! `loadFlags` -/

@[simp] theorem State.loadFlags_build (s : State) (w : Word) : (s.loadFlags w).build = s.build := rfl
@[simp] theorem State.loadFlags_regs (s : State) (w : Word) : (s.loadFlags w).regs = s.regs := rfl
@[simp] theorem State.loadFlags_pc (s : State) (w : Word) : (s.loadFlags w).pc = s.pc := rfl
@[simp] theorem State.loadFlags_flags (s : State) (w : Word) :
    (s.loadFlags w).flags = { s.flags with
      NF := w.getLsbD 3, VF := w.getLsbD 2, ZF := w.getLsbD 1, CF := w.getLsbD 0 } := rfl
@[simp] theorem State.loadFlags_pfxValid (s : State) (w : Word) : (s.loadFlags w).pfxValid = s.pfxValid := rfl
@[simp] theorem State.loadFlags_pfx (s : State) (w : Word) : (s.loadFlags w).pfx = s.pfx := rfl
@[simp] theorem State.loadFlags_mem (s : State) (w : Word) : (s.loadFlags w).mem = s.mem := rfl
@[simp] theorem State.loadFlags_written (s : State) (w : Word) : (s.loadFlags w).written = s.written := rfl
@[simp] theorem State.loadFlags_ivectors (s : State) (w : Word) : (s.loadFlags w).ivectors = s.ivectors := rfl
@[simp] theorem State.loadFlags_freeCount (s : State) (w : Word) : (s.loadFlags w).freeCount = s.freeCount := rfl
@[simp] theorem State.loadFlags_cycles (s : State) (w : Word) : (s.loadFlags w).cycles = s.cycles := rfl

/-! `arithFlags` -/

@[simp] theorem State.arithFlags_build (s : State) (o : ArithOut) : (s.arithFlags o).build = s.build := rfl
@[simp] theorem State.arithFlags_regs (s : State) (o : ArithOut) : (s.arithFlags o).regs = s.regs := rfl
@[simp] theorem State.arithFlags_pc (s : State) (o : ArithOut) : (s.arithFlags o).pc = s.pc := rfl
@[simp] theorem State.arithFlags_flags (s : State) (o : ArithOut) :
    (s.arithFlags o).flags = { s.flags with
      CF := o.carry, VF := o.ovf, ZF := zeroBit o.r, NF := negBit o.r } := rfl
@[simp] theorem State.arithFlags_pfxValid (s : State) (o : ArithOut) : (s.arithFlags o).pfxValid = s.pfxValid := rfl
@[simp] theorem State.arithFlags_pfx (s : State) (o : ArithOut) : (s.arithFlags o).pfx = s.pfx := rfl
@[simp] theorem State.arithFlags_mem (s : State) (o : ArithOut) : (s.arithFlags o).mem = s.mem := rfl
@[simp] theorem State.arithFlags_written (s : State) (o : ArithOut) : (s.arithFlags o).written = s.written := rfl
@[simp] theorem State.arithFlags_ivectors (s : State) (o : ArithOut) : (s.arithFlags o).ivectors = s.ivectors := rfl
@[simp] theorem State.arithFlags_freeCount (s : State) (o : ArithOut) :
    (s.arithFlags o).freeCount = s.freeCount := rfl
@[simp] theorem State.arithFlags_cycles (s : State) (o : ArithOut) : (s.arithFlags o).cycles = s.cycles := rfl

/-! `chainFlags` -/

@[simp] theorem State.chainFlags_build (s : State) (o : ArithOut) : (s.chainFlags o).build = s.build := rfl
@[simp] theorem State.chainFlags_regs (s : State) (o : ArithOut) : (s.chainFlags o).regs = s.regs := rfl
@[simp] theorem State.chainFlags_pc (s : State) (o : ArithOut) : (s.chainFlags o).pc = s.pc := rfl
@[simp] theorem State.chainFlags_flags (s : State) (o : ArithOut) :
    (s.chainFlags o).flags = { s.flags with
      CF := o.carry, VF := o.ovf, ZF := chainZero s.build.adcSbcZSticky s.flags.ZF o.r, NF := negBit o.r } := rfl
@[simp] theorem State.chainFlags_pfxValid (s : State) (o : ArithOut) : (s.chainFlags o).pfxValid = s.pfxValid := rfl
@[simp] theorem State.chainFlags_pfx (s : State) (o : ArithOut) : (s.chainFlags o).pfx = s.pfx := rfl
@[simp] theorem State.chainFlags_mem (s : State) (o : ArithOut) : (s.chainFlags o).mem = s.mem := rfl
@[simp] theorem State.chainFlags_written (s : State) (o : ArithOut) : (s.chainFlags o).written = s.written := rfl
@[simp] theorem State.chainFlags_ivectors (s : State) (o : ArithOut) : (s.chainFlags o).ivectors = s.ivectors := rfl
@[simp] theorem State.chainFlags_freeCount (s : State) (o : ArithOut) :
    (s.chainFlags o).freeCount = s.freeCount := rfl
@[simp] theorem State.chainFlags_cycles (s : State) (o : ArithOut) : (s.chainFlags o).cycles = s.cycles := rfl

/-! `logicFlags` -/

@[simp] theorem State.logicFlags_build (s : State) (r : Word) : (s.logicFlags r).build = s.build := rfl
@[simp] theorem State.logicFlags_regs (s : State) (r : Word) : (s.logicFlags r).regs = s.regs := rfl
@[simp] theorem State.logicFlags_pc (s : State) (r : Word) : (s.logicFlags r).pc = s.pc := rfl
@[simp] theorem State.logicFlags_flags (s : State) (r : Word) :
    (s.logicFlags r).flags = { s.flags with
      CF := Config.freeBit s.freeCount, VF := Config.freeBit (s.freeCount + 1), ZF := zeroBit r, NF := negBit r } := rfl
@[simp] theorem State.logicFlags_pfxValid (s : State) (r : Word) : (s.logicFlags r).pfxValid = s.pfxValid := rfl
@[simp] theorem State.logicFlags_pfx (s : State) (r : Word) : (s.logicFlags r).pfx = s.pfx := rfl
@[simp] theorem State.logicFlags_mem (s : State) (r : Word) : (s.logicFlags r).mem = s.mem := rfl
@[simp] theorem State.logicFlags_written (s : State) (r : Word) : (s.logicFlags r).written = s.written := rfl
@[simp] theorem State.logicFlags_ivectors (s : State) (r : Word) : (s.logicFlags r).ivectors = s.ivectors := rfl
@[simp] theorem State.logicFlags_freeCount (s : State) (r : Word) :
    (s.logicFlags r).freeCount = s.freeCount + 2 := rfl
@[simp] theorem State.logicFlags_cycles (s : State) (r : Word) : (s.logicFlags r).cycles = s.cycles := rfl

/-! `shiftFlags` -/

@[simp] theorem State.shiftFlags_build (s : State) (r : Word) (out : Bool) :
    (s.shiftFlags r out).build = s.build := rfl
@[simp] theorem State.shiftFlags_regs (s : State) (r : Word) (out : Bool) : (s.shiftFlags r out).regs = s.regs := rfl
@[simp] theorem State.shiftFlags_pc (s : State) (r : Word) (out : Bool) : (s.shiftFlags r out).pc = s.pc := rfl
@[simp] theorem State.shiftFlags_flags (s : State) (r : Word) (out : Bool) :
    (s.shiftFlags r out).flags = { s.flags with
      CF := out, VF := Config.freeBit s.freeCount, ZF := zeroBit r, NF := negBit r } := rfl
@[simp] theorem State.shiftFlags_pfxValid (s : State) (r : Word) (out : Bool) :
    (s.shiftFlags r out).pfxValid = s.pfxValid := rfl
@[simp] theorem State.shiftFlags_pfx (s : State) (r : Word) (out : Bool) : (s.shiftFlags r out).pfx = s.pfx := rfl
@[simp] theorem State.shiftFlags_mem (s : State) (r : Word) (out : Bool) : (s.shiftFlags r out).mem = s.mem := rfl
@[simp] theorem State.shiftFlags_written (s : State) (r : Word) (out : Bool) :
    (s.shiftFlags r out).written = s.written := rfl
@[simp] theorem State.shiftFlags_ivectors (s : State) (r : Word) (out : Bool) :
    (s.shiftFlags r out).ivectors = s.ivectors := rfl
@[simp] theorem State.shiftFlags_freeCount (s : State) (r : Word) (out : Bool) :
    (s.shiftFlags r out).freeCount = s.freeCount + 1 := rfl
@[simp] theorem State.shiftFlags_cycles (s : State) (r : Word) (out : Bool) :
    (s.shiftFlags r out).cycles = s.cycles := rfl

/-! Reading registers and memory through an update -/

@[simp] theorem RegFile.get_set_self (f : RegFile) (r : Reg) (v : Word) : (f.set r v).get r = v := by
  cases r <;> rfl

theorem RegFile.get_set_other (f : RegFile) {r q : Reg} (v : Word) (h : q ≠ r) : (f.set r v).get q = f.get q := by
  cases r <;> cases q <;> first | rfl | exact absurd rfl h

@[simp] theorem State.reg_setReg_self (s : State) (r : Reg) (v : Word) : (s.setReg r v).reg r = v := by
  simp [State.reg]

theorem State.reg_setReg_other (s : State) {r q : Reg} (v : Word) (h : q ≠ r) :
    (s.setReg r v).reg q = s.reg q := by
  simp [State.reg, RegFile.get_set_other _ _ h]

theorem State.reg_setReg (s : State) (r q : Reg) (v : Word) :
    (s.setReg r v).reg q = if q = r then v else s.reg q := by
  by_cases h : q = r
  · simp [h]
  · simp [h, State.reg_setReg_other s v h]

@[simp] theorem State.npc_eq (s : State) : s.npc = s.pc + 2#16 := rfl

@[simp] theorem State.byteAt_setReg (s : State) (r : Reg) (v : Word) (b : Nat) : (s.setReg r v).byteAt b = s.byteAt b := rfl
@[simp] theorem State.wordAt_setReg (s : State) (r : Reg) (v : Word) (b : Word) : (s.setReg r v).wordAt b = s.wordAt b := rfl
@[simp] theorem State.wordOk_setReg (s : State) (r : Reg) (v : Word) (b : Word) : (s.setReg r v).wordOk b = s.wordOk b := rfl
@[simp] theorem State.reg_setPc (s : State) (t : Word) (q : Reg) : (s.setPc t).reg q = s.reg q := rfl
@[simp] theorem State.byteAt_setPc (s : State) (t : Word) (b : Nat) : (s.setPc t).byteAt b = s.byteAt b := rfl
@[simp] theorem State.wordAt_setPc (s : State) (t : Word) (b : Word) : (s.setPc t).wordAt b = s.wordAt b := rfl
@[simp] theorem State.wordOk_setPc (s : State) (t : Word) (b : Word) : (s.setPc t).wordOk b = s.wordOk b := rfl
@[simp] theorem State.reg_advance (s : State) (q : Reg) : s.advance.reg q = s.reg q := rfl
@[simp] theorem State.byteAt_advance (s : State) (b : Nat) : s.advance.byteAt b = s.byteAt b := rfl
@[simp] theorem State.wordAt_advance (s : State) (b : Word) : s.advance.wordAt b = s.wordAt b := rfl
@[simp] theorem State.wordOk_advance (s : State) (b : Word) : s.advance.wordOk b = s.wordOk b := rfl
@[simp] theorem State.reg_setPrefix (s : State) (p : Byte) (q : Reg) : (s.setPrefix p).reg q = s.reg q := rfl
@[simp] theorem State.byteAt_setPrefix (s : State) (p : Byte) (b : Nat) : (s.setPrefix p).byteAt b = s.byteAt b := rfl
@[simp] theorem State.wordAt_setPrefix (s : State) (p : Byte) (b : Word) : (s.setPrefix p).wordAt b = s.wordAt b := rfl
@[simp] theorem State.wordOk_setPrefix (s : State) (p : Byte) (b : Word) : (s.setPrefix p).wordOk b = s.wordOk b := rfl
@[simp] theorem State.reg_endPrefix (s : State) (q : Reg) : s.endPrefix.reg q = s.reg q := rfl
@[simp] theorem State.byteAt_endPrefix (s : State) (b : Nat) : s.endPrefix.byteAt b = s.byteAt b := rfl
@[simp] theorem State.wordAt_endPrefix (s : State) (b : Word) : s.endPrefix.wordAt b = s.wordAt b := rfl
@[simp] theorem State.wordOk_endPrefix (s : State) (b : Word) : s.endPrefix.wordOk b = s.wordOk b := rfl
@[simp] theorem State.reg_putByte (s : State) (a : Nat) (v : Byte) (q : Reg) : (s.putByte a v).reg q = s.reg q := rfl
@[simp] theorem State.wordOk_putByte (s : State) (a : Nat) (v : Byte) (b : Word) : (s.putByte a v).wordOk b = s.wordOk b := rfl
@[simp] theorem State.reg_sampled (s : State) (q : Reg) : s.sampled.reg q = s.reg q := rfl
@[simp] theorem State.byteAt_sampled (s : State) (b : Nat) : s.sampled.byteAt b = s.byteAt b := rfl
@[simp] theorem State.wordAt_sampled (s : State) (b : Word) : s.sampled.wordAt b = s.wordAt b := rfl
@[simp] theorem State.wordOk_sampled (s : State) (b : Word) : s.sampled.wordOk b = s.wordOk b := rfl
@[simp] theorem State.reg_addCycles (s : State) (n : Nat) (q : Reg) : (s.addCycles n).reg q = s.reg q := rfl
@[simp] theorem State.byteAt_addCycles (s : State) (n : Nat) (b : Nat) : (s.addCycles n).byteAt b = s.byteAt b := rfl
@[simp] theorem State.wordAt_addCycles (s : State) (n : Nat) (b : Word) : (s.addCycles n).wordAt b = s.wordAt b := rfl
@[simp] theorem State.wordOk_addCycles (s : State) (n : Nat) (b : Word) : (s.addCycles n).wordOk b = s.wordOk b := rfl
@[simp] theorem State.reg_flagOp (s : State) (ifl zfl cfl fd : Bool) (q : Reg) : (s.flagOp ifl zfl cfl fd).reg q = s.reg q := rfl
@[simp] theorem State.byteAt_flagOp (s : State) (ifl zfl cfl fd : Bool) (b : Nat) : (s.flagOp ifl zfl cfl fd).byteAt b = s.byteAt b := rfl
@[simp] theorem State.wordAt_flagOp (s : State) (ifl zfl cfl fd : Bool) (b : Word) : (s.flagOp ifl zfl cfl fd).wordAt b = s.wordAt b := rfl
@[simp] theorem State.wordOk_flagOp (s : State) (ifl zfl cfl fd : Bool) (b : Word) : (s.flagOp ifl zfl cfl fd).wordOk b = s.wordOk b := rfl
@[simp] theorem State.reg_drew (s : State) (q : Reg) : s.drew.reg q = s.reg q := rfl
@[simp] theorem State.byteAt_drew (s : State) (b : Nat) : s.drew.byteAt b = s.byteAt b := rfl
@[simp] theorem State.wordAt_drew (s : State) (b : Word) : s.drew.wordAt b = s.wordAt b := rfl
@[simp] theorem State.wordOk_drew (s : State) (b : Word) : s.drew.wordOk b = s.wordOk b := rfl
@[simp] theorem State.reg_loadFlags (s : State) (w : Word) (q : Reg) : (s.loadFlags w).reg q = s.reg q := rfl
@[simp] theorem State.byteAt_loadFlags (s : State) (w : Word) (b : Nat) : (s.loadFlags w).byteAt b = s.byteAt b := rfl
@[simp] theorem State.wordAt_loadFlags (s : State) (w : Word) (b : Word) : (s.loadFlags w).wordAt b = s.wordAt b := rfl
@[simp] theorem State.wordOk_loadFlags (s : State) (w : Word) (b : Word) : (s.loadFlags w).wordOk b = s.wordOk b := rfl
@[simp] theorem State.reg_arithFlags (s : State) (o : ArithOut) (q : Reg) : (s.arithFlags o).reg q = s.reg q := rfl
@[simp] theorem State.byteAt_arithFlags (s : State) (o : ArithOut) (b : Nat) : (s.arithFlags o).byteAt b = s.byteAt b := rfl
@[simp] theorem State.wordAt_arithFlags (s : State) (o : ArithOut) (b : Word) : (s.arithFlags o).wordAt b = s.wordAt b := rfl
@[simp] theorem State.wordOk_arithFlags (s : State) (o : ArithOut) (b : Word) : (s.arithFlags o).wordOk b = s.wordOk b := rfl
@[simp] theorem State.reg_chainFlags (s : State) (o : ArithOut) (q : Reg) : (s.chainFlags o).reg q = s.reg q := rfl
@[simp] theorem State.byteAt_chainFlags (s : State) (o : ArithOut) (b : Nat) : (s.chainFlags o).byteAt b = s.byteAt b := rfl
@[simp] theorem State.wordAt_chainFlags (s : State) (o : ArithOut) (b : Word) : (s.chainFlags o).wordAt b = s.wordAt b := rfl
@[simp] theorem State.wordOk_chainFlags (s : State) (o : ArithOut) (b : Word) : (s.chainFlags o).wordOk b = s.wordOk b := rfl
@[simp] theorem State.reg_logicFlags (s : State) (r : Word) (q : Reg) : (s.logicFlags r).reg q = s.reg q := rfl
@[simp] theorem State.byteAt_logicFlags (s : State) (r : Word) (b : Nat) : (s.logicFlags r).byteAt b = s.byteAt b := rfl
@[simp] theorem State.wordAt_logicFlags (s : State) (r : Word) (b : Word) : (s.logicFlags r).wordAt b = s.wordAt b := rfl
@[simp] theorem State.wordOk_logicFlags (s : State) (r : Word) (b : Word) : (s.logicFlags r).wordOk b = s.wordOk b := rfl
@[simp] theorem State.reg_shiftFlags (s : State) (r : Word) (out : Bool) (q : Reg) : (s.shiftFlags r out).reg q = s.reg q := rfl
@[simp] theorem State.byteAt_shiftFlags (s : State) (r : Word) (out : Bool) (b : Nat) : (s.shiftFlags r out).byteAt b = s.byteAt b := rfl
@[simp] theorem State.wordAt_shiftFlags (s : State) (r : Word) (out : Bool) (b : Word) : (s.shiftFlags r out).wordAt b = s.wordAt b := rfl
@[simp] theorem State.wordOk_shiftFlags (s : State) (r : Word) (out : Bool) (b : Word) : (s.shiftFlags r out).wordOk b = s.wordOk b := rfl

end Sys2Proof.Machine
end

