-- ==== Sys2Proof/Laws/Memory.lean ====
section
/-! SUPPORT. The laws of memory as data: a read after a write, and the canonical form every operation keeps. -/

namespace Sys2Proof.Machine

@[simp] theorem Memory.read_nil (a : Nat) : Memory.read [] a = unlistedByte := rfl

theorem Memory.read_cons (b : Nat) (v : Byte) (m : Memory) (a : Nat) :
    Memory.read ((b, v) :: m) a = if a = b then v else Memory.read m a := rfl

theorem Memory.erase_cons (b : Nat) (w : Byte) (m : Memory) (a : Nat) :
    Memory.erase ((b, w) :: m) a = if b = a then Memory.erase m a else (b, w) :: Memory.erase m a := by
  by_cases h : b = a <;> simp [Memory.erase, h]

theorem Memory.read_erase (m : Memory) (a b : Nat) :
    (Memory.erase m a).read b = if b = a then unlistedByte else m.read b := by
  induction m with
  | nil => simp [Memory.erase, Memory.read]
  | cons c m ih =>
    obtain ⟨k, w⟩ := c
    rw [Memory.erase_cons]
    by_cases hk : k = a
    · rw [if_pos hk, ih, Memory.read_cons]
      by_cases hb : b = a
      · simp [hb]
      · have : b ≠ k := fun h => hb (h.trans hk)
        simp [hb, this]
    · rw [if_neg hk, Memory.read_cons, Memory.read_cons, ih]
      by_cases hb : b = k
      · have : b ≠ a := fun h => hk (hb ▸ h)
        simp [hb, hk]
      · simp [hb]

theorem Memory.read_insert (m : Memory) (a b : Nat) (v : Byte) (h : ∀ c ∈ m, c.1 ≠ a) :
    (Memory.insert m a v).read b = if b = a then v else m.read b := by
  induction m with
  | nil => simp [Memory.insert, Memory.read]
  | cons c m ih =>
    obtain ⟨k, w⟩ := c
    have hk : k ≠ a := h (k, w) (by simp)
    have ih := ih fun c hc => h c (by simp [hc])
    rw [Memory.insert]
    split
    · rw [Memory.read_cons]
    · rw [Memory.read_cons, ih, Memory.read_cons]
      by_cases hb : b = k
      · simp [hb, hk]
      · simp [hb]

theorem Memory.mem_erase {m : Memory} {a : Nat} {c : Host.Cell} (h : c ∈ Memory.erase m a) : c ∈ m ∧ c.1 ≠ a := by
  simpa [Memory.erase] using h

/-- A read after a write: the written byte at its address, the old byte elsewhere. -/
theorem Memory.read_write (m : Memory) (a b : Nat) (v : Byte) :
    (m.write a v).read b = if b = a then v else m.read b := by
  unfold Memory.write
  split
  · rename_i hv
    rw [Memory.read_erase, hv]
  · rw [Memory.read_insert _ _ _ _ fun c hc => (Memory.mem_erase hc).2, Memory.read_erase]
    by_cases hb : b = a <;> simp [hb]

/-! The canonical form -/

/-- A lower bound, where there is one, is below an address. -/
def aboveBound (lo : Option Nat) (a : Nat) : Prop := ∀ b, lo = some b → b < a

theorem Memory.risingFrom_cons (lo : Option Nat) (a : Nat) (v : Byte) (m : Memory) :
    Memory.risingFrom lo ((a, v) :: m) = true
      ↔ aboveBound lo a ∧ a < 65536 ∧ v ≠ unlistedByte ∧ Memory.risingFrom (some a) m = true := by
  cases lo <;> simp [Memory.risingFrom, aboveBound, and_assoc]

theorem aboveBound_trans {lo : Option Nat} {a b : Nat} (h : aboveBound lo a) (hab : a ≤ b) : aboveBound lo b :=
  fun c hc => Nat.lt_of_lt_of_le (h c hc) hab

theorem Memory.risingFrom_mono {lo : Option Nat} {a : Nat} {m : Memory} (h : aboveBound lo a)
    (hm : Memory.risingFrom (some a) m = true) : Memory.risingFrom lo m = true := by
  cases m with
  | nil => rfl
  | cons c m =>
    obtain ⟨k, w⟩ := c
    rw [Memory.risingFrom_cons] at hm ⊢
    exact ⟨aboveBound_trans h (Nat.le_of_lt (hm.1 a rfl)), hm.2⟩

theorem Memory.risingFrom_erase {m : Memory} {lo : Option Nat} (a : Nat) (h : Memory.risingFrom lo m = true) :
    Memory.risingFrom lo (Memory.erase m a) = true := by
  induction m generalizing lo with
  | nil => rfl
  | cons c m ih =>
    obtain ⟨k, w⟩ := c
    rw [Memory.risingFrom_cons] at h
    rw [Memory.erase_cons]
    split
    · exact ih (Memory.risingFrom_mono h.1 h.2.2.2)
    · rw [Memory.risingFrom_cons]
      exact ⟨h.1, h.2.1, h.2.2.1, ih h.2.2.2⟩

theorem Memory.risingFrom_insert {m : Memory} {lo : Option Nat} {a : Nat} {v : Byte}
    (h : Memory.risingFrom lo m = true) (hlo : aboveBound lo a) (ha : a < 65536) (hv : v ≠ unlistedByte)
    (hne : ∀ c ∈ m, c.1 ≠ a) : Memory.risingFrom lo (Memory.insert m a v) = true := by
  induction m generalizing lo with
  | nil => exact (Memory.risingFrom_cons ..).2 ⟨hlo, ha, hv, rfl⟩
  | cons c m ih =>
    obtain ⟨k, w⟩ := c
    have hk : k ≠ a := hne (k, w) (by simp)
    rw [Memory.risingFrom_cons] at h
    rw [Memory.insert]
    split
    · rename_i hak
      rw [Memory.risingFrom_cons, Memory.risingFrom_cons]
      exact ⟨hlo, ha, hv, fun b hb => by cases hb; exact hak, h.2⟩
    · rename_i hak
      rw [Memory.risingFrom_cons]
      refine ⟨h.1, h.2.1, h.2.2.1, ih h.2.2.2 ?_ fun c hc => hne c (by simp [hc])⟩
      intro b hb
      cases hb
      omega

/-- A write inside the space keeps the canonical form. -/
theorem Memory.wf_write {m : Memory} (h : m.wf = true) {a : Nat} (ha : a < 65536) (v : Byte) :
    (m.write a v).wf = true := by
  unfold Memory.wf Memory.write
  split
  · exact Memory.risingFrom_erase a h
  · rename_i hv
    exact Memory.risingFrom_insert (Memory.risingFrom_erase a h) (fun _ hb => nomatch hb) ha hv
      fun c hc => (Memory.mem_erase hc).2

theorem addrsRisingFrom_cons (lo : Option Nat) (a : Nat) (l : List Nat) :
    addrsRisingFrom lo (a :: l) = true ↔ aboveBound lo a ∧ a < 65536 ∧ addrsRisingFrom (some a) l = true := by
  cases lo <;> simp [addrsRisingFrom, aboveBound, and_assoc]

/-- Recording a store keeps the record in canonical form. -/
theorem addrsRisingFrom_insertAddr {l : List Nat} {lo : Option Nat} {a : Nat}
    (h : addrsRisingFrom lo l = true) (hlo : aboveBound lo a) (ha : a < 65536) :
    addrsRisingFrom lo (insertAddr a l) = true := by
  induction l generalizing lo with
  | nil => exact (addrsRisingFrom_cons ..).2 ⟨hlo, ha, rfl⟩
  | cons b l ih =>
    have h' := h
    rw [addrsRisingFrom_cons] at h
    rw [insertAddr]
    split
    · rename_i hab
      rw [addrsRisingFrom_cons, addrsRisingFrom_cons]
      exact ⟨hlo, ha, fun c hc => by cases hc; exact hab, h.2⟩
    · split
      · exact h'
      · rename_i h1 h2
        rw [addrsRisingFrom_cons]
        refine ⟨h.1, h.2.1, ih h.2.2 ?_⟩
        intro c hc
        cases hc
        omega

@[simp] theorem mem_insertAddr (a b : Nat) (l : List Nat) : b ∈ insertAddr a l ↔ b = a ∨ b ∈ l := by
  induction l with
  | nil => simp [insertAddr]
  | cons c l ih =>
    rw [insertAddr]
    split
    · simp
    · split
      · rename_i h; subst h; simp
      · simp only [List.mem_cons, ih]; tauto

/-! One byte and one word of the state -/

theorem State.byteAt_putByte (s : State) (a b : Nat) (v : Byte) :
    (s.putByte a v).byteAt b = if b = a then v else s.byteAt b :=
  Memory.read_write s.mem a b v

theorem State.byteAt_putWord (s : State) (a : Word) (v : Word) (b : Nat) :
    (s.putWord a v).byteAt b =
      if b = a.toNat + 1 then oddByte s.build.byteOrder v
      else if b = a.toNat then evenByte s.build.byteOrder v else s.byteAt b := by
  rw [State.putWord, State.byteAt_putByte, State.byteAt_putByte]

@[simp] theorem joinBytes_even_odd (o : ByteOrder) (v : Word) : joinBytes o (evenByte o v) (oddByte o v) = v := by
  cases o <;> simp only [joinBytes, evenByte, oddByte] <;> ext i hi <;>
    simp only [BitVec.getElem_append, BitVec.getElem_extractLsb'] <;> split <;>
    simp_all [BitVec.getLsbD_eq_getElem]

@[simp] theorem evenByte_joinBytes (o : ByteOrder) (a b : Byte) : evenByte o (joinBytes o a b) = a := by
  cases o <;> simp only [joinBytes, evenByte] <;> ext i hi <;>
    simp only [BitVec.getElem_extractLsb', BitVec.getLsbD_append] <;> simp [BitVec.getLsbD_eq_getElem, hi]

@[simp] theorem oddByte_joinBytes (o : ByteOrder) (a b : Byte) : oddByte o (joinBytes o a b) = b := by
  cases o <;> simp only [joinBytes, oddByte] <;> ext i hi <;>
    simp only [BitVec.getElem_extractLsb', BitVec.getLsbD_append] <;> simp [BitVec.getLsbD_eq_getElem, hi]

@[simp] theorem State.putWord_build (s : State) (a v : Word) : (s.putWord a v).build = s.build := rfl
@[simp] theorem State.putWord_regs (s : State) (a v : Word) : (s.putWord a v).regs = s.regs := rfl
@[simp] theorem State.putWord_pc (s : State) (a v : Word) : (s.putWord a v).pc = s.pc := rfl
@[simp] theorem State.putWord_flags (s : State) (a v : Word) : (s.putWord a v).flags = s.flags := rfl
@[simp] theorem State.putWord_pfxValid (s : State) (a v : Word) : (s.putWord a v).pfxValid = s.pfxValid := rfl
@[simp] theorem State.putWord_pfx (s : State) (a v : Word) : (s.putWord a v).pfx = s.pfx := rfl
@[simp] theorem State.putWord_written (s : State) (a v : Word) :
    (s.putWord a v).written = insertAddr (a.toNat + 1) (insertAddr a.toNat s.written) := rfl
@[simp] theorem State.putWord_ivectors (s : State) (a v : Word) : (s.putWord a v).ivectors = s.ivectors := rfl
@[simp] theorem State.putWord_freeCount (s : State) (a v : Word) : (s.putWord a v).freeCount = s.freeCount := rfl
@[simp] theorem State.putWord_cycles (s : State) (a v : Word) : (s.putWord a v).cycles = s.cycles := rfl
@[simp] theorem State.reg_putWord (s : State) (a v : Word) (q : Reg) : (s.putWord a v).reg q = s.reg q := rfl
@[simp] theorem State.wordOk_putWord (s : State) (a v b : Word) : (s.putWord a v).wordOk b = s.wordOk b := rfl

/-- The word just stored is the word read back. -/
@[simp] theorem State.wordAt_putWord (s : State) (a v : Word) : (s.putWord a v).wordAt a = v := by
  simp [State.wordAt, State.byteAt_putWord]

end Sys2Proof.Machine
end

