-- ==== Sys2Proof/Laws/Ops.lean ====
section
/-! SUPPORT. For each shared operation one lemma that says once everything it can do: what it answers when its access
has a meaning, and that it answers a next state only then. -/

namespace Sys2Proof.Machine

variable {α β : Type}

/-- Two answers with the same next state are equal exactly when the states are. -/
theorem Res.next_eq_iff {a b : α} : (Host.Outcome.next a : Res α) = .next b ↔ b = a :=
  ⟨fun h => by cases h; rfl, fun h => by rw [h]⟩

@[simp] theorem Res.bind_next (a : α) (k : α → Res β) : Res.bind (.next a) k = k a := rfl
@[simp] theorem Res.bind_fault (f : Fault) (k : α → Res β) : Res.bind (.fault f) k = .fault f := rfl
@[simp] theorem Res.bind_refused (r : Refusal) (k : α → Res β) : Res.bind (.refused r) k = .refused r := rfl

/-- A sequence answers a value only through both of its parts. -/
theorem Res.bind_eq_next {x : Res α} {k : α → Res β} {b : β} :
    x.bind k = .next b ↔ ∃ a, x = .next a ∧ k a = .next b := by
  cases x <;> simp [Res.bind]

/-! ### Accesses -/

theorem State.checkWord_of_ok {s : State} {a : Word} (h : s.wordOk a = true) (k : Res α) : s.checkWord a k = k := by
  simp only [State.wordOk, Bool.and_eq_true, Bool.not_eq_true'] at h
  simp [State.checkWord, h.1, h.2]

theorem State.checkWord_eq_next {s : State} {a : Word} {k : Res α} {b : α} :
    s.checkWord a k = .next b ↔ s.wordOk a = true ∧ k = .next b := by
  cases h1 : isOdd a <;> cases h2 : mappedWord s.build a <;>
    simp [State.checkWord, State.wordOk, h1, h2]

theorem State.checkWord_odd {s : State} {a : Word} (h : isOdd a = true) (k : Res α) :
    s.checkWord a k = .refused .misalignedWordAccess := by
  simp [State.checkWord, h]

theorem State.checkWord_unmapped {s : State} {a : Word} (h : isOdd a = false) (hm : mappedWord s.build a = false)
    (k : Res α) : s.checkWord a k = .refused .unmappedAddress := by
  simp [State.checkWord, h, hm]

theorem State.readByte_unmapped {s : State} {a : Word} (h : s.byteOk a = false) :
    s.readByte a = .refused .unmappedAddress := by
  simp only [State.byteOk] at h
  simp [State.readByte, h]

theorem State.writeByte_unmapped {s : State} {a : Word} (h : s.byteOk a = false) (v : Byte) :
    s.writeByte a v = .refused .unmappedAddress := by
  simp only [State.byteOk] at h
  simp [State.writeByte, h]

theorem State.readWord_of_ok {s : State} {a : Word} (h : s.wordOk a = true) : s.readWord a = .next (s.wordAt a) :=
  State.checkWord_of_ok h _

theorem State.readWord_eq_next {s : State} {a v : Word} :
    s.readWord a = .next v ↔ s.wordOk a = true ∧ v = s.wordAt a := by
  rw [State.readWord, State.checkWord_eq_next, Res.next_eq_iff]

theorem State.readByte_of_ok {s : State} {a : Word} (h : s.byteOk a = true) :
    s.readByte a = .next (s.byteAt a.toNat) := by
  simp only [State.byteOk] at h
  simp [State.readByte, h]

theorem State.readByte_eq_next {s : State} {a : Word} {v : Byte} :
    s.readByte a = .next v ↔ s.byteOk a = true ∧ v = s.byteAt a.toNat := by
  unfold State.readByte State.byteOk
  split
  · rename_i h
    rw [Res.next_eq_iff, h, eq_self, true_and]
  · simp_all

theorem State.writeWord_of_ok {s : State} {a : Word} (h : s.wordOk a = true) (v : Word) :
    s.writeWord a v = .next (s.putWord a v) :=
  State.checkWord_of_ok h _

theorem State.writeWord_eq_next {s t : State} {a v : Word} :
    s.writeWord a v = .next t ↔ s.wordOk a = true ∧ t = s.putWord a v := by
  rw [State.writeWord, State.checkWord_eq_next, Res.next_eq_iff]

theorem State.writeByte_of_ok {s : State} {a : Word} (h : s.byteOk a = true) (v : Byte) :
    s.writeByte a v = .next (s.putByte a.toNat v) := by
  simp only [State.byteOk] at h
  simp [State.writeByte, h]

theorem State.writeByte_eq_next {s t : State} {a : Word} {v : Byte} :
    s.writeByte a v = .next t ↔ s.byteOk a = true ∧ t = s.putByte a.toNat v := by
  unfold State.writeByte State.byteOk
  split
  · rename_i h
    rw [Res.next_eq_iff, h, eq_self, true_and]
  · simp_all

/-! ### The stack -/

/-- The state after a push. -/
def State.pushed (s : State) (v : Word) : State := (s.setReg .r15 s.pushAddr).putWord s.pushAddr v

theorem State.push_of_ok {s : State} (h : s.wordOk s.pushAddr = true) (v : Word) : s.push v = .next (s.pushed v) :=
  State.writeWord_of_ok (s := s.setReg .r15 s.pushAddr) h v

theorem State.push_eq_next {s t : State} {v : Word} :
    s.push v = .next t ↔ s.wordOk s.pushAddr = true ∧ t = s.pushed v :=
  State.writeWord_eq_next (s := s.setReg .r15 s.pushAddr)

theorem State.pop_of_ok {s : State} (h : s.wordOk (s.reg .r15) = true) (k : Word → State → Res α) :
    s.pop k = k (s.wordAt (s.reg .r15)) (s.setReg .r15 (s.reg .r15 + 2#16)) := by
  rw [State.pop, State.readWord_of_ok h, Res.bind_next]

theorem State.pop_eq_next {s : State} {k : Word → State → Res α} {b : α} :
    s.pop k = .next b ↔ s.wordOk (s.reg .r15) = true ∧
      k (s.wordAt (s.reg .r15)) (s.setReg .r15 (s.reg .r15 + 2#16)) = .next b := by
  rw [State.pop, Res.bind_eq_next]
  constructor
  · rintro ⟨v, hv, hk⟩
    obtain ⟨h, rfl⟩ := State.readWord_eq_next.1 hv
    exact ⟨h, hk⟩
  · rintro ⟨h, hk⟩
    exact ⟨_, State.readWord_of_ok h, hk⟩

theorem State.callTo_eq_next {s t : State} {target : Word} :
    s.callTo target = .next t ↔ s.wordOk s.pushAddr = true ∧ t = (s.pushed s.npc).setPc target := by
  rw [State.callTo, Res.bind_eq_next]
  constructor
  · rintro ⟨s1, h, ht⟩
    obtain ⟨hok, rfl⟩ := State.push_eq_next.1 h
    cases ht
    exact ⟨hok, rfl⟩
  · rintro ⟨h, rfl⟩
    exact ⟨_, State.push_of_ok h _, rfl⟩

theorem State.returnWith_eq_next {s t : State} {ifl zfl cfl fd : Bool} :
    s.returnWith ifl zfl cfl fd = .next t ↔ s.wordOk (s.reg .r15) = true ∧
      t = ((s.setReg .r15 (s.reg .r15 + 2#16)).setPc (s.wordAt (s.reg .r15))).flagOp ifl zfl cfl fd := by
  rw [State.returnWith, State.pop_eq_next, Res.next_eq_iff]

/-! ### Loads and stores -/

theorem State.loadWord_eq_next {s t : State} {data : Reg} {ea : Word} :
    s.loadWord data ea = .next t ↔ s.wordOk ea = true ∧ t = (s.loadData data (s.wordAt ea)).advance := by
  rw [State.loadWord, Res.bind_eq_next]
  constructor
  · rintro ⟨v, h, ht⟩
    obtain ⟨hok, rfl⟩ := State.readWord_eq_next.1 h
    cases ht
    exact ⟨hok, rfl⟩
  · rintro ⟨h, rfl⟩
    exact ⟨_, State.readWord_of_ok h, rfl⟩

theorem State.loadByte_eq_next {s t : State} {data : Reg} {ea : Word} :
    s.loadByte data ea = .next t ↔ s.byteOk ea = true ∧
      t = (s.loadData data (withLowByte (s.reg data) (s.byteAt ea.toNat))).advance := by
  rw [State.loadByte, Res.bind_eq_next]
  constructor
  · rintro ⟨v, h, ht⟩
    obtain ⟨hok, rfl⟩ := State.readByte_eq_next.1 h
    cases ht
    exact ⟨hok, rfl⟩
  · rintro ⟨h, rfl⟩
    exact ⟨_, State.readByte_of_ok h, rfl⟩

@[simp] theorem State.afterStoreData_build (s : State) (d : Reg) : (s.afterStoreData d).build = s.build := by
  unfold State.afterStoreData; split <;> rfl
@[simp] theorem State.afterStoreData_mem (s : State) (d : Reg) : (s.afterStoreData d).mem = s.mem := by
  unfold State.afterStoreData; split <;> rfl

theorem State.storeWord_eq_next {s t : State} {data : Reg} {ea : Word} :
    s.storeWord data ea = .next t ↔ s.wordOk ea = true ∧
      t = ((s.afterStoreData data).putWord ea (s.storeData data)).advance := by
  rw [State.storeWord, Res.bind_eq_next]
  have hb : (s.afterStoreData data).wordOk ea = s.wordOk ea := by simp [State.wordOk]
  constructor
  · rintro ⟨s1, h, ht⟩
    obtain ⟨hok, rfl⟩ := State.writeWord_eq_next.1 h
    cases ht
    exact ⟨hb ▸ hok, rfl⟩
  · rintro ⟨h, rfl⟩
    exact ⟨_, State.writeWord_of_ok (hb.symm ▸ h) _, rfl⟩

theorem State.storeByte_eq_next {s t : State} {data : Reg} {ea : Word} :
    s.storeByte data ea = .next t ↔ s.byteOk ea = true ∧
      t = ((s.afterStoreData data).putByte ea.toNat ((s.storeData data).extractLsb' 0 8)).advance := by
  rw [State.storeByte, Res.bind_eq_next]
  have hb : (s.afterStoreData data).byteOk ea = s.byteOk ea := by simp [State.byteOk]
  constructor
  · rintro ⟨s1, h, ht⟩
    obtain ⟨hok, rfl⟩ := State.writeByte_eq_next.1 h
    cases ht
    exact ⟨hb ▸ hok, rfl⟩
  · rintro ⟨h, rfl⟩
    exact ⟨_, State.writeByte_of_ok (hb.symm ▸ h) _, rfl⟩

theorem State.needsUnit_eq_next {s t : State} {u : BuildUnit} {k : Res State} :
    s.needsUnit u k = .next t ↔ s.build.has u = true ∧ k = .next t := by
  unfold State.needsUnit
  split <;> simp_all

/-! ### Interrupt, reset, fetch, step -/

/-- The interrupt acknowledge sequence completes exactly when the stack slot and the table word can be accessed. -/
theorem State.iack_eq_next {s t : State} {v : BitVec 6} :
    s.iack v = .next t ↔
      ∃ u : State, u = { s with flags := { s.flags with IF := false }, pfxValid := false } ∧
        u.wordOk u.pushAddr = true ∧ u.wordOk (vectorAddr v) = true ∧
        t = (u.pushed s.pc).setPc ((u.pushed s.pc).wordAt (vectorAddr v)) := by
  rw [State.iack, Res.bind_eq_next]
  constructor
  · rintro ⟨s1, h, ht⟩
    obtain ⟨hok, rfl⟩ := State.push_eq_next.1 h
    obtain ⟨w, hread, ht⟩ := Res.bind_eq_next.1 ht
    obtain ⟨hw, rfl⟩ := State.readWord_eq_next.1 hread
    cases ht
    exact ⟨_, rfl, hok, hw, rfl⟩
  · rintro ⟨u, rfl, hok, hw, rfl⟩
    exact ⟨_, State.push_of_ok hok _, Res.bind_eq_next.2 ⟨_, State.readWord_of_ok hw, rfl⟩⟩

theorem State.fetchWord_eq_next {s : State} {w : Word} :
    s.fetchWord = .next w ↔ s.wordOk s.pc = true ∧ w = s.wordAt s.pc ∧
      (s.build.fetchSeesStores = .immediately ∨ s.fetchModified = false) := by
  rw [State.fetchWord, Res.bind_eq_next]
  constructor
  · rintro ⟨v, h, hk⟩
    obtain ⟨hok, rfl⟩ := State.readWord_eq_next.1 h
    cases hf : s.build.fetchSeesStores <;> cases hm : s.fetchModified <;> simp_all
  · rintro ⟨hok, rfl, h⟩
    refine ⟨_, State.readWord_of_ok hok, ?_⟩
    cases hf : s.build.fetchSeesStores <;> simp_all

theorem State.fetchInstr_eq_next {s : State} {i : Instr} :
    s.fetchInstr = .next i ↔ ∃ w, s.fetchWord = .next w ∧ decode s.build s.pending w = .ok i := by
  rw [State.fetchInstr, Res.bind_eq_next]
  refine exists_congr fun w => and_congr_right fun _ => ?_
  cases decode s.build s.pending w <;> simp

/-- A step is the interrupt acknowledge sequence or one decoded instruction, nothing else. -/
theorem step_eq_next {s t : State} :
    step s = .next t ↔
      (s.accepts = true ∧ (s.sampled.addCycles iackCycles).iack s.ivectorNow = .next t) ∨
      (s.accepts = false ∧ ∃ i, s.fetchInstr = .next i ∧ exec i (s.sampled.addCycles (instrCycles i)) = .next t) := by
  unfold step
  cases h : s.accepts
  · simp [Res.bind_eq_next]
  · simp

/-- The machine after the reset sequence over nothing loaded is State.reset. -/
theorem State.takeReset_reset : State.reset.takeReset = .next State.reset := rfl

end Sys2Proof.Machine
end

