-- ==== Sys2Proof/Laws/Decode.lean ====
section
/-! SUPPORT. The fields of an encoded word are what it was encoded from, so that decoding an encoded word needs no
reasoning about bits. -/

namespace Sys2Proof

@[simp] theorem Reg.ofBits_bits (r : Reg) : Reg.ofBits r.bits = r := by cases r <;> rfl
@[simp] theorem Cond.ofBits_bits (c : Cond) : Cond.ofBits c.bits = c := by cases c <;> rfl
@[simp] theorem Reg.bits_ofBits (n : Nibble) : (Reg.ofBits n).bits = n := by revert n; decide
@[simp] theorem Cond.bits_ofBits (n : Nibble) : (Cond.ofBits n).bits = n := by revert n; decide

theorem Reg.bits_eq_iff (r q : Reg) : r.bits = q.bits ↔ r = q :=
  ⟨fun h => by rw [← Reg.ofBits_bits r, h, Reg.ofBits_bits], fun h => by rw [h]⟩

theorem Cond.bits_eq_iff (c d : Cond) : c.bits = d.bits ↔ c = d :=
  ⟨fun h => by rw [← Cond.ofBits_bits c, h, Cond.ofBits_bits], fun h => by rw [h]⟩

theorem Reg.bits_ne_F {r : Reg} (h : r ≠ .r15) : r.bits ≠ 0xF#4 := by revert h; cases r <;> decide
theorem Cond.bits_ne_7 {c : Cond} (h : c ≠ .never) : c.bits ≠ 0x7#4 := by revert h; cases c <;> decide

section Fields

variable (op a b f : Nibble) (i : Byte)

@[simp] theorem fieldOp_word4 : fieldOp (word4 op a b f) = op := by
  unfold fieldOp word4; ext j hj; simp; grind
@[simp] theorem fieldA_word4 : fieldA (word4 op a b f) = a := by
  unfold fieldA word4; ext j hj; simp; grind
@[simp] theorem fieldB_word4 : fieldB (word4 op a b f) = b := by
  unfold fieldB word4; ext j hj; simp; grind
@[simp] theorem fieldF_word4 : fieldF (word4 op a b f) = f := by
  unfold fieldF word4; ext j hj; simp; grind
@[simp] theorem fieldOp_word8 : fieldOp (word8 op a i) = op := by
  unfold fieldOp word8; ext j hj; simp; grind
@[simp] theorem fieldA_word8 : fieldA (word8 op a i) = a := by
  unfold fieldA word8; ext j hj; simp; grind
@[simp] theorem fieldImm8_word8 : fieldImm8 (word8 op a i) = i := by
  unfold fieldImm8 word8; ext j hj; simp; grind

end Fields

@[simp] theorem isPrefix_prefixWord (p : Byte) : isPrefix (prefixWord p) = true := by
  revert p; decide +kernel
@[simp] theorem fieldImm8_prefixWord (p : Byte) : fieldImm8 (prefixWord p) = p := by
  rw [prefixWord, fieldImm8_word8]

@[simp] theorem getLsbD_zero_word4 (op a b f : Nibble) : (word4 op a b f).getLsbD 0 = f.getLsbD 0 := by
  unfold word4; simp only [BitVec.getLsbD_append]; simp

theorem flagBits_getLsbD (i z c d : Bool) :
    (flagBits i z c d).getLsbD 3 = i ∧ (flagBits i z c d).getLsbD 2 = z ∧ (flagBits i z c d).getLsbD 1 = c
      ∧ (flagBits i z c d).getLsbD 0 = d := by
  revert i z c d; decide

/-- The don't-care bits of RSV2. -/
theorem extractLsb'_rsv2 (op a b : Nibble) (x : BitVec 3) : (word4 op a b (x ++ 0#1)).extractLsb' 1 3 = x := by
  unfold word4; ext j hj; simp; grind

/-! The two-word formats -/

/-- The 16-bit immediate put together again (R57). -/
theorem longImm_encodeI16 (op a : Nibble) (imm : Word) :
    longImm (imm.extractLsb' 8 8) (word8 op a (imm.extractLsb' 0 8)) = imm := by
  rw [longImm, fieldImm8_word8]
  ext j hj
  simp only [BitVec.getElem_append, BitVec.getElem_extractLsb']
  grind

/-- The absolute target put together again (R59). -/
theorem absTarget_absWord (a : Nibble) (t : Word) (k : Bool) (h : t.getLsbD 0 = false) :
    absTarget (t.extractLsb' 8 8) (absWord a t k) = t := by
  unfold absTarget absWord
  ext j hj
  simp only [BitVec.getElem_append, BitVec.getElem_extractLsb', BitVec.getLsbD_append]
  rcases j with _ | j
  · simpa using h.symm
  · simp; grind

theorem absWord_fields (a : Nibble) (t : Word) (k : Bool) :
    fieldOp (absWord a t k) = 0x2#4 ∧ fieldA (absWord a t k) = a ∧ (absWord a t k).getLsbD 0 = k := by
  refine ⟨?_, ?_, ?_⟩
  · unfold fieldOp absWord; ext j hj; simp; grind
  · unfold fieldA absWord; ext j hj; simp; grind
  · unfold absWord; simp only [BitVec.getLsbD_append]; cases k <;> simp

/-- The displacement put together again (R58). -/
theorem longDisp_dispWord (b : Bool) (op : Nibble) (base data : Reg) (d : BitVec 11) :
    longDisp (BitVec.ofBool b ++ d.extractLsb' 5 6 ++ d.extractLsb' 0 1) (fieldF (dispWord op base data d)) = d := by
  rw [dispWord, fieldF_word4, longDisp]
  ext j hj
  simp only [BitVec.getElem_append, BitVec.getElem_extractLsb', BitVec.getLsbD_append, BitVec.getLsbD_extractLsb']
  grind

theorem dispWord_fields (op : Nibble) (base data : Reg) (d : BitVec 11) :
    fieldOp (dispWord op base data d) = op ∧ fieldA (dispWord op base data d) = base.bits
      ∧ fieldB (dispWord op base data d) = data.bits := by
  simp [dispWord]

/-- Payload bit 7 says whether the access is of a byte (R58). -/
theorem getLsbD_7_dispPayload (b : Bool) (d : BitVec 11) :
    (BitVec.ofBool b ++ d.extractLsb' 5 6 ++ d.extractLsb' 0 1).getLsbD 7 = b := by
  simp only [BitVec.getLsbD_append]; cases b <;> simp

theorem fields_4_4_7_1 (op k : Nibble) (a : BitVec 7) (x : BitVec 1) :
    fieldOp (op ++ k ++ a ++ x) = op ∧ fieldA (op ++ k ++ a ++ x) = k
      ∧ (op ++ k ++ a ++ x).extractLsb' 1 7 = a ∧ (op ++ k ++ a ++ x).getLsbD 0 = x.getLsbD 0 := by
  refine ⟨?_, ?_, ?_, ?_⟩
  · unfold fieldOp; ext j hj; simp; grind
  · unfold fieldA; ext j hj; simp; grind
  · ext j hj; simp; grind
  · simp only [BitVec.getLsbD_append]; simp

theorem fields_4_12 (op : Nibble) (rest : BitVec 12) :
    fieldOp (op ++ rest) = op ∧ (op ++ rest : Word).extractLsb' 0 12 = rest := by
  refine ⟨?_, ?_⟩
  · unfold fieldOp; ext j hj; simp; grind
  · ext j hj; simp; grind

/-- The prefix word by the fields of R51. -/
theorem isPrefix_eq (w : Word) : isPrefix w = (fieldOp w == 0x2#4 && fieldA w == 0x7#4) := by
  have h : w.extractLsb' 8 8 = fieldOp w ++ fieldA w := by
    unfold fieldOp fieldA; ext j hj; simp only [BitVec.getElem_extractLsb']; grind
  rw [isPrefix, h]
  generalize fieldOp w = a
  generalize fieldA w = b
  revert a b
  decide +kernel

end Sys2Proof
end

