-- ==== Sys2Proof/Laws/Exec.lean ====
section
/-! SUPPORT. What any instruction can do to PC, to memory and to the model's own fields, said once; what the branch and
stack instructions answer; the arithmetic of the flag computations. -/

namespace Sys2Proof.Machine

/-! ### PC -/

/-- Dropping bit 0 gives an even address. -/
theorem isOdd_masked (a : Word) : isOdd (a &&& 0xFFFE#16) = false := by
  simp [isOdd]

/-- Dropping bit 0 of an even address changes nothing. -/
theorem masked_of_even {a : Word} (h : isOdd a = false) : a &&& 0xFFFE#16 = a := by
  simp only [isOdd] at h
  ext i hi
  rcases i with _ | i
  · simp_all [BitVec.getLsbD_eq_getElem]
  · have key : ∀ j : Fin 15, (0xFFFE#16).getLsbD (j + 1) = true := by decide
    rw [BitVec.getElem_and, show (0xFFFE#16)[i + 1] = true from key ⟨i, by omega⟩, Bool.and_true]

/-- An address where a 16-bit access has a meaning is even. -/
theorem State.even_of_wordOk {s : State} {a : Word} (h : s.wordOk a = true) : isOdd a = false := by
  simp only [State.wordOk, Bool.and_eq_true, Bool.not_eq_true'] at h
  exact h.1

theorem getLsbD_zero_eq (a : Word) : (a.getLsbD 0).toNat = a.toNat % 2 := by
  rw [BitVec.getLsbD, Nat.testBit_zero]
  rcases Nat.mod_two_eq_zero_or_one a.toNat with h | h <;> simp [h]

theorem isOdd_eq_mod (a : Word) : (isOdd a).toNat = a.toNat % 2 := getLsbD_zero_eq a

/-- The word behind an even address is at an even address. -/
theorem even_add_two {a : Word} (h : isOdd a = false) : isOdd (a + 2#16) = false := by
  have h1 := isOdd_eq_mod a
  have h2 := isOdd_eq_mod (a + 2#16)
  rw [h] at h1
  rw [BitVec.toNat_add] at h2
  cases hn : isOdd (a + 2#16)
  · rfl
  · rw [hn] at h2
    simp at h1 h2
    omega

/-! ### Registers and the stack word after a push -/

theorem State.wordAt_pushed (s : State) (v : Word) : (s.pushed v).wordAt s.pushAddr = v :=
  State.wordAt_putWord _ _ _

theorem State.reg_pushed (s : State) (v : Word) (r : Reg) :
    (s.pushed v).reg r = if r = .r15 then s.pushAddr else s.reg r := by
  rw [State.pushed, State.reg_putWord, State.reg_setReg]

theorem State.pushAddr_add_two (s : State) : s.pushAddr + 2#16 = s.reg .r15 := by simp [State.pushAddr]

theorem execPushReg_of_ok {s : State} (n : Reg) (h : s.wordOk s.pushAddr = true) :
    execPushReg n s = .next (s.pushed (s.reg n)).advance := by
  rw [execPushReg, State.push_of_ok h, Res.bind_next]

theorem execPushFlag_of_ok {s : State} (h : s.wordOk s.pushAddr = true) :
    execPushFlag s = .next (s.drew.pushed s.flagWord).advance := by
  rw [execPushFlag, State.push_of_ok (s := s.drew) h, Res.bind_next]

theorem execPopReg_of_ok {s : State} (n : Reg) (h : s.wordOk (s.reg .r15) = true) :
    execPopReg n s = .next ((s.setReg .r15 (s.reg .r15 + 2#16)).setReg n (s.wordAt (s.reg .r15))).advance := by
  rw [execPopReg, State.pop_of_ok h]

theorem execPopFlag_of_ok {s : State} (h : s.wordOk (s.reg .r15) = true) :
    execPopFlag s = .next ((s.setReg .r15 (s.reg .r15 + 2#16)).loadFlags (s.wordAt (s.reg .r15))).advance := by
  rw [execPopFlag, State.pop_of_ok h]

/-! ### Flag computations -/

/-- Bit 15 is set from 32768 up. -/
theorem getLsbD_15_eq (a : Word) : a.getLsbD 15 = decide (32768 ≤ a.toNat) := by
  simpa [BitVec.msb, BitVec.getMsbD] using BitVec.msb_eq_decide a

/-- The signed value of a word by its unsigned value. -/
theorem toInt_eq_ite (a : Word) : a.toInt = if a.toNat < 32768 then (a.toNat : Int) else a.toNat - 65536 := by
  rw [BitVec.toInt_eq_toNat_cond]
  simp only [Nat.reducePow]
  split <;> split <;> omega

theorem addc_toNat (a b : Word) (c : Bool) : (addc a b c).r.toNat = (a.toNat + b.toNat + c.toNat) % 65536 := by
  simp [addc]

theorem addc_carry (a b : Word) (c : Bool) :
    (addc a b c).carry = true ↔ 65536 ≤ a.toNat + b.toNat + c.toNat := by
  simp [addc]

/-- The overflow of an addition: the signed sum does not fit. -/
theorem addc_ovf (a b : Word) (c : Bool) :
    (addc a b c).ovf = true ↔ a.toInt + b.toInt + c.toNat < -32768 ∨ 32767 < a.toInt + b.toInt + c.toNat := by
  rw [show (addc a b c).ovf = ((a.getLsbD 15 == b.getLsbD 15) && ((addc a b c).r.getLsbD 15 != a.getLsbD 15))
    from rfl, getLsbD_15_eq, getLsbD_15_eq, getLsbD_15_eq, addc_toNat, toInt_eq_ite, toInt_eq_ite]
  have ha := a.isLt
  have hb := b.isLt
  have hc : c.toNat ≤ 1 := by cases c <;> simp
  simp only [Bool.and_eq_true, beq_iff_eq, bne_iff_ne, ne_eq, decide_eq_decide]
  split <;> split <;> omega

theorem subb_toNat (a b : Word) (c : Bool) :
    ((subb a b c).r.toNat : Int) = ((a.toNat : Int) - b.toNat - c.toNat) % 65536 := by
  simp only [subb, BitVec.toNat_ofInt]
  omega

theorem subb_carry (a b : Word) (c : Bool) : (subb a b c).carry = true ↔ a.toNat < b.toNat + c.toNat := by
  simp only [subb, decide_eq_true_eq]
  omega

/-- The overflow of a subtraction: the signed difference does not fit. -/
theorem subb_ovf (a b : Word) (c : Bool) :
    (subb a b c).ovf = true ↔ a.toInt - b.toInt - c.toNat < -32768 ∨ 32767 < a.toInt - b.toInt - c.toNat := by
  have hr := subb_toNat a b c
  rw [show (subb a b c).ovf = ((a.getLsbD 15 != b.getLsbD 15) && ((subb a b c).r.getLsbD 15 != a.getLsbD 15))
    from rfl, getLsbD_15_eq, getLsbD_15_eq, getLsbD_15_eq, toInt_eq_ite, toInt_eq_ite]
  have ha := a.isLt
  have hb := b.isLt
  have hc : c.toNat ≤ 1 := by cases c <;> simp
  simp only [Bool.and_eq_true, bne_iff_ne, ne_eq, decide_eq_decide]
  split <;> split <;> omega

/-! ### Any instruction -/

/-- Memory and the record of stores: unchanged, or one word at an even address stored, or one byte stored. -/
def MemEffect (s t : State) : Prop :=
  (t.mem = s.mem ∧ t.written = s.written) ∨
  (∃ a v : Word, isOdd a = false ∧ t.mem = (s.putWord a v).mem ∧ t.written = (s.putWord a v).written) ∨
  (∃ (a : Word) (v : Byte), t.mem = (s.putByte a.toNat v).mem ∧ t.written = (s.putByte a.toNat v).written)

/-- What holds of the next state of every instruction and of the interrupt acknowledge sequence. -/
structure Effect (s t : State) : Prop where
  even : isOdd t.pc = false
  build : t.build = s.build
  ivectors : t.ivectors = s.ivectors
  cycles : t.cycles = s.cycles
  freeCount : s.freeCount ≤ t.freeCount
  mem : MemEffect s t

/-- The second word of a two-word instruction acts with the prefix used up, which is none of an effect's business. -/
theorem Effect.ofEndPrefix {s t : State} (h : Effect s.endPrefix t) : Effect s t :=
  ⟨h.even, h.build, h.ivectors, h.cycles, h.freeCount, h.mem⟩

theorem Effect.logicTo (s : State) (ra : Reg) (r : Word) : Effect s (s.logicTo ra r) :=
  ⟨isOdd_masked _, rfl, rfl, rfl, by simp [State.logicTo], .inl ⟨rfl, rfl⟩⟩

theorem Effect.logicTest (s : State) (r : Word) : Effect s (s.logicTest r) :=
  ⟨isOdd_masked _, rfl, rfl, rfl, by simp [State.logicTest], .inl ⟨rfl, rfl⟩⟩

theorem Effect.shiftTo (s : State) (ra : Reg) (top : Bool) : Effect s (s.shiftTo ra top) :=
  ⟨isOdd_masked _, rfl, rfl, rfl, by simp [State.shiftTo], .inl ⟨rfl, rfl⟩⟩

theorem Effect.branchIf (s : State) (taken : Bool) (target : Word) : Effect s (s.branchIf taken target) := by
  cases taken <;> exact ⟨isOdd_masked _, rfl, rfl, rfl, Nat.le_refl _, .inl ⟨rfl, rfl⟩⟩

theorem Effect.loadData (s : State) (d : Reg) (v : Word) : Effect s (s.loadData d v).advance := by
  unfold State.loadData
  split <;> exact ⟨isOdd_masked _, rfl, rfl, rfl, Nat.le_refl _, .inl ⟨rfl, rfl⟩⟩

theorem Effect.storeWord {s t : State} {d : Reg} {ea : Word} (h : s.storeWord d ea = .next t) : Effect s t := by
  obtain ⟨hok, rfl⟩ := State.storeWord_eq_next.1 h
  unfold State.afterStoreData
  split <;> exact ⟨isOdd_masked _, rfl, rfl, rfl, by simp, .inr (.inl ⟨ea, _, State.even_of_wordOk hok, rfl, rfl⟩)⟩

theorem Effect.storeByte {s t : State} {d : Reg} {ea : Word} (h : s.storeByte d ea = .next t) : Effect s t := by
  obtain ⟨_, rfl⟩ := State.storeByte_eq_next.1 h
  unfold State.afterStoreData
  split <;> exact ⟨isOdd_masked _, rfl, rfl, rfl, by simp, .inr (.inr ⟨ea, _, rfl, rfl⟩)⟩

theorem Effect.callTo {s t : State} {target : Word} (h : s.callTo target = .next t) : Effect s t := by
  obtain ⟨hok, rfl⟩ := State.callTo_eq_next.1 h
  exact ⟨isOdd_masked _, rfl, rfl, rfl, Nat.le_refl _, .inr (.inl ⟨_, _, State.even_of_wordOk hok, rfl, rfl⟩)⟩

theorem Effect.returnWith {s t : State} {i z c d : Bool} (h : s.returnWith i z c d = .next t) : Effect s t := by
  obtain ⟨_, rfl⟩ := State.returnWith_eq_next.1 h
  exact ⟨isOdd_masked _, rfl, rfl, rfl, Nat.le_refl _, .inl ⟨rfl, rfl⟩⟩

theorem Effect.iack {s t : State} {v : BitVec 6} (h : s.iack v = .next t) : Effect s t := by
  obtain ⟨u, rfl, hok, _, rfl⟩ := State.iack_eq_next.1 h
  exact ⟨isOdd_masked _, rfl, rfl, rfl, Nat.le_refl _, .inr (.inl ⟨_, _, State.even_of_wordOk hok, rfl, rfl⟩)⟩

/-- Every instruction's next state. -/
theorem exec_effect {i : Instr} {s t : State} (h : exec i s = .next t) : Effect s t := by
  cases i
  case ret | retCli | retSti | retFlag => exact Effect.returnWith h
  case jsr => exact Effect.callTo h
  case jsrAbs => exact (Effect.callTo h).ofEndPrefix
  case stm => exact Effect.storeWord h
  case stmw => exact (Effect.storeWord h).ofEndPrefix
  case stmb => exact (Effect.storeByte (State.needsUnit_eq_next.1 h).2).ofEndPrefix
  case ldm =>
    obtain ⟨_, rfl⟩ := State.loadWord_eq_next.1 h
    exact Effect.loadData ..
  case ldmw =>
    obtain ⟨_, rfl⟩ := State.loadWord_eq_next.1 h
    exact (Effect.loadData ..).ofEndPrefix
  case ldmb =>
    obtain ⟨_, rfl⟩ := State.loadByte_eq_next.1 (State.needsUnit_eq_next.1 h).2
    exact (Effect.loadData ..).ofEndPrefix
  case pushReg | pushFlag =>
    obtain ⟨s1, h1, ht⟩ := Res.bind_eq_next.1 h
    obtain ⟨hok, rfl⟩ := State.push_eq_next.1 h1
    cases ht
    exact ⟨isOdd_masked _, rfl, rfl, rfl, by simp [State.pushed],
      .inr (.inl ⟨_, _, State.even_of_wordOk hok, rfl, rfl⟩)⟩
  case popReg | popFlag =>
    simp only [exec, execPopReg, execPopFlag, State.pop_eq_next] at h
    obtain ⟨_, ht⟩ := h
    cases ht
    exact ⟨isOdd_masked _, rfl, rfl, rfl, Nat.le_refl _, .inl ⟨rfl, rfl⟩⟩
  case bcc | jcc => cases h; exact Effect.branchIf ..
  case jccAbs => cases h; exact (Effect.branchIf ..).ofEndPrefix
  case asr | shr => cases (State.needsUnit_eq_next.1 h).2; exact Effect.shiftTo ..
  case mltRR | mltI8 | mlhRR | mlhI8 => cases (State.needsUnit_eq_next.1 h).2; exact Effect.logicTo ..
  case mltI16 | mlhI16 => cases (State.needsUnit_eq_next.1 h).2; exact (Effect.logicTo ..).ofEndPrefix
  case andRR | orRR | xorRR | movRR | andI8 | orI8 | xorI8 | movI8 => cases h; exact Effect.logicTo ..
  case andI16 | orI16 | xorI16 | movI16 => cases h; exact (Effect.logicTo ..).ofEndPrefix
  case tstRR | tstI8 => cases h; exact Effect.logicTest ..
  case tstI16 => cases h; exact (Effect.logicTest ..).ofEndPrefix
  case rsv1 | rsv2 | rsv3 | rsv4 | rsv5 | rsv6 | rsv7 => cases h
  all_goals
    cases h
    exact ⟨isOdd_masked _, rfl, rfl, rfl, Nat.le_refl _, .inl ⟨rfl, rfl⟩⟩

/-- What an effect does to one byte: it stands in the record of stores afterwards if it has changed. -/
theorem MemEffect.changed {s t : State} (h : MemEffect s t) {a : Nat} (ha : t.byteAt a ≠ s.byteAt a) :
    a ∈ t.written := by
  rcases h with ⟨hm, _⟩ | ⟨b, v, _, hm, hw⟩ | ⟨b, v, hm, hw⟩
  · exact absurd (congrArg (Memory.read · a) hm) ha
  · rw [State.byteAt, hm] at ha
    have hb := State.byteAt_putWord s b v a
    rw [State.byteAt] at hb
    rw [hb] at ha
    rw [hw]
    simp only [State.putWord_written, mem_insertAddr]
    split at ha
    · exact .inl ‹_›
    · split at ha
      · exact .inr (.inl ‹_›)
      · exact absurd rfl ha
  · rw [State.byteAt, hm] at ha
    have hb := State.byteAt_putByte s b.toNat a v
    rw [State.byteAt] at hb
    rw [hb] at ha
    rw [hw]
    split at ha
    · exact (mem_insertAddr ..).2 (.inl ‹_›)
    · exact absurd rfl ha

theorem MemEffect.kept {s t : State} (h : MemEffect s t) {a : Nat} (ha : a ∈ s.written) : a ∈ t.written := by
  rcases h with ⟨_, hw⟩ | ⟨b, v, _, _, hw⟩ | ⟨b, v, _, hw⟩ <;> rw [hw]
  · exact ha
  · simp [ha]
  · exact (mem_insertAddr ..).2 (.inr ha)

/-- Memory and the record of stores keep their canonical forms. -/
theorem MemEffect.wf {s t : State} (h : MemEffect s t) (hm : s.mem.wf = true)
    (hw : addrsRisingFrom none s.written = true) : t.mem.wf = true ∧ addrsRisingFrom none t.written = true := by
  have nb : ∀ a, aboveBound none a := fun _ _ h => nomatch h
  rcases h with ⟨h1, h2⟩ | ⟨b, v, ho, h1, h2⟩ | ⟨b, v, h1, h2⟩ <;> rw [h1, h2]
  · exact ⟨hm, hw⟩
  · have hb := b.isLt
    have hb2 := isOdd_eq_mod b
    rw [ho] at hb2
    have h3 : b.toNat + 1 < 65536 := by simp at hb2; omega
    exact ⟨Memory.wf_write (Memory.wf_write hm hb _) h3 _,
      addrsRisingFrom_insertAddr (addrsRisingFrom_insertAddr hw (nb _) hb) (nb _) h3⟩
  · exact ⟨Memory.wf_write hm b.isLt _, addrsRisingFrom_insertAddr hw (nb _) b.isLt⟩

end Sys2Proof.Machine
end

