-- ==== Sys2Proof/Laws/PerInstr.lean ====
section
/-! SUPPORT. Facts about every instruction as syntax, one lemma per constructor. -/

namespace Sys2Proof.Laws

/-- An instruction encodes to as many words as it has (R50). -/
def EncodeLength.Statement (i : Instr) : Prop :=
  ∀ c : Config, (encode c i).length = Machine.instrWords i

theorem EncodeLength.ret : EncodeLength.Statement .ret := fun _ => rfl
theorem EncodeLength.retCli : EncodeLength.Statement .retCli := fun _ => rfl
theorem EncodeLength.retSti : EncodeLength.Statement .retSti := fun _ => rfl
theorem EncodeLength.retFlag : ∀ ifl zfl cfl fd, EncodeLength.Statement (.retFlag ifl zfl cfl fd) := by
  intros; intro c; rfl
theorem EncodeLength.popFlag : EncodeLength.Statement .popFlag := fun _ => rfl
theorem EncodeLength.popReg : ∀ n, EncodeLength.Statement (.popReg n) := by
  intros; intro c; rfl
theorem EncodeLength.ldm : ∀ data base p, EncodeLength.Statement (.ldm data base p) := by
  intros; intro c; rfl
theorem EncodeLength.pushFlag : EncodeLength.Statement .pushFlag := fun _ => rfl
theorem EncodeLength.pushReg : ∀ n, EncodeLength.Statement (.pushReg n) := by
  intros; intro c; rfl
theorem EncodeLength.rsv2 : ∀ b x, EncodeLength.Statement (.rsv2 b x) := by
  intros; intro c; rfl
theorem EncodeLength.stm : ∀ base p data, EncodeLength.Statement (.stm base p data) := by
  intros; intro c; rfl
theorem EncodeLength.pfx : ∀ payload, EncodeLength.Statement (.pfx payload) := by
  intros; intro c; rfl
theorem EncodeLength.bcc : ∀ cond rel, EncodeLength.Statement (.bcc cond rel) := by
  intros; intro c; rfl
theorem EncodeLength.nop : EncodeLength.Statement .nop := fun _ => rfl
theorem EncodeLength.clc : EncodeLength.Statement .clc := fun _ => rfl
theorem EncodeLength.stc : EncodeLength.Statement .stc := fun _ => rfl
theorem EncodeLength.clz : EncodeLength.Statement .clz := fun _ => rfl
theorem EncodeLength.stz : EncodeLength.Statement .stz := fun _ => rfl
theorem EncodeLength.cli : EncodeLength.Statement .cli := fun _ => rfl
theorem EncodeLength.sti : EncodeLength.Statement .sti := fun _ => rfl
theorem EncodeLength.flagop : ∀ ifl zfl cfl fd, EncodeLength.Statement (.flagop ifl zfl cfl fd) := by
  intros; intro c; rfl
theorem EncodeLength.rsv1 : ∀ a b, EncodeLength.Statement (.rsv1 a b) := by
  intros; intro c; rfl
theorem EncodeLength.asr : ∀ ra, EncodeLength.Statement (.asr ra) := by
  intros; intro c; rfl
theorem EncodeLength.shr : ∀ ra, EncodeLength.Statement (.shr ra) := by
  intros; intro c; rfl
theorem EncodeLength.rsv4 : ∀ a smod, EncodeLength.Statement (.rsv4 a smod) := by
  intros; intro c; rfl
theorem EncodeLength.jcc : ∀ cond rb, EncodeLength.Statement (.jcc cond rb) := by
  intros; intro c; rfl
theorem EncodeLength.jsr : ∀ rb, EncodeLength.Statement (.jsr rb) := by
  intros; intro c; rfl
theorem EncodeLength.rsv3 : ∀ a b, EncodeLength.Statement (.rsv3 a b) := by
  intros; intro c; rfl
theorem EncodeLength.andRR : ∀ ra rb, EncodeLength.Statement (.andRR ra rb) := by
  intros; intro c; rfl
theorem EncodeLength.orRR : ∀ ra rb, EncodeLength.Statement (.orRR ra rb) := by
  intros; intro c; rfl
theorem EncodeLength.xorRR : ∀ ra rb, EncodeLength.Statement (.xorRR ra rb) := by
  intros; intro c; rfl
theorem EncodeLength.movRR : ∀ ra rb, EncodeLength.Statement (.movRR ra rb) := by
  intros; intro c; rfl
theorem EncodeLength.addRR : ∀ ra rb, EncodeLength.Statement (.addRR ra rb) := by
  intros; intro c; rfl
theorem EncodeLength.subRR : ∀ ra rb, EncodeLength.Statement (.subRR ra rb) := by
  intros; intro c; rfl
theorem EncodeLength.adcRR : ∀ ra rb, EncodeLength.Statement (.adcRR ra rb) := by
  intros; intro c; rfl
theorem EncodeLength.sbcRR : ∀ ra rb, EncodeLength.Statement (.sbcRR ra rb) := by
  intros; intro c; rfl
theorem EncodeLength.tstRR : ∀ ra rb, EncodeLength.Statement (.tstRR ra rb) := by
  intros; intro c; rfl
theorem EncodeLength.cmpRR : ∀ ra rb, EncodeLength.Statement (.cmpRR ra rb) := by
  intros; intro c; rfl
theorem EncodeLength.mltRR : ∀ ra rb, EncodeLength.Statement (.mltRR ra rb) := by
  intros; intro c; rfl
theorem EncodeLength.mlhRR : ∀ ra rb, EncodeLength.Statement (.mlhRR ra rb) := by
  intros; intro c; rfl
theorem EncodeLength.andI8 : ∀ ra imm, EncodeLength.Statement (.andI8 ra imm) := by
  intros; intro c; rfl
theorem EncodeLength.orI8 : ∀ ra imm, EncodeLength.Statement (.orI8 ra imm) := by
  intros; intro c; rfl
theorem EncodeLength.xorI8 : ∀ ra imm, EncodeLength.Statement (.xorI8 ra imm) := by
  intros; intro c; rfl
theorem EncodeLength.movI8 : ∀ ra imm, EncodeLength.Statement (.movI8 ra imm) := by
  intros; intro c; rfl
theorem EncodeLength.addI8 : ∀ ra imm, EncodeLength.Statement (.addI8 ra imm) := by
  intros; intro c; rfl
theorem EncodeLength.subI8 : ∀ ra imm, EncodeLength.Statement (.subI8 ra imm) := by
  intros; intro c; rfl
theorem EncodeLength.adcI8 : ∀ ra imm, EncodeLength.Statement (.adcI8 ra imm) := by
  intros; intro c; rfl
theorem EncodeLength.sbcI8 : ∀ ra imm, EncodeLength.Statement (.sbcI8 ra imm) := by
  intros; intro c; rfl
theorem EncodeLength.tstI8 : ∀ ra imm, EncodeLength.Statement (.tstI8 ra imm) := by
  intros; intro c; rfl
theorem EncodeLength.cmpI8 : ∀ ra imm, EncodeLength.Statement (.cmpI8 ra imm) := by
  intros; intro c; rfl
theorem EncodeLength.mltI8 : ∀ ra imm, EncodeLength.Statement (.mltI8 ra imm) := by
  intros; intro c; rfl
theorem EncodeLength.mlhI8 : ∀ ra imm, EncodeLength.Statement (.mlhI8 ra imm) := by
  intros; intro c; rfl
theorem EncodeLength.ldmb : ∀ data base disp, EncodeLength.Statement (.ldmb data base disp) := by
  intros; intro c; rfl
theorem EncodeLength.ldmw : ∀ data base disp, EncodeLength.Statement (.ldmw data base disp) := by
  intros; intro c; rfl
theorem EncodeLength.stmb : ∀ base disp data, EncodeLength.Statement (.stmb base disp data) := by
  intros; intro c; rfl
theorem EncodeLength.stmw : ∀ base disp data, EncodeLength.Statement (.stmw base disp data) := by
  intros; intro c; rfl
theorem EncodeLength.jsrAbs : ∀ target, EncodeLength.Statement (.jsrAbs target) := by
  intros; intro c; rfl
theorem EncodeLength.rsv6 : ∀ payload c a, EncodeLength.Statement (.rsv6 payload c a) := by
  intros; intro c; rfl
theorem EncodeLength.rsv7 : ∀ payload a, EncodeLength.Statement (.rsv7 payload a) := by
  intros; intro c; rfl
theorem EncodeLength.jccAbs : ∀ cond target, EncodeLength.Statement (.jccAbs cond target) := by
  intros; intro c; rfl
theorem EncodeLength.rsv5 : ∀ payload rest, EncodeLength.Statement (.rsv5 payload rest) := by
  intros; intro c; rfl
theorem EncodeLength.andI16 : ∀ ra imm, EncodeLength.Statement (.andI16 ra imm) := by
  intros; intro c; rfl
theorem EncodeLength.orI16 : ∀ ra imm, EncodeLength.Statement (.orI16 ra imm) := by
  intros; intro c; rfl
theorem EncodeLength.xorI16 : ∀ ra imm, EncodeLength.Statement (.xorI16 ra imm) := by
  intros; intro c; rfl
theorem EncodeLength.movI16 : ∀ ra imm, EncodeLength.Statement (.movI16 ra imm) := by
  intros; intro c; rfl
theorem EncodeLength.addI16 : ∀ ra imm, EncodeLength.Statement (.addI16 ra imm) := by
  intros; intro c; rfl
theorem EncodeLength.subI16 : ∀ ra imm, EncodeLength.Statement (.subI16 ra imm) := by
  intros; intro c; rfl
theorem EncodeLength.adcI16 : ∀ ra imm, EncodeLength.Statement (.adcI16 ra imm) := by
  intros; intro c; rfl
theorem EncodeLength.sbcI16 : ∀ ra imm, EncodeLength.Statement (.sbcI16 ra imm) := by
  intros; intro c; rfl
theorem EncodeLength.tstI16 : ∀ ra imm, EncodeLength.Statement (.tstI16 ra imm) := by
  intros; intro c; rfl
theorem EncodeLength.cmpI16 : ∀ ra imm, EncodeLength.Statement (.cmpI16 ra imm) := by
  intros; intro c; rfl
theorem EncodeLength.mltI16 : ∀ ra imm, EncodeLength.Statement (.mltI16 ra imm) := by
  intros; intro c; rfl
theorem EncodeLength.mlhI16 : ∀ ra imm, EncodeLength.Statement (.mlhI16 ra imm) := by
  intros; intro c; rfl

end Sys2Proof.Laws
end

