-- ==== Sys2Proof/Tests/Slice0.lean ====
section
/-! SUPPORT. The model's own tests. Words and results are those of spec/95_test_vectors.md unless a comment says
otherwise. Then the witnesses: a concrete state that meets the hypotheses of each statement that has some. -/

namespace Sys2Proof.Tests

open Sys2Proof Sys2Proof.Machine Sys2Proof.Claims

-- The kernel evaluates every test, and each would hold a thread of its own while it waits for the kernel.
set_option Elab.async false

/-! ### WellFormed: one ill-formed term for each check -/

/-- A build with no optional unit. -/
def bare : Config := { Config.standard with hasShift := false, hasMlt := false, hasMlh := false, hasByte := false }

theorem test_wf_retFlag_unnamed : Instr.wf Config.standard (.retFlag true false false true) = false := by decide
theorem test_wf_popReg_r15 : Instr.wf Config.standard (.popReg .r15) = false := by decide
theorem test_wf_pushReg_r15 : Instr.wf Config.standard (.pushReg .r15) = false := by decide
theorem test_wf_ldm_base : Instr.wf Config.standard (.ldm .r1 .r15 0x2#4) = false := by decide
theorem test_wf_stm_base : Instr.wf Config.standard (.stm .r15 0x2#4 .r1) = false := by decide
theorem test_wf_bcc_never : Instr.wf Config.standard (.bcc .never 0x05#8) = false := by decide
theorem test_wf_flagop_one : Instr.wf Config.standard (.flagop false true false true) = false := by decide
theorem test_wf_rsv1_F : Instr.wf Config.standard (.rsv1 0xF#4 0x0#4) = false := by decide
theorem test_wf_rsv3_F : Instr.wf Config.standard (.rsv3 0xF#4 0x2#4) = false := by decide
theorem test_wf_rsv4_zero : Instr.wf Config.standard (.rsv4 0x1#4 0x0#4) = false := by decide
theorem test_wf_rsv4_sm : Instr.wf Config.standard (.rsv4 0x1#4 0x1#4) = false := by decide
theorem test_wf_jsrAbs_odd : Instr.wf Config.standard (.jsrAbs 0x0121#16) = false := by decide
theorem test_wf_jccAbs_never : Instr.wf Config.standard (.jccAbs .never 0x0040#16) = false := by decide
theorem test_wf_jccAbs_odd : Instr.wf Config.standard (.jccAbs .eq 0x0041#16) = false := by decide
theorem test_wf_rsv6_F : Instr.wf Config.standard (.rsv6 0x00#8 0xF#4 0x00#7) = false := by decide
theorem test_wf_absent_shift : Instr.wf bare (.shr .r0) = false := by decide
theorem test_wf_absent_mlt : Instr.wf bare (.mltRR .r1 .r2) = false := by decide
theorem test_wf_absent_mlh : Instr.wf bare (.mlhI8 .r1 0x2B#8) = false := by decide
theorem test_wf_absent_byte : Instr.wf bare (.stmb .r2 0x009#11 .r1) = false := by decide
/-- RSV4 by another SM bit: 0001 is reserved where SM is bit 5 (R120). -/
theorem test_wf_rsv4_other_sm : Instr.wf { Config.standard with smBit := .bit5 } (.rsv4 0x1#4 0x1#4) = true := by decide

/-! ### Decode: a written-out word of every constructor (section 2.1) -/

/-- The word decodes to the instruction in the standard build. -/
def decodesTo (p : Option Byte) (w : Word) (i : Instr) : Bool :=
  match decode Config.standard p w with
  | .ok j => j == i
  | .error _ => false

theorem test_decode_system : [decodesTo none 0x3F00#16 .nop, decodesTo none 0x3F10#16 .nop,
    decodesTo none 0x3F20#16 .clc, decodesTo none 0x3F30#16 .stc, decodesTo none 0x3F40#16 .clz,
    decodesTo none 0x3F50#16 .stz, decodesTo none 0x3F80#16 .cli, decodesTo none 0x3F90#16 .sti,
    decodesTo none 0x3F60#16 (.flagop false true true false), decodesTo none 0x3FF0#16 (.flagop true true true true)]
    = List.replicate 10 true := by decide +kernel

theorem test_decode_branch : [decodesTo none 0x2105#16 (.bcc .eq 0x05#8), decodesTo none 0x2180#16 (.bcc .eq 0x80#8),
    decodesTo none 0x29FD#16 (.bcc .ne 0xFD#8), decodesTo none 0x2FFF#16 (.bcc .always 0xFF#8),
    decodesTo none 0x2005#16 (.bcc .cs 0x05#8), decodesTo none 0x2E05#16 (.bcc .gt 0x05#8),
    decodesTo none 0x3F32#16 (.jcc .always .r3), decodesTo none 0x3132#16 (.jcc .eq .r3),
    decodesTo none 0x3E32#16 (.jcc .gt .r3), decodesTo none 0x3F23#16 (.jsr .r2)]
    = List.replicate 10 true := by decide +kernel

/-- RET by R96 to R99; 0F60 is RET with CLZ and CLC. -/
theorem test_decode_return_stack : [decodesTo none 0x0F00#16 .ret, decodesTo none 0x0F80#16 .retCli,
    decodesTo none 0x0F90#16 .retSti, decodesTo none 0x0F60#16 (.retFlag false true true false),
    decodesTo none 0x1F01#16 (.pushReg .r0), decodesTo none 0x1FE1#16 (.pushReg .r14),
    decodesTo none 0x1FF1#16 .pushFlag, decodesTo none 0x0F01#16 (.popReg .r0),
    decodesTo none 0x0F0F#16 (.popReg .r0), decodesTo none 0x0FF1#16 .popFlag]
    = List.replicate 10 true := by decide +kernel

theorem test_decode_shift_short_memory : [decodesTo none 0x3101#16 (.asr .r1), decodesTo none 0x3011#16 (.shr .r0),
    decodesTo none 0x0212#16 (.ldm .r1 .r2 0x2#4), decodesTo none 0x0E5F#16 (.ldm .r5 .r14 0xF#4),
    decodesTo none 0x1202#16 (.stm .r2 0x2#4 .r0), decodesTo none 0x10F0#16 (.stm .r0 0x0#4 .r15),
    decodesTo none 0x2712#16 (.pfx 0x12#8), decodesTo none 0x2700#16 (.pfx 0x00#8)]
    = List.replicate 8 true := by decide +kernel

theorem test_decode_long_memory : [decodesTo (some 0x7E#8) 0x021F#16 (.ldmw .r1 .r2 0x7FE#11),
    decodesTo (some 0x3F#8) 0x034F#16 (.ldmw .r4 .r3 0x3FF#11),
    decodesTo (some 0x00#8) 0x0218#16 (.ldmw .r1 .r2 0x010#11),
    decodesTo (some 0x02#8) 0x1F40#16 (.stmw .r15 0x020#11 .r4),
    decodesTo (some 0x40#8) 0x1340#16 (.stmw .r3 0x400#11 .r4),
    decodesTo (some 0x81#8) 0x0214#16 (.ldmb .r1 .r2 0x009#11),
    decodesTo (some 0xFF#8) 0x0F0F#16 (.ldmb .r0 .r15 0x7FF#11),
    decodesTo (some 0x81#8) 0x1214#16 (.stmb .r2 0x009#11 .r1)] = List.replicate 8 true := by decide +kernel

theorem test_decode_long_jump : [decodesTo (some 0x12#8) 0x2F34#16 (.jccAbs .always 0x1234#16),
    decodesTo (some 0x00#8) 0x2140#16 (.jccAbs .eq 0x0040#16),
    decodesTo (some 0xFF#8) 0x20FE#16 (.jccAbs .cs 0xFFFE#16),
    decodesTo (some 0x01#8) 0x2F21#16 (.jsrAbs 0x0120#16)] = List.replicate 4 true := by decide +kernel

theorem test_decode_alu_register : [decodesTo none 0x3124#16 (.andRR .r1 .r2), decodesTo none 0x3125#16 (.orRR .r1 .r2),
    decodesTo none 0x3126#16 (.xorRR .r1 .r2), decodesTo none 0x3127#16 (.movRR .r1 .r2),
    decodesTo none 0x3128#16 (.addRR .r1 .r2), decodesTo none 0x3129#16 (.subRR .r1 .r2),
    decodesTo none 0x312A#16 (.adcRR .r1 .r2), decodesTo none 0x312B#16 (.sbcRR .r1 .r2),
    decodesTo none 0x312C#16 (.tstRR .r1 .r2), decodesTo none 0x312D#16 (.cmpRR .r1 .r2),
    decodesTo none 0x312E#16 (.mltRR .r1 .r2), decodesTo none 0x312F#16 (.mlhRR .r1 .r2)]
    = List.replicate 12 true := by decide +kernel

theorem test_decode_alu_byte : [decodesTo none 0x412B#16 (.andI8 .r1 0x2B#8), decodesTo none 0x512B#16 (.orI8 .r1 0x2B#8),
    decodesTo none 0x612B#16 (.xorI8 .r1 0x2B#8), decodesTo none 0x712B#16 (.movI8 .r1 0x2B#8),
    decodesTo none 0x812B#16 (.addI8 .r1 0x2B#8), decodesTo none 0x912B#16 (.subI8 .r1 0x2B#8),
    decodesTo none 0xA12B#16 (.adcI8 .r1 0x2B#8), decodesTo none 0xB12B#16 (.sbcI8 .r1 0x2B#8),
    decodesTo none 0xC12B#16 (.tstI8 .r1 0x2B#8), decodesTo none 0xD12B#16 (.cmpI8 .r1 0x2B#8),
    decodesTo none 0xE12B#16 (.mltI8 .r1 0x2B#8), decodesTo none 0xF12B#16 (.mlhI8 .r1 0x2B#8)]
    = List.replicate 12 true := by decide +kernel

theorem test_decode_alu_word : [decodesTo (some 0x12#8) 0x4134#16 (.andI16 .r1 0x1234#16),
    decodesTo (some 0x12#8) 0x5134#16 (.orI16 .r1 0x1234#16), decodesTo (some 0x12#8) 0x6134#16 (.xorI16 .r1 0x1234#16),
    decodesTo (some 0x12#8) 0x7134#16 (.movI16 .r1 0x1234#16), decodesTo (some 0x12#8) 0x8134#16 (.addI16 .r1 0x1234#16),
    decodesTo (some 0x12#8) 0x9134#16 (.subI16 .r1 0x1234#16), decodesTo (some 0x12#8) 0xA134#16 (.adcI16 .r1 0x1234#16),
    decodesTo (some 0x12#8) 0xB134#16 (.sbcI16 .r1 0x1234#16), decodesTo (some 0x12#8) 0xC134#16 (.tstI16 .r1 0x1234#16),
    decodesTo (some 0x12#8) 0xD134#16 (.cmpI16 .r1 0x1234#16), decodesTo (some 0x12#8) 0xE134#16 (.mltI16 .r1 0x1234#16),
    decodesTo (some 0x12#8) 0xF134#16 (.mlhI16 .r1 0x1234#16)] = List.replicate 12 true := by decide +kernel

/-- The reserved patterns of R65; the words of RSV5 to RSV7 are written from its table. -/
theorem test_decode_reserved : [decodesTo none 0x3000#16 (.rsv1 0x0#4 0x0#4), decodesTo none 0x1F40#16 (.rsv2 0x4#4 0#3),
    decodesTo none 0x3013#16 (.rsv3 0x0#4 0x1#4), decodesTo none 0x3021#16 (.rsv4 0x0#4 0x2#4),
    decodesTo (some 0x00#8) 0x3F00#16 (.rsv5 0x00#8 0xF00#12),
    decodesTo (some 0x12#8) 0x2135#16 (.rsv6 0x12#8 0x1#4 0x1A#7),
    decodesTo (some 0x12#8) 0x2734#16 (.rsv7 0x12#8 0x1A#7)] = List.replicate 7 true := by decide +kernel

/-- R66: an instruction of an absent unit is refused under the unit's name. -/
theorem test_decode_absent_unit : decode bare none 0x312E#16 = .error (.absentUnit .mlt) := rfl

/-- The host's reading of a two-word row: the prefix word in the low bits. -/
theorem test_table_word_two : decodeTableWord 32 0xB1342712 = some (.sbcI16 .r1 0x1234#16) := by decide +kernel
theorem test_table_word_one : decodeTableWord 16 0x29FD = some (.bcc .ne 0xFD#8) := by decide +kernel

/-! ### One step -/

/-- IF NF VF ZF CF, all 0 and all 1. -/
def off : Flags := ⟨false, false, false, false, false⟩
def on : Flags := ⟨true, true, true, true, true⟩

/-- A state with some registers and some memory words set. -/
def machine (pc : Word) (f : Flags) (rs : List (Reg × Word)) (ws : List (Word × Word)) : State :=
  ws.foldl (fun s e => s.placeWord e.1 e.2)
    (rs.foldl (fun s e => s.setReg e.1 e.2) { State.reset with pc := pc, flags := f })

/-- The next state satisfies a test. -/
def after (x : Res State) (p : State → Bool) : Bool :=
  match x with
  | .next t => p t
  | _ => false

/-- One step from 0100 with a word there. -/
def run1 (w : Word) (f : Flags) (rs : List (Reg × Word)) (ws : List (Word × Word)) (p : State → Bool) : Bool :=
  after (step (machine 0x0100#16 f rs ((0x0100#16, w) :: ws))) p

/-- One step from 0100 with the second word of a two-word instruction there and its payload pending. -/
def run2 (payload : Byte) (w : Word) (f : Flags) (rs : List (Reg × Word)) (ws : List (Word × Word))
    (p : State → Bool) : Bool :=
  after (step ((machine 0x0100#16 f rs ((0x0100#16, w) :: ws)).setPrefix payload)) fun t => !t.pfxValid && p t

/-- Section 2.2: the flags after the word from all 0 and from all 1. -/
def flagRow (w : Word) (from0 from1 : Flags) : Bool :=
  run1 w off [] [] (fun t => t.flags == from0 && t.pc == 0x0102#16)
    && run1 w on [] [] (fun t => t.flags == from1 && t.regs == RegFile.reset)

theorem test_nop : flagRow 0x3F00#16 off on && flagRow 0x3F10#16 off on := by decide +kernel
theorem test_clc : flagRow 0x3F20#16 off { on with CF := false } := by decide +kernel
theorem test_stc : flagRow 0x3F30#16 { off with CF := true } on := by decide +kernel
theorem test_clz : flagRow 0x3F40#16 off { on with ZF := false } := by decide +kernel
theorem test_stz : flagRow 0x3F50#16 { off with ZF := true } on := by decide +kernel
theorem test_cli : flagRow 0x3F80#16 off { on with IF := false } := by decide +kernel
theorem test_sti : flagRow 0x3F90#16 { off with IF := true } on := by decide +kernel
theorem test_flagop : flagRow 0x3F70#16 { off with ZF := true, CF := true } on
    && flagRow 0x3FE0#16 off { on with IF := false, ZF := false, CF := false } := by decide +kernel

/-- Section 2.3: the flags CF ZF VF NF after CMP R1,R2 and the branches then taken. -/
def cmpRow (a b : Word) (c z v n : Bool) (yes : List Cond) : Bool :=
  run1 0x312D#16 off [(.r1, a), (.r2, b)] [] fun t =>
    t.flags == ⟨false, n, v, z, c⟩ && t.reg .r1 == a &&
      [Cond.cs, .eq, .vs, .mi, .ls, .lt, .le, .never, .cc, .ne, .vc, .pl, .hi, .ge, .gt].all fun k =>
        t.holds k == yes.contains k

theorem test_cmp : cmpRow 0x0003#16 0x0005#16 true false false true [.cs, .mi, .ls, .lt, .le, .ne, .vc]
    && cmpRow 0x8000#16 0x0001#16 false false true false [.vs, .lt, .le, .cc, .ne, .pl, .hi] := by decide +kernel
theorem test_cmp_signed : cmpRow 0x7FFF#16 0x8000#16 true false true true [.cs, .vs, .mi, .ls, .ne, .ge, .gt]
    && cmpRow 0x8000#16 0x8000#16 false true false false [.eq, .ls, .le, .cc, .vc, .pl, .ge] := by decide +kernel

/-- Word 29FD at 0108 goes to 0104 with ZF clear. -/
theorem test_bcc : after (step (machine 0x0108#16 off [] [(0x0108#16, 0x29FD#16)]))
    (fun t => t.pc == 0x0104#16) := by decide +kernel
/-- Word 2F7F at FFFE goes to 00FE. -/
theorem test_bcc_wraps : after (step (machine 0xFFFE#16 off [] [(0xFFFE#16, 0x2F7F#16)]))
    (fun t => t.pc == 0x00FE#16) := by decide +kernel
/-- R94: bit 0 of the register is dropped. -/
theorem test_jcc : run1 0x3132#16 { off with ZF := true } [(.r3, 0x0301#16)] [] (fun t => t.pc == 0x0300#16)
    && run1 0x3132#16 off [(.r3, 0x0301#16)] [] (fun t => t.pc == 0x0102#16) := by decide +kernel
theorem test_jsr : after (step (machine 0x0200#16 off [(.r2, 0x0301#16), (.r15, 0x0400#16)] [(0x0200#16, 0x3F23#16)]))
    (fun t => t.reg .r15 == 0x03FE#16 && t.wordAt 0x03FE#16 == 0x0202#16 && t.pc == 0x0300#16) := by decide +kernel
/-- R95, R12: the target is the old R15. -/
theorem test_jsr_r15 : run1 0x3FF3#16 off [(.r15, 0x0400#16)] []
    (fun t => t.pc == 0x0400#16 && t.reg .r15 == 0x03FE#16) := by decide +kernel
theorem test_jsrAbs : after (step ((machine 0x0110#16 off [(.r15, 0x0400#16)] [(0x0110#16, 0x2F21#16)]).setPrefix 0x01#8))
    (fun t => t.reg .r15 == 0x03FE#16 && t.wordAt 0x03FE#16 == 0x0112#16 && t.pc == 0x0120#16) := by decide +kernel
theorem test_jccAbs : run2 0x00#8 0x2140#16 { off with ZF := true } [] [] (fun t => t.pc == 0x0040#16)
    && run2 0x00#8 0x2140#16 off [] [] (fun t => t.pc == 0x0102#16) := by decide +kernel
theorem test_ret : run1 0x0F00#16 off [(.r15, 0x03FE#16)] [(0x03FE#16, 0x0112#16)]
    (fun t => t.pc == 0x0112#16 && t.reg .r15 == 0x0400#16 && t.flags == off) := by decide +kernel
theorem test_retSti : run1 0x0F90#16 off [(.r15, 0x03FE#16)] [(0x03FE#16, 0x0112#16)]
    (fun t => t.pc == 0x0112#16 && t.flags == { off with IF := true }) := by decide +kernel
theorem test_retCli : run1 0x0F80#16 on [(.r15, 0x03FE#16)] [(0x03FE#16, 0x0113#16)]
    (fun t => t.pc == 0x0112#16 && t.flags == { on with IF := false }) := by decide +kernel
theorem test_retFlag : run1 0x0F70#16 off [(.r15, 0x03FE#16)] [(0x03FE#16, 0x0112#16)]
    (fun t => t.flags == { off with ZF := true, CF := true }) := by decide +kernel

theorem test_pushReg : run1 0x1F01#16 off [(.r15, 0x0400#16), (.r0, 0x1234#16)] []
    (fun t => t.reg .r15 == 0x03FE#16 && t.wordAt 0x03FE#16 == 0x1234#16) := by decide +kernel
theorem test_pushReg_wraps : run1 0x1F01#16 off [(.r15, 0x0000#16), (.r0, 0x1234#16)] []
    (fun t => t.reg .r15 == 0xFFFE#16 && t.wordAt 0xFFFE#16 == 0x1234#16) := by decide +kernel
theorem test_popReg : run1 0x0F01#16 on [(.r15, 0x03FC#16)] [(0x03FC#16, 0x1234#16)]
    (fun t => t.reg .r0 == 0x1234#16 && t.reg .r15 == 0x03FE#16 && t.flags == on) := by decide +kernel
theorem test_popFlag : run1 0x0FF1#16 off [(.r15, 0x01FC#16)] [(0x01FC#16, 0x0019#16)]
      (fun t => t.flags == ⟨false, true, false, false, true⟩ && t.reg .r15 == 0x01FE#16)
    && run1 0x0FF1#16 { off with IF := true } [(.r15, 0x01FC#16)] [(0x01FC#16, 0xFFE6#16)]
      (fun t => t.flags == ⟨true, false, true, true, false⟩) := by decide +kernel
/-- PUSH FLAG moves R15; its word is a free value above bit 4, so only R15 can be tested. -/
theorem test_pushFlag : run1 0x1FF1#16 off [(.r15, 0x01FE#16)] [] (fun t => t.reg .r15 == 0x01FC#16) := by decide +kernel
theorem test_push_misaligned : step (machine 0x0100#16 off [(.r15, 0x0401#16)] [(0x0100#16, 0x1F01#16)])
    = .refused .misalignedWordAccess := rfl

/-- Section 2.5: the value and CF ZF NF after the shift of R1. -/
def shiftRow (w : Word) (a : Word) (cin : Bool) (r : Word) (c z n : Bool) : Bool :=
  run1 w { off with CF := cin } [(.r1, a)] [] fun t =>
    t.reg .r1 == r && t.flags.CF == c && t.flags.ZF == z && t.flags.NF == n

theorem test_shr : shiftRow 0x3111#16 0x0003#16 true 0x8001#16 true false true
    && shiftRow 0x3111#16 0x0001#16 false 0x0000#16 true true false := by decide +kernel
theorem test_asr : shiftRow 0x3101#16 0x8001#16 false 0xC000#16 true false true
    && shiftRow 0x3101#16 0x7FFE#16 true 0x3FFF#16 false false false := by decide +kernel

theorem test_ldm : run1 0x0212#16 off [(.r2, 0x0300#16)] [(0x0304#16, 0x1234#16)]
    (fun t => t.reg .r1 == 0x1234#16) := by decide +kernel
theorem test_ldm_wraps : run1 0x0E5F#16 off [(.r14, 0xFFF0#16)] [(0x000E#16, 0xBEEF#16)]
    (fun t => t.reg .r5 == 0xBEEF#16) := by decide +kernel
theorem test_stm : run1 0x1202#16 off [(.r2, 0x0300#16), (.r0, 0x1234#16)] []
    (fun t => t.byteAt 0x0304 == 0x34#8 && t.byteAt 0x0305 == 0x12#8) := by decide +kernel
theorem test_ldmw : run2 0x7E#8 0x021F#16 off [(.r2, 0x0300#16)] [(0x02FE#16, 0xBEEF#16)]
    (fun t => t.reg .r1 == 0xBEEF#16) := by decide +kernel
/-- An odd base plus an odd displacement. -/
theorem test_ldmw_odd : run2 0x01#8 0x0200#16 off [(.r2, 0x0301#16)] [(0x0302#16, 0x5555#16)]
    (fun t => t.reg .r0 == 0x5555#16) := by decide +kernel
theorem test_stmw : run2 0x02#8 0x1F40#16 off [(.r15, 0x03FC#16), (.r4, 0x00AA#16)] []
    (fun t => t.wordAt 0x041C#16 == 0x00AA#16) := by decide +kernel
theorem test_ldmb : run2 0x81#8 0x0214#16 off [(.r2, 0x0300#16), (.r1, 0x12FF#16)] [(0x0308#16, 0x3577#16)]
    (fun t => t.reg .r1 == 0x1235#16) := by decide +kernel
theorem test_ldmb_below : run2 0xFF#8 0x0F0F#16 off [(.r15, 0x0400#16), (.r0, 0xAB00#16)] [(0x03FE#16, 0x0100#16)]
    (fun t => t.reg .r0 == 0xAB01#16) := by decide +kernel
theorem test_stmb : run2 0x81#8 0x1214#16 off [(.r2, 0x0300#16), (.r1, 0x1235#16)] [(0x0308#16, 0x0077#16)]
    (fun t => t.byteAt 0x0309 == 0x35#8 && t.byteAt 0x0308 == 0x77#8) := by decide +kernel
/-- Section 2.6, the byte order vector in a big-endian build. -/
theorem test_ldmb_big_endian :
    after (execLdmb .r1 .r2 0x000#11 (({ machine 0x0100#16 off [(.r2, 0x0300#16)] [] with
      build := { Config.standard with byteOrder := .big } } : State).placeWord 0x0300#16 0x1234#16))
      (fun t => t.reg .r1 == 0x0012#16) := by decide +kernel

/-- Section 2.7: a row of the ALU table in the register form and in the 16-bit immediate form; CF and VF only where the
table gives them. The result is in R1, which TST and CMP leave alone. -/
def aluRow (fn : Nibble) (a b : Word) (cin : Bool) (r : Word) (z n : Bool) (cv : Option (Bool × Bool)) : Bool :=
  let ok : State → Bool := fun t =>
    t.reg .r1 == r && t.reg .r2 == b && t.flags.ZF == z && t.flags.NF == n &&
      match cv with
      | none => true
      | some (c, v) => t.flags.CF == c && t.flags.VF == v
  run1 (word4 0x3#4 0x1#4 0x2#4 fn) { off with CF := cin } [(.r1, a), (.r2, b)] [] ok &&
    run2 (b.extractLsb' 8 8) (word8 fn 0x1#4 (b.extractLsb' 0 8)) { off with CF := cin } [(.r1, a), (.r2, b)] [] ok

theorem test_and : aluRow 0x4#4 0x1234#16 0xFF00#16 false 0x1200#16 false false none
    && aluRow 0x4#4 0x00FF#16 0xFF00#16 false 0x0000#16 true false none := by decide +kernel
theorem test_or : aluRow 0x5#4 0xF0F0#16 0x3C3C#16 false 0xFCFC#16 false true none := by decide +kernel
theorem test_xor : aluRow 0x6#4 0x1234#16 0x00FF#16 false 0x12CB#16 false false none
    && aluRow 0x6#4 0xAAAA#16 0xAAAA#16 false 0x0000#16 true false none := by decide +kernel
theorem test_mov : aluRow 0x7#4 0x1111#16 0x8000#16 false 0x8000#16 false true none := by decide +kernel
theorem test_add : aluRow 0x8#4 0x7FFF#16 0x0001#16 true 0x8000#16 false true (some (false, true))
    && aluRow 0x8#4 0x8000#16 0x8000#16 false 0x0000#16 true false (some (true, true)) := by decide +kernel
theorem test_sub : aluRow 0x9#4 0x7FFF#16 0xFFFF#16 true 0x8000#16 false true (some (true, true))
    && aluRow 0x9#4 0x1234#16 0x1234#16 false 0x0000#16 true false (some (false, false)) := by decide +kernel
theorem test_adc : aluRow 0xA#4 0xFFFF#16 0xFFFF#16 true 0xFFFF#16 false true (some (true, false))
    && aluRow 0xA#4 0x8000#16 0x8000#16 true 0x0001#16 false false (some (true, true)) := by decide +kernel
theorem test_sbc : aluRow 0xB#4 0x0000#16 0xFFFF#16 true 0x0000#16 true false (some (true, false))
    && aluRow 0xB#4 0x1000#16 0x0FFF#16 false 0x0001#16 false false (some (false, false)) := by decide +kernel
theorem test_tst : aluRow 0xC#4 0x8001#16 0x8000#16 false 0x8001#16 false true none := by decide +kernel
theorem test_mlt : aluRow 0xE#4 0x1234#16 0x5678#16 false 0x0060#16 false false none
    && aluRow 0xE#4 0x0100#16 0x0100#16 false 0x0000#16 true false none := by decide +kernel
theorem test_mlh : aluRow 0xF#4 0x1234#16 0x5678#16 false 0x0626#16 false false none
    && aluRow 0xF#4 0xFFFF#16 0xFFFF#16 false 0xFFFE#16 false true none := by decide +kernel
/-- R150: an 8-bit immediate is extended with zeros; ADD 00F0, 00FF. -/
theorem test_add_i8 : run1 0x81FF#16 off [(.r1, 0x00F0#16)] [] (fun t => t.reg .r1 == 0x01EF#16) := by decide +kernel
theorem test_sub_i8 : run1 0x91FF#16 off [(.r1, 0x0100#16)] [] (fun t => t.reg .r1 == 0x0001#16) := by decide +kernel
theorem test_and_i8 : run1 0x410F#16 off [(.r1, 0x1234#16)] [] (fun t => t.reg .r1 == 0x0004#16) := by decide +kernel
theorem test_mlt_i8 : run1 0xE12B#16 off [(.r1, 0x0003#16)] [] (fun t => t.reg .r1 == 0x0081#16) := by decide +kernel
/-- Section 2.7, last paragraph: the borrow sense inverted. -/
theorem test_sub_not_borrow : after (execSubRR .r1 .r2 { machine 0x0100#16 off [(.r1, 0x0000#16), (.r2, 0x0001#16)] []
      with build := { Config.standard with subCarry := .notBorrow } })
    (fun t => t.reg .r1 == 0xFFFF#16 && t.flags == ⟨false, true, false, false, false⟩) := by decide +kernel

/-- R154: the prefix word. -/
theorem test_pfx : run1 0x2712#16 on [] []
    (fun t => t.pfxValid && t.pfx == 0x12#8 && t.pc == 0x0102#16 && t.flags == on) := by decide +kernel

/-- Section 2.8: vector 5 with interrupts enabled goes through 000A. -/
theorem test_iack : after (step { machine 0x0100#16 on [(.r15, 0x0400#16)] [(0x000A#16, 0x0201#16)] with
      ivectors := [5#6] }) (fun t => t.pc == 0x0200#16 && t.reg .r15 == 0x03FE#16 && t.wordAt 0x03FE#16 == 0x0100#16
        && t.flags == { on with IF := false }) := by decide +kernel
/-- The same request with a prefix pending: the second word runs. -/
theorem test_iack_held : after (step { (machine 0x0100#16 on [] [(0x0100#16, 0x7134#16)]).setPrefix 0x12#8 with
      ivectors := [5#6] }) (fun t => t.reg .r1 == 0x1234#16 && t.ivectors == []) := by decide +kernel

/-- R200: reset reads its entry point from word 0; section 1.2 puts 0018 there. -/
theorem test_reset : after (State.takeReset { machine 0x0100#16 on [] [(0x0000#16, 0x0018#16)] with ivectors := [1#6] })
    (fun t => t.pc == 0x0018#16 && !t.flags.IF && !t.pfxValid && t.ivectors == [1#6]) := by decide +kernel
theorem test_reset_memory_wf : State.reset.mem.wf = true := rfl

/-- Log 22: a placed instruction is the one the next step runs. -/
theorem test_withFetchWord_two : after (step (State.reset.withFetchWord 32 0x71342712)) (fun t => t.reg .r1 == 0x1234#16)
    := by decide +kernel
theorem test_withFetchWord_one : after (step (State.reset.withFetchWord 16 0x712B)) (fun t => t.reg .r1 == 0x002B#16)
    := by decide +kernel

/-! ### Witnesses: the hypotheses of each statement that has some can be met, at the ends of their ranges -/

theorem next_of_after {x : Res State} {p : State → Bool} (h : after x p = true) : ∃ t, x = .next t ∧ p t = true := by
  cases x with
  | next t => exact ⟨t, rfl, h⟩
  | fault f => cases h
  | refused r => cases h

/-- A build with a changed option under a machine's state. -/
def inBuild (c : Config) (s : State) : State := { s with build := c }

/-- A stack at the bottom of memory, one at its top, and one that wraps. -/
def low : State := machine 0x0100#16 off [(.r15, 0x0002#16), (.r1, 0x1234#16)] []
def top : State := machine 0x0100#16 off [(.r15, 0xFFFE#16), (.r1, 0x1234#16)] []
def wrap : State := machine 0x0100#16 off [(.r15, 0x0000#16), (.r1, 0x1234#16)] []

theorem witness_ResetSequenceLoadsPcFromWordZero : State.reset.wordOk 0#16 = true := by decide +kernel

theorem witness_EveryStepKeepsTheMachineInvariant : ∃ s t : State, s.Inv ∧ step s = .next t := by
  obtain ⟨t, h, _⟩ := next_of_after
    (x := step (machine 0xFFFE#16 off [(.r15, 0x0002#16), (.r1, 0x1234#16)] [(0xFFFE#16, 0x1F11#16)]))
    (p := fun t => t.pc == 0#16) (by decide +kernel)
  exact ⟨_, t, ⟨by decide +kernel, by decide +kernel, by decide +kernel, by decide +kernel⟩, h⟩

theorem witness_DecodeOfEncodeIsTheInstruction :
    Instr.wf Config.standard (.ldmb .r0 .r15 0x7FF#11) = true ∧ Instr.wf bare (.jccAbs .gt 0xFFFE#16) = true := by
  decide +kernel

theorem witness_DecodedInstructionIsWellFormed :
    decode Config.standard (some 0xFF#8) 0x0F0F#16 = .ok (.ldmb .r0 .r15 0x7FF#11) := rfl

theorem witness_EncodeOfDecodeIsTheWord :
    (∃ i, decode Config.standard none 0x3F30#16 = .ok i ∧
      match i with
      | .ret | .retCli | .retSti | .retFlag _ _ _ _ | .popReg _ | .popFlag | .pushReg _ | .pushFlag | .nop => False
      | _ => True) ∧
    (∃ i, decode Config.standard (some 0xFF#8) 0xFFFF#16 = .ok i ∧
      match i with
      | .ret | .retCli | .retSti | .retFlag _ _ _ _ | .popReg _ | .popFlag | .pushReg _ | .pushFlag | .nop => False
      | _ => True) := ⟨⟨.stc, rfl, trivial⟩, ⟨.mlhI16 .r15 0xFFFF#16, rfl, trivial⟩⟩

/-- STC needs no unit; the last 16-bit form needs one, and the bare build lacks it. -/
theorem witness_DecodeRefusesExactlyAbsentUnits :
    (∀ u, NeedsUnit .stc u → bare.has u = true) ∧ NeedsUnit (.mltI16 .r15 0xFFFF#16) .mlt ∧ bare.has .mlt = false := by
  refine ⟨fun u h => ?_, ⟨.r15, .word 0xFFFF#16, rfl⟩, rfl⟩
  cases u <;> simp only [NeedsUnit] at h
  · obtain ⟨_, h | h⟩ := h <;> cases h
  · obtain ⟨_, b, h⟩ := h; cases b <;> cases h
  · obtain ⟨_, b, h⟩ := h; cases b <;> cases h
  · obtain ⟨_, _, _, h | h⟩ := h <;> cases h

/-- At the top of memory, without and with a prefix pending, and where a stored word may be fetched. -/
theorem witness_StepRunsTheDecodedInstruction :
    (let s := machine 0xFFFE#16 off [] [(0xFFFE#16, 0x712B#16)];
      s.accepts = false ∧ CanFetch s s.pc ∧
        decode s.build (if s.pfxValid then some s.pfx else none) (s.wordAt s.pc) = .ok (.movI8 .r1 0x2B#8)) ∧
    (let s := (machine 0x0000#16 on [] [(0x0000#16, 0x7134#16)]).setPrefix 0x12#8;
      s.accepts = false ∧ CanFetch s s.pc ∧
        decode s.build (if s.pfxValid then some s.pfx else none) (s.wordAt s.pc) = .ok (.movI16 .r1 0x1234#16)) ∧
    (let s := { inBuild { Config.standard with fetchSeesStores := .immediately }
        (machine 0x0100#16 off [] [(0x0100#16, 0x712B#16)]) with written := [0x0100] };
      s.accepts = false ∧ CanFetch s s.pc ∧
        decode s.build (if s.pfxValid then some s.pfx else none) (s.wordAt s.pc) = .ok (.movI8 .r1 0x2B#8)) :=
  ⟨⟨by decide +kernel, ⟨by decide +kernel, .inr (by decide +kernel)⟩, by decide +kernel⟩,
    ⟨by decide +kernel, ⟨by decide +kernel, .inr (by decide +kernel)⟩, by decide +kernel⟩,
    ⟨by decide +kernel, ⟨by decide +kernel, .inl rfl⟩, by decide +kernel⟩⟩

theorem witness_InterruptAcceptanceCondition :
    State.reset.build.iackOnZeroPrefix = false ∧
      (inBuild { Config.standard with iackOnZeroPrefix := true } State.reset).build.iackOnZeroPrefix = true := by
  decide +kernel

/-- Vector 63 with the stack wrapping, and under `IACK_ON_ZERO_PREFIX` vector 1 behind a zero prefix. -/
theorem witness_AcceptedInterruptEntersTheHandler :
    (let s := { wrap with ivectors := [63#6], flags := on };
      s.accepts = true ∧ s.wordOk s.pushAddr = true ∧
        s.wordOk (BitVec.ofNat 16 (2 * (s.ivectors.headD 0#6).toNat)) = true) ∧
    (let s := ({ inBuild { Config.standard with iackOnZeroPrefix := true } low with
        ivectors := [1#6], flags := on } : State).setPrefix 0#8;
      s.accepts = true ∧ s.wordOk s.pushAddr = true ∧
        s.wordOk (BitVec.ofNat 16 (2 * (s.ivectors.headD 0#6).toNat)) = true) := by decide +kernel

theorem witness_RetStiResumesTheInterruptedProgram : ∃ (s t u : State) (v : BitVec 6), isOdd s.pc = false ∧
    s.iack v = .next t ∧ u.build = t.build ∧ u.reg .r15 = t.reg .r15 ∧
    u.wordAt (t.reg .r15) = t.wordAt (t.reg .r15) ∧ u.flags ≠ t.flags := by
  obtain ⟨t, h, hp⟩ := next_of_after (x := wrap.iack 63#6) (p := fun t => t.flags == off) (by decide +kernel)
  refine ⟨wrap, t, { t with flags := on }, _, by decide +kernel, h, rfl, rfl, rfl, ?_⟩
  simp only [beq_iff_eq] at hp
  rw [hp]
  exact fun h => nomatch congrArg Flags.IF h

/-- Requests stand at every boundary after the first. -/
theorem witness_TwoWordInstructionIsNotInterrupted :
    let s := { machine 0xFFFC#16 on [] [(0xFFFC#16, 0x2712#16), (0xFFFE#16, 0x7134#16)] with ivectors := [0#6, 5#6] };
    s.build.iackOnZeroPrefix = false ∧ s.accepts = false ∧ s.pfxValid = false ∧ CanFetch s s.pc ∧
      CanFetch s (s.pc + 2#16) ∧ s.wordAt s.pc = 0x27#8 ++ 0x12#8 ∧
      decode s.build (some 0x12#8) (s.wordAt (s.pc + 2#16)) = .ok (.movI16 .r1 0x1234#16) :=
  ⟨by decide +kernel, by decide +kernel, by decide +kernel, ⟨by decide +kernel, .inr (by decide +kernel)⟩,
    ⟨by decide +kernel, .inr (by decide +kernel)⟩, by decide +kernel, by decide +kernel⟩

theorem witness_OnlyFlagOperationsChangeIF : ∃ t, exec .retSti top = .next t ∧ t.flags.IF ≠ top.flags.IF := by
  obtain ⟨t, h, hp⟩ := next_of_after (x := exec .retSti top) (p := fun t => t.flags.IF != top.flags.IF)
    (by decide +kernel)
  exact ⟨t, h, by simpa using hp⟩

theorem witness_OnlyStoringInstructionsChangeMemory : ∃ t, exec (.ldm .r1 .r15 0xF#4) top = .next t := by
  obtain ⟨t, h, _⟩ := next_of_after (x := exec (.ldm .r1 .r15 0xF#4) top) (p := fun _ => true) (by decide +kernel)
  exact ⟨t, h⟩

theorem witness_EveryChangedByteIsRecordedAsStored : ∃ s t : State, step s = .next t ∧ 0x0500 ∈ s.written ∧
    t.byteAt 0 ≠ s.byteAt 0 := by
  obtain ⟨t, h, hp⟩ := next_of_after
    (x := step { machine 0x0100#16 off [(.r15, 0x0002#16), (.r1, 0x1234#16)] [(0x0100#16, 0x1F11#16)] with
      written := [0x0500] })
    (p := fun t => t.byteAt 0 == 0x34#8) (by decide +kernel)
  refine ⟨_, t, h, by decide +kernel, ?_⟩
  simp only [beq_iff_eq] at hp
  rw [hp]
  decide +kernel

theorem witness_FetchOfStoredCodeFollowsTheParameter :
    (let s := { machine 0x0100#16 off [] [] with written := [0x0101] };
      s.accepts = false ∧ s.wordOk s.pc = true ∧ s.pc.toNat + 1 ∈ s.written ∧ s.build.fetchSeesStores = .refuse) ∧
    (let s := inBuild { Config.standard with fetchSeesStores := .immediately }
        { machine 0x0100#16 off [] [] with written := [0x0100] };
      s.accepts = false ∧ s.wordOk s.pc = true ∧ s.pc.toNat ∈ s.written ∧ s.build.fetchSeesStores = .immediately) := by
  decide +kernel

theorem witness_EveryStepConsumesOneSample : ∃ s t : State, step s = .next t ∧ s.ivectors = [0#6, 1#6] := by
  obtain ⟨t, h, _⟩ := next_of_after (x := step { machine 0x0100#16 on [] [(0x0100#16, 0x712B#16)] with
    ivectors := [0#6, 1#6] }) (p := fun _ => true) (by decide +kernel)
  exact ⟨_, t, h, rfl⟩

/-- Word 2FFF with interrupts off and a request standing, and with interrupts on and no request to come. -/
theorem witness_EndedRunStaysEnded :
    State.Ended { machine 0x012C#16 off [] [(0x012C#16, 0x2FFF#16)] with ivectors := [5#6] } ∧
    State.Ended { machine 0xFFFE#16 on [] [(0xFFFE#16, 0x2FFF#16)] with ivectors := [0#6] } :=
  ⟨⟨0xFF#8, rfl, by decide +kernel, .inl (by decide +kernel)⟩, ⟨0xFF#8, rfl, by decide +kernel, .inr (by decide +kernel)⟩⟩

theorem witness_InterruptEnableInstructions : State.reset.pfxValid = false := rfl

theorem witness_RelativeBranch : State.reset.holds .ne = true ∧ State.reset.holds .eq = false := by decide

theorem witness_JumpsGoToTheirTarget : isOdd 0xFFFE#16 = false ∧ isOdd 0x0000#16 = false ∧
    State.reset.holds .gt = true ∧ State.reset.holds .le = false ∧ State.reset.holds .never = false := by decide

theorem witness_CallsPushTheReturnAddress : low.wordOk low.pushAddr = true ∧ low.pushAddr = 0x0000#16 ∧
    wrap.wordOk wrap.pushAddr = true ∧ wrap.pushAddr = 0xFFFE#16 := by decide +kernel

theorem witness_ReturnsPopPcAndApplyTheFlagOperation : wrap.wordOk (wrap.reg .r15) = true ∧ wrap.reg .r15 = 0x0000#16 ∧
    top.wordOk (top.reg .r15) = true ∧ top.reg .r15 = 0xFFFE#16 := by decide +kernel

theorem witness_ReturnComesBackBehindTheCall : ∃ t, isOdd wrap.pc = false ∧ exec (.jsr .r1) wrap = .next t := by
  obtain ⟨t, h, _⟩ := next_of_after (x := exec (.jsr .r1) wrap) (p := fun _ => true) (by decide +kernel)
  exact ⟨t, by decide +kernel, h⟩

theorem witness_PushStoresItsOperand : low.wordOk low.pushAddr = true ∧ wrap.wordOk wrap.pushAddr = true := by
  decide +kernel

theorem witness_PopLoadsItsOperand : wrap.wordOk (wrap.reg .r15) = true ∧ top.wordOk (top.reg .r15) = true := by
  decide +kernel

theorem witness_PopUndoesPush_register : ∃ t, exec (.pushReg .r1) wrap = .next t := by
  obtain ⟨t, h, _⟩ := next_of_after (x := exec (.pushReg .r1) wrap) (p := fun _ => true) (by decide +kernel)
  exact ⟨t, h⟩

theorem witness_PopUndoesPush_flags : ∃ t u : State, exec .pushFlag wrap = .next t ∧ u.build = t.build ∧
    u.reg .r15 = t.reg .r15 ∧ u.wordAt (t.reg .r15) = t.wordAt (t.reg .r15) ∧ u.flags ≠ t.flags := by
  obtain ⟨t, h, hp⟩ := next_of_after (x := exec .pushFlag wrap) (p := fun t => t.flags == off) (by decide +kernel)
  refine ⟨t, { t with flags := on }, h, rfl, rfl, rfl, ?_⟩
  simp only [beq_iff_eq] at hp
  rw [hp]
  exact fun h => nomatch congrArg Flags.IF h

/-- The build of the other byte order and of `LDST_RB15_IS_FLAG`. -/
def other : Config := { Config.standard with byteOrder := .big, ldstRb15IsFlag := true }

theorem witness_WordAccessFollowsTheByteOrder : isOdd 0x0001#16 = true ∧ isOdd 0xFFFF#16 = true ∧
    State.reset.wordOk 0x0000#16 = true ∧ State.reset.wordOk 0xFFFE#16 = true ∧ State.reset.build.byteOrder = .little ∧
    (inBuild other State.reset).wordOk 0xFFFE#16 = true ∧ (inBuild other State.reset).build.byteOrder = .big := by
  decide +kernel

theorem witness_ByteAccessTouchesOneByte : State.reset.byteOk 0x0000#16 = true ∧ State.reset.byteOk 0xFFFF#16 = true := by
  decide +kernel

/-- Base codes 0 and 14, payloads of either width, and two-word accesses that complete, the byte one at FFFF. -/
theorem witness_EffectiveAddressesOfLoadsAndStores : (0x0#4 : Nibble) ≠ 0xF#4 ∧ (0xE#4 : Nibble) ≠ 0xF#4 ∧
    (0x7F#8 : Byte).getLsbD 7 = false ∧ (0xFF#8 : Byte).getLsbD 7 = true ∧ Config.standard.hasByte = true ∧
    (∃ t, exec (.ldmw .r1 .r15 0x7FE#11) wrap = .next t) ∧ (∃ t, exec (.stmb .r15 0x7FF#11 .r1) wrap = .next t) := by
  obtain ⟨t, h, _⟩ := next_of_after (x := exec (.ldmw .r1 .r15 0x7FE#11) wrap) (p := fun _ => true) (by decide +kernel)
  obtain ⟨u, k, _⟩ := next_of_after (x := exec (.stmb .r15 0x7FF#11 .r1) wrap) (p := fun _ => true) (by decide +kernel)
  exact ⟨by decide, by decide, by decide, by decide, rfl, ⟨t, h⟩, ⟨u, k⟩⟩

/-- Both forms, at the ends of their displacements, with a register and with FLAG as the data register. -/
theorem witness_WordLoads :
    top.wordOk (top.shortAddr .r1 0x0#4) = true ∧ top.wordOk (top.shortAddr .r1 0xF#4) = true ∧
    top.wordOk (top.longAddr .r1 0x3FE#11) = true ∧ top.wordOk (top.longAddr .r1 0x400#11) = true ∧
    ¬ NamesFlag top .r15 ∧ (inBuild other top).wordOk ((inBuild other top).longAddr .r1 0x7FE#11) = true ∧
    NamesFlag (inBuild other top) .r15 :=
  ⟨by decide +kernel, by decide +kernel, by decide +kernel, by decide +kernel, (fun h => nomatch h.2), by decide +kernel,
    ⟨rfl, rfl⟩⟩

theorem witness_WordStores :
    wrap.wordOk (wrap.shortAddr .r1 0xF#4) = true ∧ wrap.wordOk (wrap.longAddr .r15 0x7FE#11) = true ∧
    ¬ NamesFlag wrap .r15 ∧ (inBuild other wrap).wordOk ((inBuild other wrap).shortAddr .r1 0x0#4) = true ∧
    NamesFlag (inBuild other wrap) .r15 :=
  ⟨by decide +kernel, by decide +kernel, (fun h => nomatch h.2), by decide +kernel, ⟨rfl, rfl⟩⟩

theorem witness_ByteLoadsAndStores : wrap.build.hasByte = true ∧ wrap.byteOk (wrap.longAddr .r15 0x7FF#11) = true ∧
    (inBuild other wrap).build.hasByte = true ∧ (inBuild other wrap).byteOk ((inBuild other wrap).longAddr .r15 0#11) = true ∧
    NamesFlag (inBuild other wrap) .r15 :=
  ⟨by decide +kernel, by decide +kernel, by decide +kernel, by decide +kernel, ⟨rfl, rfl⟩⟩

theorem witness_MisalignedWordAccessIsRefused :
    let s := machine 0x0100#16 off [(.r15, 0x0001#16), (.r2, 0xFFFF#16)] [];
    isOdd (s.shortAddr .r2 0xF#4) = true ∧ isOdd (s.longAddr .r2 0x400#11) = true ∧ isOdd (s.reg .r15) = true := by
  decide +kernel

/-- A platform whose memory is `size` bytes at `base`. -/
def platform (base size : Nat) (s : State) : State := inBuild { Config.standard with map := [⟨base, size⟩] } s

/-- Memory below 1000 only, then memory from 0080 only: the accesses are to the first missing word or byte. -/
theorem witness_UnmappedAccessIsRefused :
    (let s := platform 0 0x1000 (machine 0x1000#16 off [(.r2, 0x1000#16), (.r15, 0x1000#16)] []);
      isOdd (s.shortAddr .r2 0#4) = false ∧ s.wordOk (s.shortAddr .r2 0#4) = false ∧
      isOdd (s.longAddr .r2 0#11) = false ∧ s.wordOk (s.longAddr .r2 0#11) = false ∧ s.build.hasByte = true ∧
      s.byteOk (s.longAddr .r2 0#11) = false ∧ isOdd (s.reg .r15) = false ∧ s.wordOk (s.reg .r15) = false ∧
      s.accepts = false ∧ isOdd s.pc = false ∧ s.wordOk s.pc = false) ∧
    (let s := platform 0x0080 0x1000 (machine 0x0100#16 off [(.r15, 0x0080#16)] []);
      isOdd s.pushAddr = false ∧ s.wordOk s.pushAddr = false ∧ s.wordOk 0#16 = false) ∧
    (let s := platform 0x0080 0x1000 (machine 0x0100#16 off [(.r15, 0x0082#16)] []);
      s.wordOk s.pushAddr = true ∧ s.wordOk (BitVec.ofNat 16 (2 * (63#6).toNat)) = false) := by
  decide +kernel

theorem witness_ShiftsRightByOne : State.reset.build.hasShift = true := rfl

/-- The two instructions of a chain, from a state, both complete. -/
theorem chain_of_after {i j : Instr} {s : State} (h : after (exec i s) (fun t => after (exec j t) fun _ => true) = true) :
    ∃ t u, exec i s = .next t ∧ exec j t = .next u := by
  obtain ⟨t, ht, h2⟩ := next_of_after h
  obtain ⟨u, hu, _⟩ := next_of_after h2
  exact ⟨t, u, ht, hu⟩

theorem witness_TwoWordShiftChain : Reg.r1 ≠ .r2 ∧ ∃ t u, exec (.asr .r1) low = .next t ∧ exec (.shr .r2) t = .next u :=
  ⟨by decide, chain_of_after (by decide +kernel)⟩

theorem witness_TwoWordAdditionChain : Reg.r2 ≠ .r1 ∧ Reg.r2 ≠ .r3 ∧
    ∃ t u, exec (.addRR .r2 .r4) low = .next t ∧ exec (.adcRR .r1 .r3) t = .next u :=
  ⟨by decide, by decide, chain_of_after (by decide +kernel)⟩

theorem witness_TwoWordSubtractionChain : Reg.r2 ≠ .r1 ∧ Reg.r2 ≠ .r3 ∧
    ∃ t u, exec (.subRR .r2 .r4) low = .next t ∧ exec (.sbcRR .r1 .r3) t = .next u :=
  ⟨by decide, by decide, chain_of_after (by decide +kernel)⟩

theorem witness_MultiplyHalvesMakeTheProduct :
    let s := machine 0x0100#16 off [(.r1, 0xFFFF#16), (.r2, 0xFFFF#16), (.r3, 0xFFFF#16)] [];
    Reg.r1 ≠ .r2 ∧ Reg.r1 ≠ .r3 ∧ s.reg .r1 = s.reg .r2 ∧
      ∃ t u, exec (.mltRR .r1 .r3) s = .next t ∧ exec (.mlhRR .r2 .r3) t = .next u :=
  ⟨by decide, by decide, by decide +kernel, chain_of_after (by decide +kernel)⟩

/-- Both senses of the borrow and of `ADC_SBC_Z_STICKY`, for the subtractions, the comparison and the carry chains. -/
theorem witness_BorrowFlag_ChainZero : State.reset.build.subCarry = .borrow ∧ State.reset.build.adcSbcZSticky = false ∧
    (inBuild { Config.standard with subCarry := .notBorrow, adcSbcZSticky := true } State.reset).build.subCarry = .notBorrow ∧
    (inBuild { Config.standard with subCarry := .notBorrow, adcSbcZSticky := true } State.reset).build.adcSbcZSticky = true :=
  ⟨rfl, rfl, rfl, rfl⟩

theorem witness_ConditionsAfterCompare : State.reset.build.subCarry = .borrow ∧
    (inBuild { Config.standard with subCarry := .notBorrow } State.reset).build.subCarry = .notBorrow := ⟨rfl, rfl⟩

theorem witness_MultiplyWritesOneHalf : State.reset.build.hasMlt = true ∧ State.reset.build.hasMlh = true := ⟨rfl, rfl⟩

/-- A state about to fetch a word, with or without a prefix pending. -/
def fetching (v : Bool) (w : Word) : State := { machine 0x0100#16 off [] [(0x0100#16, w)] with pfxValid := v }

/-- The premises of every clause about the reserved patterns, for one word each. -/
def reservedPremises (v : Bool) (w : Word) : Prop :=
  (fetching v w).accepts = false ∧ CanFetch (fetching v w) (fetching v w).pc ∧ (fetching v w).pfxValid = v
    ∧ (fetching v w).wordAt (fetching v w).pc = w

theorem witness_ReservedPatternsAreRefused :
    reservedPremises false (0x3#4 ++ 0xE#4 ++ 0xF#4 ++ 0x0#4) ∧ reservedPremises false (0x1F#8 ++ 0xF#4 ++ 7#3 ++ 0#1) ∧
    reservedPremises false (0x3#4 ++ 0xE#4 ++ 0xF#4 ++ 0x3#4) ∧ reservedPremises false (0x3#4 ++ 0xF#4 ++ 0x3#4 ++ 0x1#4) ∧
    reservedPremises true (0x3#4 ++ 0xFFF#12) ∧ reservedPremises true (0x2#4 ++ 0xE#4 ++ 0x7F#7 ++ 1#1) ∧
    reservedPremises true (0x27#8 ++ 0x00#7 ++ 0#1) ∧ (0x3#4 : Nibble) ≠ Config.standard.smBit.mask := by
  refine ⟨⟨?_, ⟨?_, .inr ?_⟩, rfl, ?_⟩, ⟨?_, ⟨?_, .inr ?_⟩, rfl, ?_⟩, ⟨?_, ⟨?_, .inr ?_⟩, rfl, ?_⟩,
    ⟨?_, ⟨?_, .inr ?_⟩, rfl, ?_⟩, ⟨?_, ⟨?_, .inr ?_⟩, rfl, ?_⟩, ⟨?_, ⟨?_, .inr ?_⟩, rfl, ?_⟩,
    ⟨?_, ⟨?_, .inr ?_⟩, rfl, ?_⟩, ?_⟩ <;> decide +kernel

theorem witness_ReservedInstructionsStop : (inBuild bare State.reset).build.hasShift = false ∧
    (inBuild bare State.reset).build.hasMlt = false ∧ (inBuild bare State.reset).build.hasMlh = false ∧
    (inBuild bare State.reset).build.hasByte = false := by decide

end Sys2Proof.Tests
end

/-! The statements of spec/10_state.md about reset, the machine invariant and IF, with the lemmas they need. -/

namespace Sys2Proof.Machine

/-! ### The machine invariant (spec/10_state.md R13, spec/20_memory.md R42) -/

/-- A step that answers a next state has, beside the consumed sample and the counted cycles, one of the effects an
instruction or the acknowledge sequence can have. -/
theorem step_effect {s t : State} (h : step s = .next t) : ∃ n, Effect (s.sampled.addCycles n) t := by
  rcases step_eq_next.1 h with ⟨_, hiack⟩ | ⟨_, i, _, hexec⟩
  · exact ⟨iackCycles, Effect.iack hiack⟩
  · exact ⟨instrCycles i, exec_effect hexec⟩

/-- The invariant speaks neither of the samples nor of the cycles. -/
theorem State.Inv.sampled_addCycles {s : State} (h : s.Inv) (n : Nat) : (s.sampled.addCycles n).Inv := h

theorem Effect.inv {s t : State} (h : Effect s t) (hs : s.Inv) : t.Inv := by
  obtain ⟨_, hmem, hwritten, hbuild⟩ := hs
  obtain ⟨hmem', hwritten'⟩ := h.mem.wf hmem hwritten
  exact ⟨h.even, hmem', hwritten', h.build ▸ hbuild⟩

/-! ### Reset (spec/10_state.md R23) -/

/-- Nothing is listed in the memory of State.reset, so each of its words is zero. -/
theorem State.wordAt_reset (a : Word) : State.reset.wordAt a = 0#16 := by
  simp [State.wordAt, State.byteAt, State.reset, Config.standard, joinBytes, unlistedByte]

theorem State.inv_reset : State.reset.Inv :=
  ⟨rfl, rfl, rfl, rfl⟩

/-! ### IF (spec/10_state.md R18) -/

/-- IF after an instruction that completes, from IF before it. -/
def ifAfter (old : Bool) : Instr → Bool
  | .cli | .retCli => false
  | .sti | .retSti => true
  | .flagop ifl _ _ fd | .retFlag ifl _ _ fd => if ifl then fd else old
  | _ => old

theorem State.IF_branchIf (s : State) (taken : Bool) (target : Word) :
    (s.branchIf taken target).flags.IF = s.flags.IF := by
  cases taken <;> rfl

theorem State.IF_loadData (s : State) (d : Reg) (v : Word) : (s.loadData d v).flags.IF = s.flags.IF := by
  unfold State.loadData
  split <;> rfl

theorem State.flags_afterStoreData (s : State) (d : Reg) : (s.afterStoreData d).flags = s.flags := by
  unfold State.afterStoreData
  split <;> rfl

theorem State.IF_loadWord {s t : State} {d : Reg} {ea : Word} (h : s.loadWord d ea = .next t) :
    t.flags.IF = s.flags.IF := by
  obtain ⟨_, rfl⟩ := State.loadWord_eq_next.1 h
  exact State.IF_loadData ..

theorem State.IF_loadByte {s t : State} {d : Reg} {ea : Word} (h : s.loadByte d ea = .next t) :
    t.flags.IF = s.flags.IF := by
  obtain ⟨_, rfl⟩ := State.loadByte_eq_next.1 h
  exact State.IF_loadData ..

theorem State.flags_storeWord {s t : State} {d : Reg} {ea : Word} (h : s.storeWord d ea = .next t) :
    t.flags = s.flags := by
  obtain ⟨_, rfl⟩ := State.storeWord_eq_next.1 h
  exact State.flags_afterStoreData ..

theorem State.flags_storeByte {s t : State} {d : Reg} {ea : Word} (h : s.storeByte d ea = .next t) :
    t.flags = s.flags := by
  obtain ⟨_, rfl⟩ := State.storeByte_eq_next.1 h
  exact State.flags_afterStoreData ..

theorem State.flags_callTo {s t : State} {target : Word} (h : s.callTo target = .next t) : t.flags = s.flags := by
  obtain ⟨_, rfl⟩ := State.callTo_eq_next.1 h
  rfl

theorem State.IF_returnWith {s t : State} {ifl zfl cfl fd : Bool} (h : s.returnWith ifl zfl cfl fd = .next t) :
    t.flags.IF = if ifl then fd else s.flags.IF := by
  obtain ⟨_, rfl⟩ := State.returnWith_eq_next.1 h
  rfl

/-- What every instruction does to IF. -/
theorem IF_of_exec {i : Instr} {s t : State} (h : exec i s = .next t) : t.flags.IF = ifAfter s.flags.IF i := by
  cases i
  case ret | retCli | retSti | retFlag => exact State.IF_returnWith h
  case jsr => exact congrArg Flags.IF (State.flags_callTo h)
  case jsrAbs => exact congrArg Flags.IF (State.flags_callTo (s := s.endPrefix) h)
  case stm => exact congrArg Flags.IF (State.flags_storeWord h)
  case stmw => exact congrArg Flags.IF (State.flags_storeWord (s := s.endPrefix) h)
  case stmb => exact congrArg Flags.IF (State.flags_storeByte (s := s.endPrefix) (State.needsUnit_eq_next.1 h).2)
  case ldm => exact State.IF_loadWord h
  case ldmw => exact State.IF_loadWord (s := s.endPrefix) h
  case ldmb => exact State.IF_loadByte (s := s.endPrefix) (State.needsUnit_eq_next.1 h).2
  case pushReg | pushFlag =>
    obtain ⟨s1, hpush, ht⟩ := Res.bind_eq_next.1 h
    obtain ⟨_, rfl⟩ := State.push_eq_next.1 hpush
    cases ht
    rfl
  case popReg | popFlag =>
    simp only [exec, execPopReg, execPopFlag, State.pop_eq_next] at h
    obtain ⟨_, ht⟩ := h
    cases ht
    rfl
  case bcc | jcc | jccAbs => cases h; exact State.IF_branchIf ..
  case asr | shr | mltRR | mltI8 | mltI16 | mlhRR | mlhI8 | mlhI16 =>
    cases (State.needsUnit_eq_next.1 h).2
    rfl
  case rsv1 | rsv2 | rsv3 | rsv4 | rsv5 | rsv6 | rsv7 => cases h
  -- What is left completes in every build: the flag operations, PFX and the ALU operations without a unit.
  all_goals
    cases h
    rfl

/-- An instruction can change IF only if its flag operation selects it. -/
theorem selectsIF_of_ifAfter_ne {i : Instr} {old : Bool} (h : ifAfter old i ≠ old) :
    i = .cli ∨ i = .sti ∨ i = .retCli ∨ i = .retSti ∨ (∃ z c d, i = .flagop true z c d)
      ∨ (∃ z c d, i = .retFlag true z c d) := by
  cases i
  case cli | sti | retCli | retSti => simp
  case flagop ifl _ _ _ | retFlag ifl _ _ _ =>
    cases ifl
    · exact absurd rfl h
    · simp
  all_goals exact absurd rfl h

end Sys2Proof.Machine

namespace Sys2Proof.Proofs

open Sys2Proof.Machine

/-- Settles O4: every step has an effect, and every effect keeps the invariant. -/
theorem everyStepKeepsTheMachineInvariant : Obligations.EveryStepKeepsTheMachineInvariant := by
  intro s t hs h
  obtain ⟨n, heffect⟩ := step_effect h
  exact heffect.inv (hs.sampled_addCycles n)

/-- Settles O17, from the value of IF after each instruction. -/
theorem onlyFlagOperationsChangeIF : Obligations.OnlyFlagOperationsChangeIF := by
  intro i s t h hne
  exact selectsIF_of_ifAfter_ne (IF_of_exec h ▸ hne)

/-- Settles O1: the word at address 0 of the empty memory is zero, and so is PC. -/
theorem resetStateHasTheSpecValues : Obligations.ResetStateHasTheSpecValues := by
  refine ⟨?_, rfl, rfl⟩
  rw [State.wordAt_reset]
  rfl

/-- Settles O3: PC is 0, nothing is listed or recorded, and the standard build has both multiply units. -/
theorem resetSatisfiesTheMachineInvariant : Obligations.ResetSatisfiesTheMachineInvariant :=
  State.inv_reset

end Sys2Proof.Proofs

/-! The statements of spec/20_memory.md, with the lemmas they need. -/

namespace Sys2Proof.Machine

/-! ### What an access at an address that has a meaning reads and writes (spec/20_memory.md R33 to R35) -/

theorem State.byteAt_putWord_even (s : State) (a v : Word) :
    (s.putWord a v).byteAt a.toNat = evenByte s.build.byteOrder v := by
  rw [State.byteAt_putWord, if_neg (by omega), if_pos rfl]

theorem State.byteAt_putWord_odd (s : State) (a v : Word) :
    (s.putWord a v).byteAt (a.toNat + 1) = oddByte s.build.byteOrder v := by
  rw [State.byteAt_putWord, if_pos rfl]

theorem State.sameMemBut_putWord (s : State) (a v : Word) : SameMemBut a 2 s (s.putWord a v) := by
  intro b hb
  rw [State.byteAt_putWord, if_neg (by omega), if_neg (by omega)]

theorem State.sameMemBut_putByte (s : State) (a : Word) (v : Byte) : SameMemBut a 1 s (s.putByte a.toNat v) := by
  intro b hb
  rw [State.byteAt_putByte, if_neg (by omega)]

/-! ### Instructions that leave memory alone (spec/20_memory.md R32) -/

theorem State.sameMem_branchIf (s : State) (taken : Bool) (target : Word) : SameMem s (s.branchIf taken target) := by
  cases taken <;> exact ⟨fun _ => rfl, rfl⟩

theorem State.sameMem_loadData (s : State) (d : Reg) (v : Word) : SameMem s (s.loadData d v).advance := by
  unfold State.loadData
  split <;> exact ⟨fun _ => rfl, rfl⟩

theorem State.sameMem_loadWord {s t : State} {d : Reg} {ea : Word} (h : s.loadWord d ea = .next t) : SameMem s t := by
  obtain ⟨_, rfl⟩ := State.loadWord_eq_next.1 h
  exact State.sameMem_loadData ..

theorem State.sameMem_loadByte {s t : State} {d : Reg} {ea : Word} (h : s.loadByte d ea = .next t) : SameMem s t := by
  obtain ⟨_, rfl⟩ := State.loadByte_eq_next.1 h
  exact State.sameMem_loadData ..

theorem State.sameMem_returnWith {s t : State} {ifl zfl cfl fd : Bool}
    (h : s.returnWith ifl zfl cfl fd = .next t) : SameMem s t := by
  obtain ⟨_, rfl⟩ := State.returnWith_eq_next.1 h
  exact ⟨fun _ => rfl, rfl⟩

/-- The instructions that store: STM STMW STMB PUSH JSR in all their forms. -/
def Stores : Instr → Prop
  | .stm _ _ _ | .stmw _ _ _ | .stmb _ _ _ | .pushReg _ | .pushFlag | .jsr _ | .jsrAbs _ => True
  | _ => False

/-- Every instruction stores or leaves memory and the record of stores alone. -/
theorem stores_or_sameMem {i : Instr} {s t : State} (h : exec i s = .next t) : Stores i ∨ SameMem s t := by
  cases i
  case stm | stmw | stmb | pushReg | pushFlag | jsr | jsrAbs => exact .inl trivial
  all_goals right
  case ret | retCli | retSti | retFlag => exact State.sameMem_returnWith h
  case ldm => exact State.sameMem_loadWord h
  case ldmw => exact State.sameMem_loadWord (s := s.endPrefix) h
  case ldmb => exact State.sameMem_loadByte (s := s.endPrefix) (State.needsUnit_eq_next.1 h).2
  case popReg | popFlag =>
    simp only [exec, execPopReg, execPopFlag, State.pop_eq_next] at h
    obtain ⟨_, ht⟩ := h
    cases ht
    exact ⟨fun _ => rfl, rfl⟩
  case bcc | jcc => cases h; exact State.sameMem_branchIf ..
  case jccAbs => cases h; exact State.sameMem_branchIf s.endPrefix _ _
  case asr | shr | mltRR | mltI8 | mltI16 | mlhRR | mlhI8 | mlhI16 =>
    cases (State.needsUnit_eq_next.1 h).2
    exact ⟨fun _ => rfl, rfl⟩
  case rsv1 | rsv2 | rsv3 | rsv4 | rsv5 | rsv6 | rsv7 => cases h
  -- What is left completes in every build: the flag operations, PFX and the ALU operations without a unit.
  all_goals
    cases h
    exact ⟨fun _ => rfl, rfl⟩

/-! ### Fetches that are refused (spec/20_memory.md R42, spec/60_exceptions.md R198) -/

theorem Res.bind_of_refused {α β : Type} {x : Res α} {r : Refusal} (h : x = .refused r) (k : α → Res β) :
    x.bind k = .refused r := by
  rw [h, Res.bind_refused]

theorem State.fetchModified_iff {s : State} :
    s.fetchModified = true ↔ s.pc.toNat ∈ s.written ∨ s.pc.toNat + 1 ∈ s.written := by
  simp [State.fetchModified]

theorem State.fetchWord_modified {s : State} (hok : s.wordOk s.pc = true) (hm : s.fetchModified = true)
    (hb : s.build.fetchSeesStores = .refuse) : s.fetchWord = .refused .fetchOfModifiedCode := by
  rw [State.fetchWord, State.readWord_of_ok hok, Res.bind_next, hb]
  exact if_pos hm

/-- Without an accepted interrupt, a refused fetch is the answer of the step. -/
theorem step_of_fetchWord_refused {s : State} {r : Refusal} (ha : s.accepts = false)
    (hf : s.fetchWord = .refused r) : step s = .refused r := by
  have hi : s.fetchInstr = .refused r := Res.bind_of_refused hf _
  rw [step, ha]
  exact Res.bind_of_refused hi _

/-! ### Accesses that are refused (spec/20_memory.md R37, R38) -/

/-- The state in which the acknowledge sequence pushes PC: IF and `pfx_valid` are cleared (spec/60_exceptions.md
R183). -/
def State.acknowledged (s : State) : State :=
  { s with flags := { s.flags with IF := false }, pfxValid := false }

theorem State.iack_eq (s : State) (v : BitVec 6) :
    s.iack v = (s.acknowledged.push s.pc).bind fun s1 =>
      (s1.readWord (vectorAddr v)).bind fun t => .next (s1.setPc t) := rfl

/-- Every 16-bit access at the address is refused for the reason `r`. -/
def State.RefusesWord (s : State) (a : Word) (r : Refusal) : Prop :=
  ∀ (α : Type) (k : Res α), s.checkWord a k = .refused r

theorem State.refusesWord_odd {s : State} {a : Word} (h : isOdd a = true) :
    s.RefusesWord a .misalignedWordAccess :=
  fun _ => State.checkWord_odd h

theorem State.refusesWord_unmapped {s : State} {a : Word} (ho : isOdd a = false) (h : s.wordOk a = false) :
    s.RefusesWord a .unmappedAddress :=
  fun _ => State.checkWord_unmapped ho (by simpa [State.wordOk, ho] using h)

/-- The answer depends on the build alone. -/
theorem State.RefusesWord.of_build {s t : State} {a : Word} {r : Refusal} (h : s.RefusesWord a r)
    (hb : t.build = s.build) : t.RefusesWord a r := by
  intro α k
  have := h α k
  rwa [State.checkWord, ← hb] at this

namespace State.RefusesWord

variable {s : State} {a : Word} {r : Refusal}

theorem readWord (h : s.RefusesWord a r) : s.readWord a = .refused r := h _ _

theorem writeWord (h : s.RefusesWord a r) (v : Word) : s.writeWord a v = .refused r := h _ _

theorem loadWord (h : s.RefusesWord a r) (data : Reg) : s.loadWord data a = .refused r :=
  Res.bind_of_refused h.readWord _

theorem storeWord (h : s.RefusesWord a r) (data : Reg) : s.storeWord data a = .refused r :=
  Res.bind_of_refused ((h.of_build (s.afterStoreData_build data)).writeWord _) _

theorem push (h : s.RefusesWord s.pushAddr r) (v : Word) : s.push v = .refused r :=
  (h.of_build (t := s.setReg .r15 s.pushAddr) rfl).writeWord v

theorem callTo (h : s.RefusesWord s.pushAddr r) (target : Word) : s.callTo target = .refused r :=
  Res.bind_of_refused (h.push _) _

theorem pop {α : Type} (h : s.RefusesWord (s.reg .r15) r) (k : Word → State → Res α) : s.pop k = .refused r :=
  Res.bind_of_refused h.readWord _

theorem returnWith (h : s.RefusesWord (s.reg .r15) r) (ifl zfl cfl fd : Bool) :
    s.returnWith ifl zfl cfl fd = .refused r :=
  h.pop _

/-- The push of the acknowledge sequence. -/
theorem iack_push (h : s.RefusesWord s.pushAddr r) (v : BitVec 6) : s.iack v = .refused r := by
  have h' : s.acknowledged.RefusesWord s.acknowledged.pushAddr r := h.of_build rfl
  rw [State.iack_eq]
  exact Res.bind_of_refused (h'.push _) _

/-- The table word of the acknowledge sequence, read after a push that completes. -/
theorem iack_table {v : BitVec 6} (hok : s.wordOk s.pushAddr = true) (h : s.RefusesWord (vectorAddr v) r) :
    s.iack v = .refused r := by
  have h' : (s.acknowledged.pushed s.pc).RefusesWord (vectorAddr v) r := h.of_build rfl
  rw [State.iack_eq, State.push_of_ok (s := s.acknowledged) hok, Res.bind_next]
  exact Res.bind_of_refused h'.readWord _

theorem fetchWord (h : s.RefusesWord s.pc r) : s.fetchWord = .refused r :=
  Res.bind_of_refused h.readWord _

theorem takeReset (h : s.RefusesWord 0#16 r) : s.takeReset = .refused r :=
  Res.bind_of_refused h.readWord _

/-- LDM and STM. -/
theorem exec_short {base : Reg} {p : Nibble} (h : s.RefusesWord (s.shortAddr base p) r) (data : Reg) :
    exec (.ldm data base p) s = .refused r ∧ exec (.stm base p data) s = .refused r :=
  ⟨h.loadWord data, h.storeWord data⟩

/-- LDMW and STMW. -/
theorem exec_long {base : Reg} {disp : BitVec 11} (h : s.RefusesWord (s.longAddr base disp) r) (data : Reg) :
    exec (.ldmw data base disp) s = .refused r ∧ exec (.stmw base disp data) s = .refused r :=
  have h' : s.endPrefix.RefusesWord (s.longAddr base disp) r := h.of_build rfl
  ⟨h'.loadWord data, h'.storeWord data⟩

/-- The instructions that push. -/
theorem exec_pushes (h : s.RefusesWord s.pushAddr r) (n rb : Reg) (target : Word) :
    ∀ i ∈ ([.pushReg n, .pushFlag, .jsr rb, .jsrAbs target] : List Instr), exec i s = .refused r := by
  have hdrew : s.drew.RefusesWord s.drew.pushAddr r := h.of_build rfl
  have hend : s.endPrefix.RefusesWord s.endPrefix.pushAddr r := h.of_build rfl
  simp only [List.forall_mem_cons]
  exact ⟨Res.bind_of_refused (h.push _) _, Res.bind_of_refused (hdrew.push _) _, h.callTo _, hend.callTo _, nofun⟩

/-- The instructions that pop, but RET with several flags selected. -/
theorem exec_pops (h : s.RefusesWord (s.reg .r15) r) (n : Reg) :
    ∀ i ∈ ([.popReg n, .popFlag, .ret, .retCli, .retSti] : List Instr), exec i s = .refused r := by
  have hpopReg : execPopReg n s = .refused r := h.pop _
  have hpopFlag : execPopFlag s = .refused r := h.pop _
  simp only [List.forall_mem_cons]
  exact ⟨hpopReg, hpopFlag, h.returnWith .., h.returnWith .., h.returnWith .., nofun⟩

theorem exec_retFlag (h : s.RefusesWord (s.reg .r15) r) (ifl zfl cfl fd : Bool) :
    exec (.retFlag ifl zfl cfl fd) s = .refused r :=
  h.returnWith ifl zfl cfl fd

end State.RefusesWord

/-- The slot a push stores to is as odd as R15. -/
theorem State.isOdd_pushAddr {s : State} (h : isOdd (s.reg .r15) = true) : isOdd s.pushAddr = true := by
  by_contra hslot
  have heven := even_add_two (Bool.eq_false_of_not_eq_true hslot)
  rw [State.pushAddr_add_two, h] at heven
  cases heven

/-- Table words stand at even addresses (spec/60_exceptions.md R184). -/
theorem isOdd_vectorAddr (v : BitVec 6) : isOdd (vectorAddr v) = false := by
  have hmod := isOdd_eq_mod (vectorAddr v)
  have heven : (vectorAddr v).toNat % 2 = 0 := by
    rw [vectorAddr, BitVec.toNat_ofNat]
    omega
  simpa [heven] using hmod

theorem State.needsUnit_of_has {s : State} {u : BuildUnit} (h : s.build.has u = true) (k : Res State) :
    s.needsUnit u k = k :=
  if_pos h

/-- LDMB and STMB at an unmapped address, in a build with the byte unit. -/
theorem exec_byte_unmapped {s : State} {base : Reg} {disp : BitVec 11} (hu : s.build.hasByte = true)
    (h : s.byteOk (s.longAddr base disp) = false) (data : Reg) :
    exec (.ldmb data base disp) s = .refused .unmappedAddress ∧
      exec (.stmb base disp data) s = .refused .unmappedAddress := by
  have hhas : s.build.has .byte = true := hu
  have hstore : (s.endPrefix.afterStoreData data).byteOk (s.longAddr base disp) = false := by
    rw [State.byteOk, State.afterStoreData_build]
    exact h
  constructor
  · exact (State.needsUnit_of_has hhas _).trans
      (Res.bind_of_refused (State.readByte_unmapped (s := s.endPrefix) h) _)
  · exact (State.needsUnit_of_has hhas _).trans (Res.bind_of_refused (State.writeByte_unmapped hstore _) _)

end Sys2Proof.Machine

namespace Sys2Proof.Proofs

open Sys2Proof.Machine

/-- Settles O19: every step has an effect on memory, and an effect records the bytes it changes and forgets none. -/
theorem everyChangedByteIsRecordedAsStored : Obligations.EveryChangedByteIsRecordedAsStored := by
  intro s t h
  obtain ⟨n, heffect⟩ := step_effect h
  have hmem : MemEffect s t := heffect.mem
  exact ⟨fun _ => hmem.kept, fun _ => hmem.changed⟩

/-- Settles O18: an instruction stores or leaves memory alone. -/
theorem onlyStoringInstructionsChangeMemory : Obligations.OnlyStoringInstructionsChangeMemory := by
  intro i s t h hi
  rcases stores_or_sameMem h with hstores | hsame
  · cases i
    case stm | stmw | stmb | pushReg | pushFlag | jsr | jsrAbs => exact hi.elim
    all_goals exact hstores.elim
  · exact hsame

/-- Settles O20, from the fetch under each value of FETCH_SEES_STORES. -/
theorem fetchOfStoredCodeFollowsTheParameter : Obligations.FetchOfStoredCodeFollowsTheParameter := by
  intro s haccepts hok hstored
  refine ⟨fun hrefuse => ?_, fun himmediately => ?_⟩
  · exact step_of_fetchWord_refused haccepts
      (State.fetchWord_modified hok (State.fetchModified_iff.2 hstored) hrefuse)
  · exact State.fetchWord_eq_next.2 ⟨hok, rfl, .inl himmediately⟩

/-- Settles O43: the address of every such access is odd, that of a push because R15 is. -/
theorem misalignedWordAccessIsRefused : Obligations.MisalignedWordAccessIsRefused := by
  intro s data base p disp target
  refine ⟨fun h => (State.refusesWord_odd h).exec_short data, fun h => (State.refusesWord_odd h).exec_long data,
    fun h => ?_⟩
  have hpop := State.refusesWord_odd (s := s) h
  have hpush := State.refusesWord_odd (s := s) (State.isOdd_pushAddr h)
  refine ⟨fun i hi => ?_, hpop.exec_retFlag, hpush.iack_push⟩
  have hcases : i ∈ ([.pushReg data, .pushFlag, .jsr base, .jsrAbs target] : List Instr) ∨
      i ∈ ([.popReg data, .popFlag, .ret, .retCli, .retSti] : List Instr) := by
    simp only [List.mem_cons] at hi ⊢
    tauto
  exact hcases.elim (hpush.exec_pushes data base target i) (hpop.exec_pops data i)

/-- Settles O44: at an even address an access without a meaning is an unmapped one. -/
theorem unmappedAccessIsRefused : Obligations.UnmappedAccessIsRefused := by
  intro s data base p disp target
  refine ⟨fun ho h => (State.refusesWord_unmapped ho h).exec_short data,
    fun ho h => (State.refusesWord_unmapped ho h).exec_long data,
    fun hu h => exec_byte_unmapped hu h data,
    fun ho h => ?push, fun ho h => ?pop,
    fun v hok h => State.RefusesWord.iack_table hok (State.refusesWord_unmapped (isOdd_vectorAddr v) h),
    fun ha ho h => step_of_fetchWord_refused ha (State.refusesWord_unmapped ho h).fetchWord,
    fun h => (State.refusesWord_unmapped rfl h).takeReset⟩
  case push =>
    have hpush := State.refusesWord_unmapped ho h
    exact ⟨hpush.exec_pushes data base target, hpush.iack_push⟩
  case pop =>
    have hpop := State.refusesWord_unmapped ho h
    exact ⟨hpop.exec_pops data, hpop.exec_retFlag⟩

/-- Settles O37, from the word an access reads and the two bytes it writes, in each byte order. -/
theorem wordAccessFollowsTheByteOrder : Obligations.WordAccessFollowsTheByteOrder := by
  intro s a v
  refine ⟨fun hodd => ?_, fun hok => ?_⟩
  · have hrefuses := State.refusesWord_odd (s := s) hodd
    exact ⟨hrefuses.readWord, hrefuses.writeWord v⟩
  · rw [State.readWord_of_ok hok, State.wordAt]
    refine ⟨fun ho => by rw [ho]; rfl, fun ho => by rw [ho]; rfl,
      s.putWord a v, State.writeWord_of_ok hok v, s.sameMemBut_putWord a v, fun ho => ?_, fun ho => ?_⟩
    all_goals
      rw [State.byteAt_putWord_even, State.byteAt_putWord_odd, ho]
      exact ⟨rfl, rfl⟩

/-- Settles O38, from the one byte `putByte` sets. -/
theorem byteAccessTouchesOneByte : Obligations.ByteAccessTouchesOneByte := by
  intro s a v hok
  refine ⟨State.readByte_of_ok hok, s.putByte a.toNat v, State.writeByte_of_ok hok v, ?_, s.sameMemBut_putByte a v⟩
  rw [State.byteAt_putByte, if_pos rfl]

end Sys2Proof.Proofs

/-! The statements of spec/30_encoding.md, with the lemmas they need. -/

namespace Sys2Proof

/-! ### Words and fields (spec/30_encoding.md R51, R52) -/

theorem word4_fields (w : Word) : word4 (fieldOp w) (fieldA w) (fieldB w) (fieldF w) = w := by
  unfold word4 fieldOp fieldA fieldB fieldF
  ext j hj
  simp only [BitVec.getElem_append, BitVec.getElem_extractLsb']
  grind

theorem word8_fields (w : Word) : word8 (fieldOp w) (fieldA w) (fieldImm8 w) = w := by
  unfold word8 fieldOp fieldA fieldImm8
  ext j hj
  simp only [BitVec.getElem_append, BitVec.getElem_extractLsb']
  grind

/-- The fields of a second word of format P+J (R52). -/
theorem jump_fields (w : Word) :
    fieldOp w ++ fieldA w ++ w.extractLsb' 1 7 ++ BitVec.ofBool (w.getLsbD 0) = w := by
  unfold fieldOp fieldA
  ext j hj
  simp only [BitVec.getElem_append, BitVec.getElem_extractLsb']
  cases j <;> grind

theorem rest_fields (w : Word) : fieldOp w ++ w.extractLsb' 0 12 = w := by
  unfold fieldOp
  ext j hj
  simp only [BitVec.getElem_append, BitVec.getElem_extractLsb']
  grind

/-- The words RET and POP share (R52). -/
theorem append_0F_eq_word4 (b : Nibble) (x : BitVec 3) (k : BitVec 1) :
    0x0F#8 ++ b ++ x ++ k = word4 0x0#4 0xF#4 b (x ++ k) :=
  BitVec.append_assoc ..

/-- The words PUSH and RSV2 share (R52, R65). -/
theorem append_1F_eq_word4 (b : Nibble) (x : BitVec 3) (k : BitVec 1) :
    0x1F#8 ++ b ++ x ++ k = word4 0x1#4 0xF#4 b (x ++ k) :=
  BitVec.append_assoc ..

theorem getLsbD_zero_append {n : Nat} (x : BitVec n) (k : BitVec 1) : (x ++ k).getLsbD 0 = k.getLsbD 0 := by
  rw [BitVec.getLsbD_append]; rfl

theorem exists_append_low_bit (f : Nibble) : ∃ x : BitVec 3, f = x ++ 0#1 ∨ f = x ++ 1#1 := by
  revert f; decide

theorem exists_flagBits (b : Nibble) : ∃ i z k d : Bool, flagBits i z k d = b := by
  revert b; decide

theorem exists_regBits (n : Nibble) : ∃ r : Reg, r.bits = n := ⟨_, Reg.bits_ofBits n⟩
theorem exists_condBits (n : Nibble) : ∃ k : Cond, k.bits = n := ⟨_, Cond.bits_ofBits n⟩

/-- The payload in front of a two-word load or store (R52, P+LS). -/
def dispPayload (byteAccess : Bool) (disp : BitVec 11) : Byte :=
  BitVec.ofBool byteAccess ++ disp.extractLsb' 5 6 ++ disp.extractLsb' 0 1

theorem dispPayload_longDisp (p : Byte) (f : Nibble) : dispPayload (p.getLsbD 7) (longDisp p f) = p := by
  unfold dispPayload longDisp
  ext j hj
  simp only [BitVec.getElem_append, BitVec.getElem_extractLsb', BitVec.getLsbD_append, BitVec.getLsbD_extractLsb']
  grind

theorem extractLsb'_longDisp (p : Byte) (f : Nibble) : (longDisp p f).extractLsb' 1 4 = f := by
  unfold longDisp
  ext j hj
  simp only [BitVec.getElem_extractLsb', BitVec.getLsbD_append, BitVec.getLsbD_extractLsb']
  grind

theorem exists_dispPayload (p : Byte) (f : Nibble) :
    ∃ (byteAccess : Bool) (disp : BitVec 11), p = dispPayload byteAccess disp ∧ f = disp.extractLsb' 1 4 :=
  ⟨_, _, (dispPayload_longDisp p f).symm, (extractLsb'_longDisp p f).symm⟩

/-- The displacement put together again (R58). -/
theorem longDisp_dispPayload (byteAccess : Bool) (op : Nibble) (base data : Reg) (disp : BitVec 11) :
    longDisp (dispPayload byteAccess disp) (fieldF (dispWord op base data disp)) = disp :=
  longDisp_dispWord ..

theorem getLsbD_dispPayload (byteAccess : Bool) (disp : BitVec 11) :
    (dispPayload byteAccess disp).getLsbD 7 = byteAccess :=
  getLsbD_7_dispPayload ..

/-- RSV7 by its fields. -/
theorem fields_8_7_1 (a : BitVec 7) (x : BitVec 1) :
    fieldOp (0x27#8 ++ a ++ x) = 0x2#4 ∧ fieldA (0x27#8 ++ a ++ x) = 0x7#4
      ∧ (0x27#8 ++ a ++ x).extractLsb' 1 7 = a ∧ (0x27#8 ++ a ++ x).getLsbD 0 = x.getLsbD 0 :=
  fields_4_4_7_1 0x2#4 0x7#4 a x

theorem absTarget_fields (p : Byte) (a : BitVec 7) :
    (p ++ a ++ 0#1 : Word).extractLsb' 8 8 = p ∧ (p ++ a ++ 0#1 : Word).extractLsb' 1 7 = a
      ∧ (p ++ a ++ 0#1 : Word).getLsbD 0 = false := by
  refine ⟨?_, ?_, ?_⟩
  · ext j hj; simp; grind
  · ext j hj; simp; grind
  · rw [getLsbD_zero_append]; rfl

theorem longImm_fields (p i : Byte) :
    (p ++ i : Word).extractLsb' 8 8 = p ∧ (p ++ i : Word).extractLsb' 0 8 = i := by
  constructor
  · ext j hj; simp; grind
  · ext j hj; simp; grind

/-- A code names an ALU operation (0100 to 1111, R56) or is one of the four below. -/
theorem aluFn_or (fn : Nibble) : fn = 0x0#4 ∨ fn = 0x1#4 ∨ fn = 0x2#4 ∨ fn = 0x3#4 ∨ 4#4 ≤ fn := by
  revert fn; decide

theorem aluFn_ne {fn : Nibble} (h : 4#4 ≤ fn) : fn ≠ 0x0#4 ∧ fn ≠ 0x1#4 ∧ fn ≠ 0x2#4 ∧ fn ≠ 0x3#4 := by
  revert fn; decide

theorem aluFn_cases {fn : Nibble} (h : 4#4 ≤ fn) :
    fn = 0x4#4 ∨ fn = 0x5#4 ∨ fn = 0x6#4 ∨ fn = 0x7#4 ∨ fn = 0x8#4 ∨ fn = 0x9#4 ∨ fn = 0xA#4 ∨ fn = 0xB#4
      ∨ fn = 0xC#4 ∨ fn = 0xD#4 ∨ fn = 0xE#4 ∨ fn = 0xF#4 := by
  revert fn; decide

theorem SmBit.mask_ne_zero (sm : SmBit) : sm.mask ≠ 0x0#4 := by cases sm <;> decide

/-! ### The two decode maps by their formats (spec/30_encoding.md R52 to R55) -/

/-- The words of the one-word map (no payload pending) and of the prefixed map (a payload pending) with the
instruction each stands for, one constructor per format. Of the build only the position of SM matters. -/
inductive InMap (sm : SmBit) : Option Byte → Word → Instr → Prop where
  | ret (i z k d : Bool) (x : BitVec 3) :
      InMap sm none (word4 0x0#4 0xF#4 (flagBits i z k d) (x ++ 0#1)) (retOf i z k d)
  | popFlag (x : BitVec 3) : InMap sm none (word4 0x0#4 0xF#4 0xF#4 (x ++ 1#1)) .popFlag
  | popReg (n : Reg) (x : BitVec 3) (h : n ≠ .r15) :
      InMap sm none (word4 0x0#4 0xF#4 n.bits (x ++ 1#1)) (.popReg n)
  | ldm (data base : Reg) (p : Nibble) (h : base ≠ .r15) :
      InMap sm none (word4 0x0#4 base.bits data.bits p) (.ldm data base p)
  | pushFlag (x : BitVec 3) : InMap sm none (word4 0x1#4 0xF#4 0xF#4 (x ++ 1#1)) .pushFlag
  | pushReg (n : Reg) (x : BitVec 3) (h : n ≠ .r15) :
      InMap sm none (word4 0x1#4 0xF#4 n.bits (x ++ 1#1)) (.pushReg n)
  | rsv2 (b : Nibble) (x : BitVec 3) : InMap sm none (word4 0x1#4 0xF#4 b (x ++ 0#1)) (.rsv2 b x)
  | stm (base : Reg) (p : Nibble) (data : Reg) (h : base ≠ .r15) :
      InMap sm none (word4 0x1#4 base.bits data.bits p) (.stm base p data)
  | pfx (payload : Byte) : InMap sm none (prefixWord payload) (.pfx payload)
  | bcc (cond : Cond) (rel : Byte) (h : cond ≠ .never) : InMap sm none (word8 0x2#4 cond.bits rel) (.bcc cond rel)
  | flag (i z k d : Bool) : InMap sm none (word4 0x3#4 0xF#4 (flagBits i z k d) 0x0#4) (flagOf i z k d)
  | rsv1 (a b : Nibble) (h : a ≠ 0xF#4) : InMap sm none (word4 0x3#4 a b 0x0#4) (.rsv1 a b)
  | asr (ra : Reg) : InMap sm none (word4 0x3#4 ra.bits 0x0#4 0x1#4) (.asr ra)
  | shr (ra : Reg) : InMap sm none (word4 0x3#4 ra.bits sm.mask 0x1#4) (.shr ra)
  | rsv4 (a smod : Nibble) (h0 : smod ≠ 0x0#4) (h1 : smod ≠ sm.mask) :
      InMap sm none (word4 0x3#4 a smod 0x1#4) (.rsv4 a smod)
  | jcc (cond : Cond) (rb : Reg) : InMap sm none (word4 0x3#4 cond.bits rb.bits 0x2#4) (.jcc cond rb)
  | jsr (rb : Reg) : InMap sm none (word4 0x3#4 0xF#4 rb.bits 0x3#4) (.jsr rb)
  | rsv3 (a b : Nibble) (h : a ≠ 0xF#4) : InMap sm none (word4 0x3#4 a b 0x3#4) (.rsv3 a b)
  | aluRR (fn : Nibble) (ra rb : Reg) (h : 4#4 ≤ fn) :
      InMap sm none (word4 0x3#4 ra.bits rb.bits fn) (aluRR fn ra rb)
  | aluI8 (fn : Nibble) (ra : Reg) (imm : Byte) (h : 4#4 ≤ fn) :
      InMap sm none (word8 fn ra.bits imm) (aluI8 fn ra imm)
  | ldmb (data base : Reg) (disp : BitVec 11) :
      InMap sm (some (dispPayload true disp)) (dispWord 0x0#4 base data disp) (.ldmb data base disp)
  | ldmw (data base : Reg) (disp : BitVec 11) :
      InMap sm (some (dispPayload false disp)) (dispWord 0x0#4 base data disp) (.ldmw data base disp)
  | stmb (base : Reg) (disp : BitVec 11) (data : Reg) :
      InMap sm (some (dispPayload true disp)) (dispWord 0x1#4 base data disp) (.stmb base disp data)
  | stmw (base : Reg) (disp : BitVec 11) (data : Reg) :
      InMap sm (some (dispPayload false disp)) (dispWord 0x1#4 base data disp) (.stmw base disp data)
  | jsrAbs (target : Word) (h : target.getLsbD 0 = false) :
      InMap sm (some (target.extractLsb' 8 8)) (absWord 0xF#4 target true) (.jsrAbs target)
  | rsv6 (payload : Byte) (k : Nibble) (a : BitVec 7) (h : k ≠ 0xF#4) :
      InMap sm (some payload) (0x2#4 ++ k ++ a ++ 1#1) (.rsv6 payload k a)
  | rsv7 (payload : Byte) (a : BitVec 7) :
      InMap sm (some payload) (0x27#8 ++ a ++ 0#1) (.rsv7 payload a)
  | jccAbs (cond : Cond) (target : Word) (hc : cond ≠ .never) (h : target.getLsbD 0 = false) :
      InMap sm (some (target.extractLsb' 8 8)) (absWord cond.bits target false) (.jccAbs cond target)
  | rsv5 (payload : Byte) (rest : BitVec 12) : InMap sm (some payload) (0x3#4 ++ rest) (.rsv5 payload rest)
  | aluI16 (fn : Nibble) (ra : Reg) (imm : Word) (h : 4#4 ≤ fn) :
      InMap sm (some (imm.extractLsb' 8 8)) (word8 fn ra.bits (imm.extractLsb' 0 8)) (aluI16 fn ra imm)

/-- The instruction of a word, whether or not the build has the unit it needs. -/
def instrOf (c : Config) (pending : Option Byte) (w : Word) : Instr :=
  match pending with
  | none => decodeShort c w
  | some p => decodeLong p w

/-- The decoder reads every word of the maps as they say. -/
theorem InMap.instrOf_eq {c : Config} {p : Option Byte} {w : Word} {i : Instr} (h : InMap c.smBit p w i) :
    instrOf c p w = i := by
  -- The laws of the fields speak of getLsbD, which simp would turn into getElem.
  cases h
  case ret i z k d x =>
    obtain ⟨hi, hz, hk, hd⟩ := flagBits_getLsbD i z k d
    simp [instrOf, decodeShort, hi, hz, hk, hd, getLsbD_zero_append, -BitVec.getLsbD_eq_getElem]
  case popFlag | pushFlag => simp [instrOf, decodeShort, getLsbD_zero_append, -BitVec.getLsbD_eq_getElem]
  case popReg h | pushReg h =>
    simp [instrOf, decodeShort, getLsbD_zero_append, Reg.bits_ne_F h, -BitVec.getLsbD_eq_getElem]
  case ldm h | stm h => simp [instrOf, decodeShort, Reg.bits_ne_F h]
  case rsv2 => simp [instrOf, decodeShort, getLsbD_zero_append, extractLsb'_rsv2, -BitVec.getLsbD_eq_getElem]
  case pfx => simp [instrOf, decodeShort, prefixWord]
  case bcc h => simp [instrOf, decodeShort, Cond.bits_ne_7 h]
  case flag i z k d =>
    obtain ⟨hi, hz, hk, hd⟩ := flagBits_getLsbD i z k d
    simp [instrOf, decodeShort, decodeGroup3, hi, hz, hk, hd, -BitVec.getLsbD_eq_getElem]
  case rsv1 h | rsv3 h => simp [instrOf, decodeShort, decodeGroup3, h]
  case asr => simp [instrOf, decodeShort, decodeGroup3, shiftOf]
  case shr => simp [instrOf, decodeShort, decodeGroup3, shiftOf, SmBit.mask_ne_zero]
  case rsv4 h0 h1 => simp [instrOf, decodeShort, decodeGroup3, shiftOf, h0, h1]
  case jcc | jsr => simp [instrOf, decodeShort, decodeGroup3]
  case aluRR h =>
    obtain ⟨h0, h1, h2, h3⟩ := aluFn_ne h
    simp [instrOf, decodeShort, decodeGroup3, h0, h1, h2, h3]
  case aluI8 h =>
    obtain ⟨h0, h1, h2, h3⟩ := aluFn_ne h
    simp [instrOf, decodeShort, h0, h1, h2, h3]
  case ldmb | ldmw | stmb | stmw =>
    simp [instrOf, decodeLong, dispWord_fields, longDisp_dispPayload, getLsbD_dispPayload,
      -BitVec.getLsbD_eq_getElem]
  case jsrAbs h =>
    simp [instrOf, decodeLong, absWord_fields, absTarget_absWord _ _ _ h, -BitVec.getLsbD_eq_getElem]
  case rsv6 h => simp [instrOf, decodeLong, fields_4_4_7_1, h, -BitVec.getLsbD_eq_getElem]
  case rsv7 => simp [instrOf, decodeLong, fields_8_7_1, -BitVec.getLsbD_eq_getElem]
  case jccAbs hc h =>
    simp [instrOf, decodeLong, absWord_fields, absTarget_absWord _ _ _ h, Cond.bits_ne_7 hc,
      -BitVec.getLsbD_eq_getElem]
  case rsv5 => simp [instrOf, decodeLong, fields_4_12]
  case aluI16 h =>
    obtain ⟨h0, h1, h2, h3⟩ := aluFn_ne h
    simp [instrOf, decodeLong, h0, h1, h2, h3, longImm_encodeI16]

/-! ### Every word stands in its map (spec/30_encoding.md R63) -/

theorem exists_inMap_load (sm : SmBit) (a b f : Nibble) : ∃ i, InMap sm none (word4 0x0#4 a b f) i := by
  obtain ⟨base, rfl⟩ := exists_regBits a
  obtain ⟨n, rfl⟩ := exists_regBits b
  by_cases hbase : base = .r15
  · obtain ⟨x, rfl | rfl⟩ := exists_append_low_bit f
    · obtain ⟨i, z, k, d, h⟩ := exists_flagBits n.bits
      rw [hbase, ← h]
      exact ⟨_, .ret i z k d x⟩
    · by_cases hn : n = .r15
      · rw [hbase, hn]
        exact ⟨_, .popFlag x⟩
      · rw [hbase]
        exact ⟨_, .popReg n x hn⟩
  · exact ⟨_, .ldm n base f hbase⟩

theorem exists_inMap_store (sm : SmBit) (a b f : Nibble) : ∃ i, InMap sm none (word4 0x1#4 a b f) i := by
  obtain ⟨base, rfl⟩ := exists_regBits a
  obtain ⟨n, rfl⟩ := exists_regBits b
  by_cases hbase : base = .r15
  · obtain ⟨x, rfl | rfl⟩ := exists_append_low_bit f
    · rw [hbase]
      exact ⟨_, .rsv2 n.bits x⟩
    · by_cases hn : n = .r15
      · rw [hbase, hn]
        exact ⟨_, .pushFlag x⟩
      · rw [hbase]
        exact ⟨_, .pushReg n x hn⟩
  · exact ⟨_, .stm base f n hbase⟩

theorem exists_inMap_branch (sm : SmBit) (a : Nibble) (rel : Byte) : ∃ i, InMap sm none (word8 0x2#4 a rel) i := by
  obtain ⟨cond, rfl⟩ := exists_condBits a
  by_cases hcond : cond = .never
  · rw [hcond]
    exact ⟨_, .pfx rel⟩
  · exact ⟨_, .bcc cond rel hcond⟩

theorem exists_inMap_group3 (sm : SmBit) (a b f : Nibble) : ∃ i, InMap sm none (word4 0x3#4 a b f) i := by
  obtain ⟨ra, rfl⟩ := exists_regBits a
  obtain ⟨rb, rfl⟩ := exists_regBits b
  obtain rfl | rfl | rfl | rfl | hf := aluFn_or f
  · by_cases ha : ra.bits = 0xF#4
    · obtain ⟨i, z, k, d, h⟩ := exists_flagBits rb.bits
      rw [ha, ← h]
      exact ⟨_, .flag i z k d⟩
    · exact ⟨_, .rsv1 _ _ ha⟩
  · by_cases h0 : rb.bits = 0x0#4
    · rw [h0]
      exact ⟨_, .asr ra⟩
    · by_cases h1 : rb.bits = sm.mask
      · rw [h1]
        exact ⟨_, .shr ra⟩
      · exact ⟨_, .rsv4 _ _ h0 h1⟩
  · obtain ⟨cond, hcond⟩ := exists_condBits ra.bits
    rw [← hcond]
    exact ⟨_, .jcc cond rb⟩
  · by_cases ha : ra.bits = 0xF#4
    · rw [ha]
      exact ⟨_, .jsr rb⟩
    · exact ⟨_, .rsv3 _ _ ha⟩
  · exact ⟨_, .aluRR f ra rb hf⟩

theorem exists_inMap_short (sm : SmBit) (w : Word) : ∃ i, InMap sm none w i := by
  rcases aluFn_or (fieldOp w) with h | h | h | h | h
  · rw [← word4_fields w, h]; exact exists_inMap_load ..
  · rw [← word4_fields w, h]; exact exists_inMap_store ..
  · rw [← word8_fields w, h]; exact exists_inMap_branch ..
  · rw [← word4_fields w, h]; exact exists_inMap_group3 ..
  · obtain ⟨ra, hra⟩ := exists_regBits (fieldA w)
    rw [← word8_fields w, ← hra]
    exact ⟨_, .aluI8 _ ra _ h⟩

theorem exists_inMap_long_load (sm : SmBit) (p : Byte) (a b f : Nibble) :
    (∃ i, InMap sm (some p) (word4 0x0#4 a b f) i) ∧ ∃ i, InMap sm (some p) (word4 0x1#4 a b f) i := by
  obtain ⟨base, rfl⟩ := exists_regBits a
  obtain ⟨data, rfl⟩ := exists_regBits b
  obtain ⟨byteAccess, disp, rfl, rfl⟩ := exists_dispPayload p f
  cases byteAccess
  · exact ⟨⟨_, .ldmw data base disp⟩, ⟨_, .stmw base disp data⟩⟩
  · exact ⟨⟨_, .ldmb data base disp⟩, ⟨_, .stmb base disp data⟩⟩

theorem exists_inMap_long_jump (sm : SmBit) (p : Byte) (k : Nibble) (a : BitVec 7) (x : Bool) :
    ∃ i, InMap sm (some p) (0x2#4 ++ k ++ a ++ BitVec.ofBool x) i := by
  obtain ⟨hp, ha, h0⟩ := absTarget_fields p a
  obtain ⟨cond, rfl⟩ := exists_condBits k
  cases x
  · by_cases hcond : cond = .never
    · rw [hcond]
      exact ⟨_, .rsv7 p a⟩
    · have h := InMap.jccAbs (sm := sm) cond (p ++ a ++ 0#1) hcond h0
      rw [hp, absWord, ha] at h
      exact ⟨_, h⟩
  · by_cases hcond : cond.bits = 0xF#4
    · have h := InMap.jsrAbs (sm := sm) (p ++ a ++ 0#1) h0
      rw [hp, absWord, ha] at h
      rw [hcond]
      exact ⟨_, h⟩
    · exact ⟨_, .rsv6 p _ a hcond⟩

theorem exists_inMap_long (sm : SmBit) (p : Byte) (w : Word) : ∃ i, InMap sm (some p) w i := by
  rcases aluFn_or (fieldOp w) with h | h | h | h | h
  · rw [← word4_fields w, h]; exact (exists_inMap_long_load ..).1
  · rw [← word4_fields w, h]; exact (exists_inMap_long_load ..).2
  · rw [← jump_fields w, h]; exact exists_inMap_long_jump ..
  · rw [← rest_fields w, h]; exact ⟨_, .rsv5 p _⟩
  · obtain ⟨ra, hra⟩ := exists_regBits (fieldA w)
    obtain ⟨hp, hi⟩ := longImm_fields p (fieldImm8 w)
    have hmap := InMap.aluI16 (sm := sm) (fieldOp w) ra (p ++ fieldImm8 w) h
    rw [hp, hi, hra, word8_fields] at hmap
    exact ⟨_, hmap⟩

/-- Every word stands in its map. -/
theorem exists_inMap (sm : SmBit) (p : Option Byte) (w : Word) : ∃ i, InMap sm p w i := by
  cases p with
  | none => exact exists_inMap_short sm w
  | some p => exact exists_inMap_long sm p w

/-! ### The decoder by the maps (spec/30_encoding.md R63, R66) -/

section
variable {c : Config} {p : Option Byte} {w : Word} {i : Instr}

theorem decode_eq (c : Config) (p : Option Byte) (w : Word) :
    decode c p w = match (instrOf c p w).unit with
      | none => .ok (instrOf c p w)
      | some u => if c.has u then .ok (instrOf c p w) else .error (.absentUnit u) := by
  cases p <;> rfl

theorem Instr.inBuild_iff (c : Config) (i : Instr) :
    i.inBuild c = true ↔ ∀ u, i.unit = some u → c.has u = true := by
  unfold Instr.inBuild
  cases i.unit <;> simp

theorem InMap.decode_absent {u : BuildUnit} (h : InMap c.smBit p w i) (hu : i.unit = some u)
    (hc : c.has u = false) : decode c p w = .error (.absentUnit u) := by
  rw [decode_eq, h.instrOf_eq, hu]
  exact if_neg (by simp [hc])

theorem InMap.decode_ok (h : InMap c.smBit p w i) (hb : i.inBuild c = true) : decode c p w = .ok i := by
  rw [Instr.inBuild_iff] at hb
  rw [decode_eq, h.instrOf_eq]
  cases hu : i.unit with
  | none => rfl
  | some u => exact if_pos (hb u hu)

/-- What the decoder delivers: the instruction of the word, if the build has the unit it needs. -/
theorem decode_eq_ok : decode c p w = .ok i ↔ InMap c.smBit p w i ∧ i.inBuild c = true := by
  refine ⟨fun h => ?_, fun ⟨hmap, hb⟩ => hmap.decode_ok hb⟩
  obtain ⟨j, hj⟩ := exists_inMap c.smBit p w
  by_cases hb : j.inBuild c = true
  · rw [hj.decode_ok hb] at h
    cases h
    exact ⟨hj, hb⟩
  · rw [Instr.inBuild_iff] at hb
    push Not at hb
    obtain ⟨u, hu, hc⟩ := hb
    rw [hj.decode_absent hu (Bool.eq_false_of_not_eq_true hc)] at h
    cases h

/-- Words of one instruction decode alike. -/
theorem InMap.decode_eq_decode {w' : Word} (h : InMap c.smBit p w i) (h' : InMap c.smBit p w' i) :
    decode c p w = decode c p w' := by
  rw [decode_eq, decode_eq, h.instrOf_eq, h'.instrOf_eq]
end

/-! ### The encoder by the maps (spec/30_encoding.md R52) -/

theorem decodeWords_prefixWord (c : Config) (p : Byte) (w : Word) :
    decodeWords c [prefixWord p, w] = decode c (some p) w := by
  simp [decodeWords]

/-- A well-formed instruction encodes to a word of the one-word map, or to a payload and the word of the prefixed map
that follows it. -/
theorem exists_encode_inMap {c : Config} {i : Instr} (h : i.fieldsOk c = true) :
    (∃ w, encode c i = [w] ∧ InMap c.smBit none w i) ∨
      ∃ p w, encode c i = [prefixWord p, w] ∧ InMap c.smBit (some p) w i := by
  cases i <;> simp only [Instr.fieldsOk, namedRet, bne_iff_ne, Bool.and_eq_true, Bool.not_eq_true'] at h
  case ret => exact .inl ⟨_, rfl, .ret false false false false 0⟩
  case retCli => exact .inl ⟨_, rfl, .ret true false false false 0⟩
  case retSti => exact .inl ⟨_, rfl, .ret true false false true 0⟩
  case retFlag ifl zfl cfl fd =>
    have hret : retOf ifl zfl cfl fd = .retFlag ifl zfl cfl fd := by
      revert h
      cases zfl <;> cases cfl <;> simp [retOf]
    exact .inl ⟨_, rfl, hret ▸ .ret ifl zfl cfl fd 0⟩
  case popFlag => exact .inl ⟨_, rfl, .popFlag 0⟩
  case popReg => exact .inl ⟨_, rfl, .popReg _ 0 h⟩
  case ldm => exact .inl ⟨_, rfl, .ldm _ _ _ h⟩
  case pushFlag => exact .inl ⟨_, rfl, .pushFlag 0⟩
  case pushReg => exact .inl ⟨_, rfl, .pushReg _ 0 h⟩
  case rsv2 => exact .inl ⟨_, rfl, .rsv2 ..⟩
  case stm => exact .inl ⟨_, rfl, .stm _ _ _ h⟩
  case pfx => exact .inl ⟨_, rfl, .pfx _⟩
  case bcc => exact .inl ⟨_, rfl, .bcc _ _ h⟩
  case nop => exact .inl ⟨_, rfl, .flag false false false false⟩
  case clc | stc | clz | stz | cli | sti => exact .inl ⟨_, rfl, .flag ..⟩
  case flagop ifl zfl cfl fd =>
    have hflag : flagOf ifl zfl cfl fd = .flagop ifl zfl cfl fd := by rw [flagOf, h]; rfl
    exact .inl ⟨_, rfl, hflag ▸ .flag ifl zfl cfl fd⟩
  case rsv1 => exact .inl ⟨_, rfl, .rsv1 _ _ h⟩
  case asr => exact .inl ⟨_, rfl, .asr _⟩
  case shr => exact .inl ⟨_, rfl, .shr _⟩
  case rsv4 => exact .inl ⟨_, rfl, .rsv4 _ _ h.1 h.2⟩
  case jcc => exact .inl ⟨_, rfl, .jcc ..⟩
  case jsr => exact .inl ⟨_, rfl, .jsr _⟩
  case rsv3 => exact .inl ⟨_, rfl, .rsv3 _ _ h⟩
  case andRR | orRR | xorRR | movRR | addRR | subRR | adcRR | sbcRR | tstRR | cmpRR | mltRR | mlhRR =>
    exact .inl ⟨_, rfl, .aluRR _ _ _ (by decide)⟩
  case andI8 | orI8 | xorI8 | movI8 | addI8 | subI8 | adcI8 | sbcI8 | tstI8 | cmpI8 | mltI8 | mlhI8 =>
    exact .inl ⟨_, rfl, .aluI8 _ _ _ (by decide)⟩
  case ldmb => exact .inr ⟨_, _, rfl, .ldmb ..⟩
  case ldmw => exact .inr ⟨_, _, rfl, .ldmw ..⟩
  case stmb => exact .inr ⟨_, _, rfl, .stmb ..⟩
  case stmw => exact .inr ⟨_, _, rfl, .stmw ..⟩
  case jsrAbs => exact .inr ⟨_, _, rfl, .jsrAbs _ h⟩
  case rsv6 => exact .inr ⟨_, _, rfl, .rsv6 _ _ _ h⟩
  case rsv7 => exact .inr ⟨_, _, rfl, .rsv7 ..⟩
  case jccAbs => exact .inr ⟨_, _, rfl, .jccAbs _ _ h.1 h.2⟩
  case rsv5 => exact .inr ⟨_, _, rfl, .rsv5 ..⟩
  case andI16 | orI16 | xorI16 | movI16 | addI16 | subI16 | adcI16 | sbcI16 | tstI16 | cmpI16 | mltI16 | mlhI16 =>
    exact .inr ⟨_, _, rfl, .aluI16 _ _ _ (by decide)⟩

/-- An ALU operation on two registers: its word, its well-formedness, its row of the opcode table. -/
theorem aluRR_facts (c : Config) {fn : Nibble} (h : 4#4 ≤ fn) (ra rb : Reg) :
    encode c (aluRR fn ra rb) = encodeRR fn ra rb ∧ (aluRR fn ra rb).fieldsOk c = true
      ∧ Claims.rowOf (aluRR fn ra rb) = 24 + fn.toNat := by
  rcases aluFn_cases h with rfl | rfl | rfl | rfl | rfl | rfl | rfl | rfl | rfl | rfl | rfl | rfl <;>
    exact ⟨rfl, rfl, rfl⟩

/-- An ALU operation with an 8-bit immediate: its word, its well-formedness, its row of the opcode table. -/
theorem aluI8_facts (c : Config) {fn : Nibble} (h : 4#4 ≤ fn) (ra : Reg) (imm : Byte) :
    encode c (aluI8 fn ra imm) = encodeI8 fn ra imm ∧ (aluI8 fn ra imm).fieldsOk c = true
      ∧ Claims.rowOf (aluI8 fn ra imm) = 36 + fn.toNat := by
  rcases aluFn_cases h with rfl | rfl | rfl | rfl | rfl | rfl | rfl | rfl | rfl | rfl | rfl | rfl <;>
    exact ⟨rfl, rfl, rfl⟩

/-- An ALU operation with a 16-bit immediate: its words, its well-formedness, its row of the opcode table. -/
theorem aluI16_facts (c : Config) {fn : Nibble} (h : 4#4 ≤ fn) (ra : Reg) (imm : Word) :
    encode c (aluI16 fn ra imm) = encodeI16 fn ra imm ∧ (aluI16 fn ra imm).fieldsOk c = true
      ∧ Claims.rowOf (aluI16 fn ra imm) = 57 + fn.toNat := by
  rcases aluFn_cases h with rfl | rfl | rfl | rfl | rfl | rfl | rfl | rfl | rfl | rfl | rfl | rfl <;>
    exact ⟨rfl, rfl, rfl⟩

theorem retOf_fieldsOk (c : Config) (ifl zfl cfl fd : Bool) : (retOf ifl zfl cfl fd).fieldsOk c = true := by
  unfold retOf
  split_ifs with hflags
  · revert hflags
    cases zfl <;> simp [Instr.fieldsOk, namedRet]
  all_goals rfl

theorem flagOf_fieldsOk (c : Config) (ifl zfl cfl fd : Bool) : (flagOf ifl zfl cfl fd).fieldsOk c = true := by
  unfold flagOf
  split_ifs with hmany
  · exact hmany
  all_goals rfl

/-- The instructions whose words have bits the decoder ignores (R64), NOP for its FD (R81). -/
def Instr.ignoresBits : Instr → Bool
  | .ret | .retCli | .retSti | .retFlag _ _ _ _ | .popReg _ | .popFlag | .pushReg _ | .pushFlag | .nop => true
  | _ => false

theorem retOf_ignoresBits (ifl zfl cfl fd : Bool) : (retOf ifl zfl cfl fd).ignoresBits = true := by
  unfold retOf
  split_ifs <;> rfl

/-- Of the sixteen flag operations only NOP loses a bit, its FD. -/
theorem encode_flagOf (c : Config) (ifl zfl cfl fd : Bool) (h : (flagOf ifl zfl cfl fd).ignoresBits = false) :
    encode c (flagOf ifl zfl cfl fd) = [word4 0x3#4 0xF#4 (flagBits ifl zfl cfl fd) 0x0#4] := by
  cases ifl <;> cases zfl <;> cases cfl
  case false.false.false => cases h
  all_goals cases fd <;> rfl

section
variable {c : Config} {p : Option Byte} {w : Word} {i : Instr}

/-- Encoding gives back the word, behind the payload that was pending. -/
theorem InMap.encode_eq (h : InMap c.smBit p w i) (hi : i.ignoresBits = false) :
    encode c i = p.elim [w] fun q => [prefixWord q, w] := by
  cases h
  case ret => rw [retOf_ignoresBits] at hi; cases hi
  case popFlag | popReg | pushFlag | pushReg => cases hi
  case flag => exact encode_flagOf _ _ _ _ _ hi
  case aluRR fn ra rb hfn =>
    obtain ⟨hencode, -, -⟩ := aluRR_facts c hfn ra rb
    exact hencode
  case aluI8 fn ra imm hfn =>
    obtain ⟨hencode, -, -⟩ := aluI8_facts c hfn ra imm
    exact hencode
  case aluI16 fn ra imm hfn =>
    obtain ⟨hencode, -, -⟩ := aluI16_facts c hfn ra imm
    exact hencode
  all_goals rfl

theorem InMap.fieldsOk (h : InMap c.smBit p w i) : i.fieldsOk c = true := by
  cases h
  case ret => exact retOf_fieldsOk ..
  case flag => exact flagOf_fieldsOk ..
  case aluRR fn ra rb hfn =>
    obtain ⟨-, hfields, -⟩ := aluRR_facts c hfn ra rb
    exact hfields
  case aluI8 fn ra imm hfn =>
    obtain ⟨-, hfields, -⟩ := aluI8_facts c hfn ra imm
    exact hfields
  case aluI16 fn ra imm hfn =>
    obtain ⟨-, hfields, -⟩ := aluI16_facts c hfn ra imm
    exact hfields
  case popReg h | pushReg h | ldm h | stm h | bcc h | rsv1 h | rsv3 h | rsv6 h => simpa [Instr.fieldsOk] using h
  case jsrAbs h => simpa [Instr.fieldsOk] using h
  case rsv4 h0 h1 => simpa [Instr.fieldsOk] using ⟨h0, h1⟩
  case jccAbs hc h => simpa [Instr.fieldsOk] using ⟨hc, h⟩
  all_goals rfl

end

/-! ### Don't-care bits (spec/30_encoding.md R64) -/

theorem decode_ret_low (c : Config) (b : Nibble) (x y : BitVec 3) :
    decode c none (word4 0x0#4 0xF#4 b (x ++ 0#1)) = decode c none (word4 0x0#4 0xF#4 b (y ++ 0#1)) := by
  obtain ⟨i, z, k, d, rfl⟩ := exists_flagBits b
  exact (InMap.ret i z k d x).decode_eq_decode (.ret i z k d y)

theorem decode_pop_low (c : Config) (b : Nibble) (x y : BitVec 3) :
    decode c none (word4 0x0#4 0xF#4 b (x ++ 1#1)) = decode c none (word4 0x0#4 0xF#4 b (y ++ 1#1)) := by
  obtain ⟨n, rfl⟩ := exists_regBits b
  by_cases hn : n = .r15
  · rw [hn]
    exact (InMap.popFlag x).decode_eq_decode (.popFlag y)
  · exact (InMap.popReg n x hn).decode_eq_decode (.popReg n y hn)

theorem decode_push_low (c : Config) (b : Nibble) (x y : BitVec 3) :
    decode c none (word4 0x1#4 0xF#4 b (x ++ 1#1)) = decode c none (word4 0x1#4 0xF#4 b (y ++ 1#1)) := by
  obtain ⟨n, rfl⟩ := exists_regBits b
  by_cases hn : n = .r15
  · rw [hn]
    exact (InMap.pushFlag x).decode_eq_decode (.pushFlag y)
  · exact (InMap.pushReg n x hn).decode_eq_decode (.pushReg n y hn)

end Sys2Proof

namespace Sys2Proof.Claims

/-! ### Rows of the opcode table that hold all words of a format (spec/30_encoding.md R69) -/

section
variable {n : Nat} {w k v m x : BitVec n}

/-- A word with the bits `v` under `k` misses a row that asks for another bit under `k`. -/
theorem and_ne_of_known (hw : w &&& k = v) (h : v &&& m ≠ x &&& k) : w &&& m ≠ x := by
  rintro rfl
  apply h
  rw [← hw]
  ac_rfl

/-- A word with the bits `v` under `k` meets a row that asks for these bits only. -/
theorem and_eq_of_known (hw : w &&& k = v) (hm : m &&& k = m) (hx : v &&& m = x) : w &&& m = x := by
  rw [← hm, ← hx, ← hw]
  ac_rfl

end

/-- No word of the row `q` is one of `r`: the maps differ, or the rows ask for different values of a bit. -/
def TableRow.disjoint (q r : TableRow) : Bool :=
  q.prefixed != r.prefixed || q.value &&& r.mask != r.value &&& q.mask
    || (q.prefixed && q.payloadValue &&& r.payloadMask != r.payloadValue &&& q.payloadMask)

/-- Every word of the row `q` is one of `r`: `r` asks only for bits that `q` asks for. -/
def TableRow.within (q r : TableRow) : Bool :=
  q.prefixed == r.prefixed && (r.mask &&& q.mask == r.mask) && (q.value &&& r.mask == r.value)
    && (r.payloadMask &&& q.payloadMask == r.payloadMask) && (q.payloadValue &&& r.payloadMask == r.payloadValue)

/-- The words of `q` belong to row `n` of the table and to none before it. -/
def TableRow.belongsTo (q : TableRow) (n : Nat) : Bool :=
  (tableRows.findIdx? fun r => !q.disjoint r) == some n && tableRows[n]?.any q.within

section
variable {q r : TableRow} {p : Option Byte} {w : Word}

theorem TableRow.matches_of_disjoint (h : q.disjoint r = true) (hq : q.matches p w = true) :
    r.matches p w = false := by
  simp only [TableRow.disjoint, Bool.or_eq_true, Bool.and_eq_true, bne_iff_ne] at h
  simp only [TableRow.matches, Bool.and_eq_true, beq_iff_eq] at hq
  obtain ⟨hword, hpayload⟩ := hq
  by_contra hr
  simp only [TableRow.matches, Bool.not_eq_false, Bool.and_eq_true, beq_iff_eq] at hr
  obtain ⟨hrword, hrpayload⟩ := hr
  rcases h with (h | h) | ⟨hpre, h⟩
  · cases p <;> simp_all
  · exact and_ne_of_known hword h hrword
  · cases p with
    | none => simp_all
    | some p =>
      simp only [Bool.and_eq_true, beq_iff_eq] at hpayload hrpayload
      exact and_ne_of_known hpayload.2 h hrpayload.2

theorem TableRow.matches_of_within (h : q.within r = true) (hq : q.matches p w = true) :
    r.matches p w = true := by
  simp only [TableRow.within, Bool.and_eq_true, beq_iff_eq] at h
  obtain ⟨⟨⟨⟨hpre, hm⟩, hv⟩, hpm⟩, hpv⟩ := h
  simp only [TableRow.matches, Bool.and_eq_true, beq_iff_eq] at hq ⊢
  obtain ⟨hword, hpayload⟩ := hq
  refine ⟨and_eq_of_known hword hm hv, ?_⟩
  cases p with
  | none => rwa [← hpre]
  | some p =>
    simp only [Bool.and_eq_true, beq_iff_eq] at hpayload ⊢
    exact ⟨hpre ▸ hpayload.1, and_eq_of_known hpayload.2 hpm hpv⟩

/-- Every word of `q` has row `n` as the first row that matches. -/
theorem firstRow_of_belongsTo {n : Nat} (h : q.belongsTo n = true) (hq : q.matches p w = true) :
    firstRow p w = some n := by
  obtain ⟨hfirst, hrow⟩ := Bool.and_eq_true_iff.1 h
  obtain ⟨hn, -, hbefore⟩ := List.findIdx?_eq_some_iff_getElem.1 (eq_of_beq hfirst)
  rw [List.getElem?_eq_getElem hn, Option.any_some] at hrow
  refine List.findIdx?_eq_some_iff_getElem.2 ⟨hn, TableRow.matches_of_within hrow hq, fun j hj => ?_⟩
  rw [TableRow.matches_of_disjoint (by simpa using hbefore j hj) hq]
  simp

/-- The words of the one-word map with the bits `v` under `k`. -/
def oneWord (v k : Word) : TableRow := ⟨false, v, k, 0#8, 0#8⟩

/-- The words of the prefixed map with the bits `v` under `k`, behind any payload. -/
def prefixedWord (v k : Word) : TableRow := ⟨true, v, k, 0#8, 0#8⟩

theorem oneWord_matches {v k : Word} (h : w &&& k = v) : (oneWord v k).matches none w = true := by
  simpa [oneWord, TableRow.matches] using h

theorem prefixedWord_matches {v k : Word} (h : w &&& k = v) (p : Byte) :
    (prefixedWord v k).matches (some p) w = true := by
  simpa [prefixedWord, TableRow.matches] using h

end

@[simp] theorem word4_and (op a b f op' a' b' f' : Nibble) :
    word4 op a b f &&& word4 op' a' b' f' = word4 (op &&& op') (a &&& a') (b &&& b') (f &&& f') := by
  unfold word4
  ext j hj
  simp only [BitVec.getElem_append, BitVec.getElem_and]
  grind

@[simp] theorem word8_and (op a op' a' : Nibble) (i i' : Byte) :
    word8 op a i &&& word8 op' a' i' = word8 (op &&& op') (a &&& a') (i &&& i') := by
  unfold word8
  ext j hj
  simp only [BitVec.getElem_append, BitVec.getElem_and]
  grind

@[simp] theorem nibble_and_F (n : Nibble) : n &&& 0xF#4 = n := BitVec.and_allOnes

@[simp] theorem append_zero_and_one (x : BitVec 3) : x ++ 0#1 &&& 0x1#4 = 0x0#4 := by revert x; decide
@[simp] theorem append_one_and_one (x : BitVec 3) : x ++ 1#1 &&& 0x1#4 = 0x1#4 := by revert x; decide

theorem dispPayload_and (byteAccess : Bool) (disp : BitVec 11) :
    dispPayload byteAccess disp &&& 0x80#8 = BitVec.ofBool byteAccess ++ 0#7 := by
  unfold dispPayload
  rw [show 0x80#8 = 1#1 ++ 0#6 ++ 0#1 from rfl]
  ext j hj
  simp only [BitVec.getElem_append, BitVec.getElem_and]
  grind

/-- The bits of a second word of format P+J that the table asks for. -/
theorem jump_and (op k : Nibble) (a : BitVec 7) (x : BitVec 1) :
    (op ++ k ++ a ++ x : Word) &&& 0xFF01#16 = op ++ k ++ 0#7 ++ x := by
  have hfields : (op ++ k ++ a ++ x : Word) &&& (0xF#4 ++ 0xF#4 ++ 0#7 ++ 1#1)
      = (op &&& 0xF#4) ++ (k &&& 0xF#4) ++ (a &&& 0#7) ++ (x &&& 1#1) := by
    ext j hj
    simp only [BitVec.getElem_append, BitVec.getElem_and]
    grind
  have hx : x &&& 1#1 = x := BitVec.and_allOnes
  rwa [nibble_and_F, nibble_and_F, hx, BitVec.and_zero] at hfields

/-- The bits of RSV5 that the table asks for. -/
theorem rest_and (rest : BitVec 12) : (0x3#4 ++ rest : Word) &&& 0xF000#16 = 0x3#4 ++ 0#12 := by
  have hfields : (0x3#4 ++ rest : Word) &&& (0xF#4 ++ 0#12) = (0x3#4 &&& 0xF#4) ++ (rest &&& 0#12) :=
    BitVec.and_append
  rwa [BitVec.and_zero] at hfields

/-! Each row below is a finite check: a format has few values in the bits the table asks for, and its operands stand
in the other bits. -/

theorem belongsTo_loads :
    (∀ i z k d : Bool,
      (oneWord (word4 0x0#4 0xF#4 (flagBits i z k d) 0x0#4) (word4 0xF#4 0xF#4 0xF#4 0x1#4)).belongsTo
        (rowOf (retOf i z k d)) = true) ∧
    (oneWord (word4 0x0#4 0xF#4 0xF#4 0x1#4) (word4 0xF#4 0xF#4 0xF#4 0x1#4)).belongsTo 4 = true ∧
    (∀ n : Nibble, n ≠ 0xF#4 →
      (oneWord (word4 0x0#4 0xF#4 n 0x1#4) (word4 0xF#4 0xF#4 0xF#4 0x1#4)).belongsTo 5 = true) ∧
    (∀ base : Nibble, base ≠ 0xF#4 →
      (oneWord (word4 0x0#4 base 0x0#4 0x0#4) (word4 0xF#4 0xF#4 0x0#4 0x0#4)).belongsTo 6 = true) := by
  decide +kernel

theorem belongsTo_stores :
    (oneWord (word4 0x1#4 0xF#4 0xF#4 0x1#4) (word4 0xF#4 0xF#4 0xF#4 0x1#4)).belongsTo 7 = true ∧
    (∀ n : Nibble, n ≠ 0xF#4 →
      (oneWord (word4 0x1#4 0xF#4 n 0x1#4) (word4 0xF#4 0xF#4 0xF#4 0x1#4)).belongsTo 8 = true) ∧
    (oneWord (word4 0x1#4 0xF#4 0x0#4 0x0#4) (word4 0xF#4 0xF#4 0x0#4 0x1#4)).belongsTo 9 = true ∧
    (∀ base : Nibble, base ≠ 0xF#4 →
      (oneWord (word4 0x1#4 base 0x0#4 0x0#4) (word4 0xF#4 0xF#4 0x0#4 0x0#4)).belongsTo 10 = true) := by
  decide +kernel

theorem belongsTo_branches :
    (oneWord (word8 0x2#4 0x7#4 0x00#8) (word8 0xF#4 0xF#4 0x00#8)).belongsTo 11 = true ∧
    (∀ cond : Nibble, cond ≠ 0x7#4 →
      (oneWord (word8 0x2#4 cond 0x00#8) (word8 0xF#4 0xF#4 0x00#8)).belongsTo 12 = true) := by
  decide +kernel

theorem belongsTo_group3 :
    (∀ i z k d : Bool,
      (oneWord (word4 0x3#4 0xF#4 (flagBits i z k d) 0x0#4) (word4 0xF#4 0xF#4 0xF#4 0xF#4)).belongsTo
        (rowOf (flagOf i z k d)) = true) ∧
    (∀ a : Nibble, a ≠ 0xF#4 →
      (oneWord (word4 0x3#4 a 0x0#4 0x0#4) (word4 0xF#4 0xF#4 0x0#4 0xF#4)).belongsTo 21 = true) ∧
    (oneWord (word4 0x3#4 0x0#4 0x0#4 0x1#4) (word4 0xF#4 0x0#4 0xF#4 0xF#4)).belongsTo 22 = true ∧
    (oneWord (word4 0x3#4 0x0#4 0x1#4 0x1#4) (word4 0xF#4 0x0#4 0xF#4 0xF#4)).belongsTo 23 = true ∧
    (∀ smod : Nibble, smod ≠ 0x0#4 → smod ≠ 0x1#4 →
      (oneWord (word4 0x3#4 0x0#4 smod 0x1#4) (word4 0xF#4 0x0#4 0xF#4 0xF#4)).belongsTo 24 = true) ∧
    (oneWord (word4 0x3#4 0x0#4 0x0#4 0x2#4) (word4 0xF#4 0x0#4 0x0#4 0xF#4)).belongsTo 25 = true ∧
    (oneWord (word4 0x3#4 0xF#4 0x0#4 0x3#4) (word4 0xF#4 0xF#4 0x0#4 0xF#4)).belongsTo 26 = true ∧
    (∀ a : Nibble, a ≠ 0xF#4 →
      (oneWord (word4 0x3#4 a 0x0#4 0x3#4) (word4 0xF#4 0xF#4 0x0#4 0xF#4)).belongsTo 27 = true) := by
  decide +kernel

theorem belongsTo_alu {fn : Nibble} (h : 4#4 ≤ fn) :
    (oneWord (word4 0x3#4 0x0#4 0x0#4 fn) (word4 0xF#4 0x0#4 0x0#4 0xF#4)).belongsTo (24 + fn.toNat) = true ∧
    (oneWord (word8 fn 0x0#4 0x00#8) (word8 0xF#4 0x0#4 0x00#8)).belongsTo (36 + fn.toNat) = true ∧
    (prefixedWord (word8 fn 0x0#4 0x00#8) (word8 0xF#4 0x0#4 0x00#8)).belongsTo (57 + fn.toNat) = true := by
  revert fn; decide +kernel

/-- The words of the prefixed map with the major opcode `op`, behind a payload with a given bit 7. -/
def longAccess (byteAccess : Bool) (op : Nibble) : TableRow :=
  ⟨true, word4 op 0x0#4 0x0#4 0x0#4, word4 0xF#4 0x0#4 0x0#4 0x0#4, BitVec.ofBool byteAccess ++ 0#7, 0x80#8⟩

theorem longAccess_matches (byteAccess : Bool) (op : Nibble) (base data : Reg) (disp : BitVec 11) :
    (longAccess byteAccess op).matches (some (dispPayload byteAccess disp)) (dispWord op base data disp) = true := by
  simp [longAccess, TableRow.matches, dispWord, dispPayload_and]

theorem belongsTo_longAccess :
    (longAccess true 0x0#4).belongsTo 52 = true ∧ (longAccess false 0x0#4).belongsTo 53 = true ∧
      (longAccess true 0x1#4).belongsTo 54 = true ∧ (longAccess false 0x1#4).belongsTo 55 = true := by
  decide +kernel

theorem belongsTo_jumps :
    (prefixedWord (0x2#4 ++ 0xF#4 ++ 0#7 ++ 1#1) 0xFF01#16).belongsTo 56 = true ∧
    (∀ k : Nibble, k ≠ 0xF#4 →
      (prefixedWord (0x2#4 ++ k ++ 0#7 ++ 1#1) 0xFF01#16).belongsTo 57 = true) ∧
    (prefixedWord (0x27#8 ++ 0#7 ++ 0#1) 0xFF01#16).belongsTo 58 = true ∧
    (∀ k : Nibble, k ≠ 0x7#4 →
      (prefixedWord (0x2#4 ++ k ++ 0#7 ++ 0#1) 0xFF01#16).belongsTo 59 = true) ∧
    (prefixedWord (0x3#4 ++ 0#12) 0xF000#16).belongsTo 60 = true := by
  decide +kernel

/-- The rows of the table are the formats of the maps, where SM is at bit 4. -/
theorem firstRow_of_inMap {p : Option Byte} {w : Word} {i : Instr} (h : InMap .bit4 p w i) :
    firstRow p w = some (rowOf i) := by
  obtain ⟨hret, hpopFlag, hpopReg, hldm⟩ := belongsTo_loads
  obtain ⟨hpushFlag, hpushReg, hrsv2, hstm⟩ := belongsTo_stores
  obtain ⟨hpfx, hbcc⟩ := belongsTo_branches
  obtain ⟨hflag, hrsv1, hasr, hshr, hrsv4, hjcc, hjsr, hrsv3⟩ := belongsTo_group3
  obtain ⟨hldmb, hldmw, hstmb, hstmw⟩ := belongsTo_longAccess
  obtain ⟨hjsrAbs, hrsv6, hrsv7, hjccAbs, hrsv5⟩ := belongsTo_jumps
  cases h
  case ret => exact firstRow_of_belongsTo (hret _ _ _ _) (oneWord_matches (by simp))
  case popFlag => exact firstRow_of_belongsTo hpopFlag (oneWord_matches (by simp))
  case popReg hn => exact firstRow_of_belongsTo (hpopReg _ (Reg.bits_ne_F hn)) (oneWord_matches (by simp))
  case ldm hb => exact firstRow_of_belongsTo (hldm _ (Reg.bits_ne_F hb)) (oneWord_matches (by simp))
  case pushFlag => exact firstRow_of_belongsTo hpushFlag (oneWord_matches (by simp))
  case pushReg hn => exact firstRow_of_belongsTo (hpushReg _ (Reg.bits_ne_F hn)) (oneWord_matches (by simp))
  case rsv2 => exact firstRow_of_belongsTo hrsv2 (oneWord_matches (by simp))
  case stm hb => exact firstRow_of_belongsTo (hstm _ (Reg.bits_ne_F hb)) (oneWord_matches (by simp))
  case pfx => exact firstRow_of_belongsTo hpfx (oneWord_matches (by simp [prefixWord]))
  case bcc hc => exact firstRow_of_belongsTo (hbcc _ (Cond.bits_ne_7 hc)) (oneWord_matches (by simp))
  case flag => exact firstRow_of_belongsTo (hflag _ _ _ _) (oneWord_matches (by simp))
  case rsv1 ha => exact firstRow_of_belongsTo (hrsv1 _ ha) (oneWord_matches (by simp))
  case asr => exact firstRow_of_belongsTo hasr (oneWord_matches (by simp))
  case shr => exact firstRow_of_belongsTo hshr (oneWord_matches (by simp [SmBit.mask]))
  case rsv4 h0 h1 => exact firstRow_of_belongsTo (hrsv4 _ h0 h1) (oneWord_matches (by simp))
  case jcc => exact firstRow_of_belongsTo hjcc (oneWord_matches (by simp))
  case jsr => exact firstRow_of_belongsTo hjsr (oneWord_matches (by simp))
  case rsv3 ha => exact firstRow_of_belongsTo (hrsv3 _ ha) (oneWord_matches (by simp))
  case aluRR fn ra rb hfn =>
    obtain ⟨hfirst, -, -⟩ := belongsTo_alu hfn
    obtain ⟨-, -, hrow⟩ := aluRR_facts .standard hfn ra rb
    rw [hrow]
    exact firstRow_of_belongsTo hfirst (oneWord_matches (by simp))
  case aluI8 fn ra imm hfn =>
    obtain ⟨-, hfirst, -⟩ := belongsTo_alu hfn
    obtain ⟨-, -, hrow⟩ := aluI8_facts .standard hfn ra imm
    rw [hrow]
    exact firstRow_of_belongsTo hfirst (oneWord_matches (by simp))
  case ldmb => exact firstRow_of_belongsTo hldmb (longAccess_matches ..)
  case ldmw => exact firstRow_of_belongsTo hldmw (longAccess_matches ..)
  case stmb => exact firstRow_of_belongsTo hstmb (longAccess_matches ..)
  case stmw => exact firstRow_of_belongsTo hstmw (longAccess_matches ..)
  case jsrAbs => exact firstRow_of_belongsTo hjsrAbs (prefixedWord_matches (jump_and ..) _)
  case rsv6 hk => exact firstRow_of_belongsTo (hrsv6 _ hk) (prefixedWord_matches (jump_and ..) _)
  case rsv7 => exact firstRow_of_belongsTo hrsv7 (prefixedWord_matches (jump_and 0x2#4 0x7#4 _ _) _)
  case jccAbs hc _ =>
    exact firstRow_of_belongsTo (hjccAbs _ (Cond.bits_ne_7 hc)) (prefixedWord_matches (jump_and ..) _)
  case rsv5 => exact firstRow_of_belongsTo hrsv5 (prefixedWord_matches (rest_and _) _)
  case aluI16 fn ra imm hfn =>
    obtain ⟨-, -, hfirst⟩ := belongsTo_alu hfn
    obtain ⟨-, -, hrow⟩ := aluI16_facts .standard hfn ra imm
    rw [hrow]
    exact firstRow_of_belongsTo hfirst (prefixedWord_matches (by simp) _)

end Sys2Proof.Claims

namespace Sys2Proof.Machine

open Claims

/-! ### Instructions of a unit (spec/30_encoding.md R66) and the step of a decoded word -/

theorem unit_eq_some {i : Instr} {u : BuildUnit} : i.unit = some u ↔ NeedsUnit i u := by
  constructor
  · intro h
    cases i
    case asr ra => cases h; exact ⟨ra, .inl rfl⟩
    case shr ra => cases h; exact ⟨ra, .inr rfl⟩
    case mltRR ra rb | mlhRR ra rb => cases h; exact ⟨ra, .reg rb, rfl⟩
    case mltI8 ra imm | mlhI8 ra imm => cases h; exact ⟨ra, .byte imm, rfl⟩
    case mltI16 ra imm | mlhI16 ra imm => cases h; exact ⟨ra, .word imm, rfl⟩
    case ldmb data base disp => cases h; exact ⟨data, base, disp, .inl rfl⟩
    case stmb base disp data => cases h; exact ⟨data, base, disp, .inr rfl⟩
    all_goals cases h
  · intro h
    cases u
    case shift => obtain ⟨ra, rfl | rfl⟩ := h <;> rfl
    case mlt | mlh => obtain ⟨ra, b, rfl⟩ := h; cases b <;> rfl
    case byte => obtain ⟨data, base, disp, rfl | rfl⟩ := h <;> rfl

theorem State.needsUnit_of_lacks {s : State} {u : BuildUnit} (h : s.build.has u = false) (k : Res State) :
    s.needsUnit u k = .refused (.reservedEncoding .rsv8) :=
  if_neg (by simp [h])

/-- An instruction of a unit the build lacks is reserved. -/
theorem exec_of_lacks {s : State} {i : Instr} {u : BuildUnit} (hi : NeedsUnit i u) (h : s.build.has u = false) :
    exec i s = .refused (.reservedEncoding .rsv8) := by
  have hu : i.unit = some u := unit_eq_some.2 hi
  cases i
  case asr | shr | mltRR | mltI8 | mltI16 | mlhRR | mlhI8 | mlhI16 | ldmb | stmb =>
    cases hu
    exact State.needsUnit_of_lacks h _
  all_goals cases hu

theorem State.fetchWord_of_canFetch {s : State} (h : CanFetch s s.pc) : s.fetchWord = .next (s.wordAt s.pc) := by
  obtain ⟨hok, hsees⟩ := h
  refine State.fetchWord_eq_next.2 ⟨hok, rfl, hsees.imp_right fun ⟨hlo, hhi⟩ => ?_⟩
  rw [← Bool.not_eq_true, State.fetchModified_iff]
  exact not_or.2 ⟨hlo, hhi⟩

theorem step_of_decode {s : State} {i : Instr} (ha : s.accepts = false) (hf : CanFetch s s.pc)
    (hd : decode s.build s.pending (s.wordAt s.pc) = .ok i) :
    step s = exec i (s.sampled.addCycles (instrCycles i)) := by
  have hi : s.fetchInstr = .next i := State.fetchInstr_eq_next.2 ⟨_, State.fetchWord_of_canFetch hf, hd⟩
  rw [step, ha, hi]
  rfl

/-- The step at a word of the maps whose instruction needs no unit. -/
theorem step_of_inMap {s : State} {p : Option Byte} {w : Word} {i : Instr} (ha : s.accepts = false)
    (hf : CanFetch s s.pc) (hp : s.pending = p) (hw : s.wordAt s.pc = w) (hmap : InMap s.build.smBit p w i)
    (hu : i.unit = none) : step s = exec i (s.sampled.addCycles (instrCycles i)) := by
  refine step_of_decode ha hf ?_
  rw [hp, hw]
  exact hmap.decode_ok (by rw [Instr.inBuild, hu])

end Sys2Proof.Machine

namespace Sys2Proof.Proofs

open Sys2Proof.Machine Sys2Proof.Claims

/-- Settles O5: the words of an instruction stand in the maps, and the decoder reads the maps. -/
theorem decodeOfEncodeIsTheInstruction : Obligations.DecodeOfEncodeIsTheInstruction := by
  intro c i h
  obtain ⟨hfields, hbuild⟩ := Bool.and_eq_true_iff.1 h
  obtain ⟨w, hw, hmap⟩ | ⟨p, w, hw, hmap⟩ := exists_encode_inMap hfields
  · rw [hw]
    exact hmap.decode_ok hbuild
  · rw [hw, decodeWords_prefixWord]
    exact hmap.decode_ok hbuild

/-- Settles O7: a decoded word stands in its map, and the encoder gives back the words of the maps. -/
theorem encodeOfDecodeIsTheWord : Obligations.EncodeOfDecodeIsTheWord := by
  intro c p w i h hi
  obtain ⟨hmap, -⟩ := decode_eq_ok.1 h
  have hkept : i.ignoresBits = false := by
    cases i
    case ret | retCli | retSti | retFlag | popReg | popFlag | pushReg | pushFlag | nop => exact hi.elim
    all_goals rfl
  rw [hmap.encode_eq hkept]
  cases p <;> rfl

/-- Settles O6: every instruction of the maps has fields its format admits. -/
theorem decodedInstructionIsWellFormed : Obligations.DecodedInstructionIsWellFormed := by
  intro c p w i h
  obtain ⟨hmap, hbuild⟩ := decode_eq_ok.1 h
  exact Bool.and_eq_true_iff.2 ⟨hmap.fieldsOk, hbuild⟩

/-- Settles O8: the maps give a word of RET, POP or PUSH its instruction whatever bits 3:1 are. -/
theorem dontCareBitsAreIgnored : Obligations.DontCareBitsAreIgnored := by
  intro c b x y k
  rw [append_0F_eq_word4, append_0F_eq_word4, append_1F_eq_word4, append_1F_eq_word4]
  refine ⟨?_, decode_push_low c b x y⟩
  obtain rfl | rfl : k = 0#1 ∨ k = 1#1 := by revert k; decide
  · exact decode_ret_low c b x y
  · exact decode_pop_low c b x y

/-- Settles O9, from the row of each format of the maps. -/
theorem decodeAgreesWithTheOpcodeTable : Obligations.DecodeAgreesWithTheOpcodeTable := by
  intro p w
  obtain ⟨i, hmap⟩ := exists_inMap Config.standard.smBit p w
  refine ⟨i, hmap.decode_ok ?_, firstRow_of_inMap hmap⟩
  exact (Instr.inBuild_iff _ _).2 fun u _ => by cases u <;> rfl

/-- Settles O10: units play no part in the maps, which give every word an instruction. -/
theorem decodeRefusesExactlyAbsentUnits : Obligations.DecodeRefusesExactlyAbsentUnits := by
  intro c p w
  obtain ⟨i, hmap⟩ := exists_inMap c.smBit p w
  refine ⟨i, InMap.decode_ok hmap ?_, fun h => ?_, fun u hu hc => ?_⟩
  · exact (Instr.inBuild_iff _ _).2 fun u _ => by cases u <;> rfl
  · exact hmap.decode_ok ((Instr.inBuild_iff _ _).2 fun u hu => h u (unit_eq_some.1 hu))
  · exact hmap.decode_absent (unit_eq_some.2 hu) hc

/-- Settles O59: the seven patterns are formats of the maps, and no state gives their instructions a meaning. -/
theorem reservedPatternsAreRefused : Obligations.ReservedPatternsAreRefused := by
  intro s ha hf
  refine ⟨fun hvalid => ?_, fun hvalid => ?_⟩
  · have hp : s.pending = none := by rw [State.pending, hvalid]; rfl
    refine ⟨fun a b h hw => ?_, fun b x hw => ?_, fun a b h hw => ?_, fun a m h0 h1 hw => ?_⟩
    · exact step_of_inMap (i := .rsv1 a b) ha hf hp hw (.rsv1 a b h) rfl
    · exact step_of_inMap (i := .rsv2 b x) ha hf hp (hw.trans (append_1F_eq_word4 ..)) (.rsv2 b x) rfl
    · exact step_of_inMap (i := .rsv3 a b) ha hf hp hw (.rsv3 a b h) rfl
    · exact step_of_inMap (i := .rsv4 a m) ha hf hp hw (.rsv4 a m h0 h1) rfl
  · have hp : s.pending = some s.pfx := by rw [State.pending, hvalid]; rfl
    refine ⟨fun x hw => ?_, fun k x h hw => ?_, fun x hw => ?_⟩
    · exact step_of_inMap (i := .rsv5 s.pfx x) ha hf hp hw (.rsv5 _ x) rfl
    · exact step_of_inMap (i := .rsv6 s.pfx k x) ha hf hp hw (.rsv6 _ k x h) rfl
    · exact step_of_inMap (i := .rsv7 s.pfx x) ha hf hp hw (.rsv7 _ x) rfl

/-- Settles O60: the reserved rows have no other meaning, and an instruction that needs a unit asks the build for it. -/
theorem reservedInstructionsStop : Obligations.ReservedInstructionsStop := by
  intro s
  refine ⟨fun _ _ _ _ _ _ => ⟨rfl, rfl, rfl, rfl, rfl, rfl, rfl⟩, fun h ra => ?_, fun h ra b => ?_,
    fun h ra b => ?_, fun h data base disp => ?_, fun _ _ => unit_eq_some⟩
  · exact ⟨exec_of_lacks (u := .shift) ⟨ra, .inl rfl⟩ h, exec_of_lacks (u := .shift) ⟨ra, .inr rfl⟩ h⟩
  · exact exec_of_lacks (u := .mlt) ⟨ra, b, rfl⟩ h
  · exact exec_of_lacks (u := .mlh) ⟨ra, b, rfl⟩ h
  · exact ⟨exec_of_lacks (u := .byte) ⟨data, base, disp, .inl rfl⟩ h,
      exec_of_lacks (u := .byte) ⟨data, base, disp, .inr rfl⟩ h⟩

end Sys2Proof.Proofs

/-! The statements of spec/40_system_control.md, with the lemmas they need. -/

namespace Sys2Proof.Machine

open Claims

/-! ### The flag operation (spec/40_system_control.md R80) -/

theorem atMostOneFlag_cases {ifl zfl cfl : Bool} (h : atMostOneFlag ifl zfl cfl = true) :
    (ifl = false ∧ zfl = false ∧ cfl = false) ∨ (ifl = true ∧ zfl = false ∧ cfl = false) ∨
      (ifl = false ∧ zfl = true ∧ cfl = false) ∨ (ifl = false ∧ zfl = false ∧ cfl = true) := by
  revert ifl zfl cfl
  decide

/-- The instructions of format FLG are one family: whatever name the word has, it runs R80 with its four bits. -/
theorem exec_flagOf (ifl zfl cfl fd : Bool) (s : State) :
    exec (flagOf ifl zfl cfl fd) s = .next (s.flagOp ifl zfl cfl fd).advance := by
  cases h : atMostOneFlag ifl zfl cfl
  case false =>
    rw [flagOf, h]
    rfl
  case true =>
    rcases atMostOneFlag_cases h with ⟨rfl, rfl, rfl⟩ | ⟨rfl, rfl, rfl⟩ | ⟨rfl, rfl, rfl⟩ | ⟨rfl, rfl, rfl⟩
    · rfl -- NOP, whatever FD is
    · cases fd <;> rfl -- CLI, STI
    · cases fd <;> rfl -- CLZ, STZ
    · cases fd <;> rfl -- CLC, STC

theorem State.pcNext_advance (s : State) : PcNext s s.advance := s.advance_pc

theorem State.onlyPc_advance (s : State) : OnlyPc s s.advance :=
  ⟨fun r _ => s.reg_advance r, s.advance_flags, ⟨s.advance_pfxValid, s.advance_pfx⟩,
    ⟨s.byteAt_advance, s.advance_written⟩, s.advance_build, s.advance_ivectors, s.advance_cycles⟩

theorem State.pcNext_flagOp_advance (s : State) (ifl zfl cfl fd : Bool) :
    PcNext s (s.flagOp ifl zfl cfl fd).advance :=
  (s.flagOp ifl zfl cfl fd).pcNext_advance

/-- The whole effect of a word of format FLG. -/
theorem exec_flagOf_frame (s : State) (ifl zfl cfl fd : Bool) :
    ∃ t, exec (flagOf ifl zfl cfl fd) s = .next t ∧ PcNext s t ∧ OnlyPc (s.flagOp ifl zfl cfl fd) t :=
  ⟨_, exec_flagOf .., s.pcNext_flagOp_advance .., State.onlyPc_advance _⟩

/-! ### The acceptance condition (spec/60_exceptions.md R182) -/

theorem State.accepts_iff {s : State} :
    s.accepts = true ↔ s.ivectors.headD 0#6 ≠ 0#6 ∧ s.flags.IF = true ∧ s.prefixBlocks = false := by
  simp [State.accepts, State.ivectorNow, and_assoc]

theorem State.accepts_eq_false_of_IF {s : State} (h : s.flags.IF = false) : s.accepts = false :=
  Bool.eq_false_iff.2 fun ha => by
    obtain ⟨_, hIF, _⟩ := State.accepts_iff.1 ha
    exact Bool.false_ne_true (h.symm.trans hIF)

theorem State.prefixBlocks_eq_false {s : State} (h : s.pfxValid = false) : s.prefixBlocks = false := by
  rw [State.prefixBlocks, h, Bool.false_and]

/-- With IF set and no prefix pending, the sample alone decides. -/
theorem State.accepts_iff_of_IF {s : State} (hIF : s.flags.IF = true) (hpfx : s.pfxValid = false) :
    s.accepts = true ↔ s.ivectors.headD 0#6 ≠ 0#6 := by
  rw [State.accepts_iff, and_iff_left ⟨hIF, State.prefixBlocks_eq_false hpfx⟩]

end Sys2Proof.Machine

namespace Sys2Proof.Proofs

open Sys2Proof.Machine Sys2Proof.Claims

/-- Settles O24: the five instructions are R80 with at most one of ZF and CF selected. -/
theorem carryAndZeroFlagInstructions : Obligations.CarryAndZeroFlagInstructions := fun s =>
  ⟨exec_flagOf_frame s false false false false,
    exec_flagOf_frame s false false true false, exec_flagOf_frame s false false true true,
    exec_flagOf_frame s false true false false, exec_flagOf_frame s false true false true⟩

/-- Settles O25: both are R80 with IF selected, and the boundary behind them reads the IF they wrote. -/
theorem interruptEnableInstructions : Obligations.InterruptEnableInstructions := by
  intro s
  constructor
  · refine ⟨_, exec_flagOf true false false false s, s.pcNext_flagOp_advance .., State.onlyPc_advance _, ?_⟩
    exact State.accepts_eq_false_of_IF rfl
  · refine ⟨_, exec_flagOf true false false true s, s.pcNext_flagOp_advance .., State.onlyPc_advance _, ?_⟩
    intro hpfx
    exact State.accepts_iff_of_IF rfl hpfx

/-- Settles O26: the instruction is R80 with its own four bits. -/
theorem everySelectedFlagReceivesFD : Obligations.EverySelectedFlagReceivesFD := by
  intro s i z c d
  exact ⟨(s.flagOp i z c d).advance, rfl, s.pcNext_flagOp_advance .., State.onlyPc_advance _⟩

end Sys2Proof.Proofs

/-! The statements of spec/41_branch_call.md, with the lemmas they need. -/

namespace Sys2Proof.Machine

open Claims

/-! ### The conditions after a comparison (spec/41_branch_call.md R90, R91) -/

theorem carryOfBorrow_carryOfBorrow (k : SubCarry) (b : Bool) : carryOfBorrow k (carryOfBorrow k b) = b := by
  cases k
  · rfl
  · exact Bool.not_not b

/-- A condition's inversion says the opposite of what the condition says. -/
theorem inverted_iff {x : Bool} {p q : Prop} (h : x = true ↔ p) (hq : ¬ p ↔ q) : (!x) = true ↔ q := by
  rw [Bool.not_eq_true', ← Bool.not_eq_true, h, hq]

theorem subb_r (a b : Word) : (subb a b false).r = a - b := by
  have hr := subb_toNat a b false
  have ha := a.isLt
  have hb := b.isLt
  apply BitVec.eq_of_toNat_eq
  rw [BitVec.toNat_sub]
  simp only [Bool.toNat_false] at hr
  omega

theorem zeroBit_subb (a b : Word) : zeroBit (subb a b false).r = true ↔ a = b := by
  rw [subb_r, zeroBit, beq_iff_eq, BitVec.sub_eq_iff_eq_add, BitVec.zero_add]

/-- Signed lower: the sign of the difference, inverted where the difference overflows. -/
theorem subb_neg_xor_ovf (a b : Word) :
    (negBit (subb a b false).r ^^ (subb a b false).ovf) = true ↔ a.toInt < b.toInt := by
  have hr := subb_toNat a b false
  have ho := subb_ovf a b false
  have ha := a.isLt
  have hb := b.isLt
  rw [negBit, getLsbD_15_eq, Bool.xor_iff_ne, ne_eq, Bool.eq_iff_iff, decide_eq_true_iff, ho]
  rw [toInt_eq_ite, toInt_eq_ite]
  simp only [Bool.toNat_false] at hr ⊢
  split <;> split <;> omega

/-- What the four flags say of A and B after CMP A,B. -/
structure ComparesTo (k : SubCarry) (a b : Word) (f : Flags) : Prop where
  zero : f.ZF = true ↔ a = b
  neg : f.NF = (a - b).getLsbD 15
  ovf : f.VF = true ↔ OutOfRange (a.toInt - b.toInt)
  borrow : carryOfBorrow k f.CF = true ↔ a.toNat < b.toNat
  less : (f.NF ^^ f.VF) = true ↔ a.toInt < b.toInt

theorem ComparesTo.arithFlags (s : State) (k : SubCarry) (a b : Word) :
    ComparesTo k a b (s.arithFlags (subFlags k a b false)).flags where
  zero := zeroBit_subb a b
  neg := congrArg negBit (subb_r a b)
  ovf := by simpa [OutOfRange, subFlags] using subb_ovf a b false
  borrow := by simpa [subFlags, carryOfBorrow_carryOfBorrow] using subb_carry a b false
  less := subb_neg_xor_ovf a b

/-- CMP in every operand form sets the flags of the subtraction. -/
theorem exec_cmpOf (s : State) (ra : Reg) (b : AluOperand) :
    ∃ t, exec (cmpOf ra b) s = .next t ∧ t.build = s.build ∧
      ComparesTo t.build.subCarry (s.reg ra) (b.value s) t.flags := by
  cases b
  case reg | byte => exact ⟨_, rfl, rfl, ComparesTo.arithFlags s ..⟩
  case word => exact ⟨_, rfl, rfl, ComparesTo.arithFlags s.endPrefix ..⟩

namespace ComparesTo

variable {k : SubCarry} {a b : Word} {f : Flags}

theorem ls_iff (h : ComparesTo k a b f) : condHolds k f .ls = true ↔ a.toNat ≤ b.toNat := by
  rw [condHolds, lowerOrSame, Bool.or_eq_true, h.zero, h.borrow, ← BitVec.toNat_inj]
  omega

theorem le_iff (h : ComparesTo k a b f) : condHolds k f .le = true ↔ a.toInt ≤ b.toInt := by
  rw [condHolds, Bool.or_eq_true, h.less, h.zero, ← BitVec.toInt_inj]
  omega

theorem cs_iff_of_borrow (h : ComparesTo k a b f) (hk : k = .borrow) : f.CF = true ↔ a.toNat < b.toNat := by
  subst hk
  exact h.borrow

theorem cs_iff_of_notBorrow (h : ComparesTo k a b f) (hk : k = .notBorrow) : f.CF = true ↔ b.toNat ≤ a.toNat := by
  subst hk
  rw [← Bool.not_not f.CF]
  exact inverted_iff h.borrow Nat.not_lt

end ComparesTo

/-! ### Branches and jumps (spec/41_branch_call.md R93, R94, R100) -/

/-- What a conditional jump does to PC, and that it does nothing else. -/
theorem State.branchIf_frame (s : State) (taken : Bool) (target : Word) :
    OnlyPc s (s.branchIf taken target) ∧ (taken = false → PcNext s (s.branchIf taken target)) ∧
      (taken = true → (s.branchIf taken target).pc = target &&& 0xFFFE#16) := by
  cases taken
  case false => exact ⟨s.onlyPc_advance, fun _ => s.pcNext_advance, nofun⟩
  case true => exact ⟨⟨fun _ _ => rfl, rfl, ⟨rfl, rfl⟩, ⟨fun _ => rfl, rfl⟩, rfl, rfl, rfl⟩, nofun, fun _ => rfl⟩

/-! ### Calls (spec/41_branch_call.md R95, R101) -/

theorem State.storesOnly_putWord (s : State) (a v : Word) : StoresOnly a 2 s (s.putWord a v) := by
  refine ⟨s.sameMemBut_putWord a v, fun b => ?_⟩
  have hrange : a.toNat ≤ b ∧ b < a.toNat + 2 ↔ b = a.toNat + 1 ∨ b = a.toNat := by omega
  rw [State.putWord_written, mem_insertAddr, mem_insertAddr, hrange, ← or_assoc, or_comm]

theorem State.pushes_pushed (s : State) (v : Word) : Pushes v s (s.pushed v) := by
  refine ⟨?_, fun r hr => ?_, s.wordAt_pushed v, rfl, (s.setReg .r15 s.pushAddr).storesOnly_putWord s.pushAddr v⟩
  · rw [State.reg_pushed, if_pos rfl, State.pushAddr]
  · rw [State.reg_pushed, if_neg (by simpa using hr)]

/-- The whole effect of a call that completes. -/
theorem State.callTo_frame {s t : State} {target : Word} (h : s.callTo target = .next t) :
    Pushes (s.pc + 2#16) s t ∧ t.pc = target &&& 0xFFFE#16 ∧ t.flags = s.flags ∧ SamePrefix s t ∧ SameModel s t := by
  obtain ⟨_, rfl⟩ := State.callTo_eq_next.1 h
  exact ⟨s.pushes_pushed _, rfl, rfl, ⟨rfl, rfl⟩, rfl, rfl, rfl⟩

theorem State.callTo_of_ok {s : State} (h : s.wordOk s.pushAddr = true) (target : Word) :
    s.callTo target = .next ((s.pushed s.npc).setPc target) :=
  State.callTo_eq_next.2 ⟨h, rfl⟩

/-- After a call the stack word at R15 is accessible and holds the return address. -/
theorem State.callTo_stack {s t : State} {target : Word} (h : s.callTo target = .next t) :
    t.wordOk (t.reg .r15) = true ∧ t.wordAt (t.reg .r15) = s.pc + 2#16 := by
  obtain ⟨⟨hsp, _, hword, hslot, _⟩, _, _, _, hbuild, _⟩ := State.callTo_frame h
  obtain ⟨hok, _⟩ := State.callTo_eq_next.1 h
  rw [hsp, ← hslot, State.wordOk, hbuild]
  exact ⟨hok, hword⟩

/-! ### Returns (spec/41_branch_call.md R96 to R99) -/

/-- The whole effect of a return from an accessible stack word, whatever its flag operation. -/
theorem State.returnWith_frame {s : State} (h : s.wordOk (s.reg .r15) = true) (ifl zfl cfl fd : Bool) :
    ∃ t, s.returnWith ifl zfl cfl fd = .next t ∧ t.pc = s.wordAt (s.reg .r15) &&& 0xFFFE#16
      ∧ t.reg .r15 = s.reg .r15 + 2#16 ∧ SameRegsBut [.r15] s t ∧ t.flags = (s.flagOp ifl zfl cfl fd).flags
      ∧ SamePrefix s t ∧ SameMem s t ∧ SameModel s t := by
  refine ⟨_, State.returnWith_eq_next.2 ⟨h, rfl⟩, rfl, ?_, fun r hr => ?_, rfl, ⟨rfl, rfl⟩, ⟨fun _ => rfl, rfl⟩,
    rfl, rfl, rfl⟩
  · exact s.reg_setReg_self .r15 _
  · exact State.reg_setReg_other s _ (by simpa using hr)

end Sys2Proof.Machine

namespace Sys2Proof.Proofs

open Sys2Proof.Machine Sys2Proof.Claims

/-- Settles O28: the conditions read what CMP's flags say, and a code with bit 3 set is the inversion of its partner. -/
theorem conditionsAfterCompare : Obligations.ConditionsAfterCompare := by
  intro s ra b
  obtain ⟨t, ht, hbuild, h⟩ := exec_cmpOf s ra b
  rw [← hbuild]
  refine ⟨t, ht, h.zero, inverted_iff h.zero Iff.rfl, h.ls_iff, inverted_iff h.ls_iff Nat.not_le,
    h.less, inverted_iff h.less Int.not_lt, h.le_iff, inverted_iff h.le_iff Int.not_le,
    h.ovf, inverted_iff h.ovf Iff.rfl, h.neg ▸ Iff.rfl, inverted_iff (h.neg ▸ Iff.rfl) (Bool.not_eq_true _).to_iff,
    rfl, rfl, fun hk => ?borrow, fun hk => ?notBorrow⟩
  case borrow =>
    have hcs := h.cs_iff_of_borrow hk
    exact ⟨hcs, inverted_iff hcs Nat.not_lt⟩
  case notBorrow =>
    have hcs := h.cs_iff_of_notBorrow hk
    exact ⟨hcs, inverted_iff hcs Nat.not_le⟩

/-- Settles O31: both forms are the one call operation, the absolute one with the prefix used up. -/
theorem callsPushTheReturnAddress : Obligations.CallsPushTheReturnAddress := by
  intro s hok
  refine ⟨fun rb => ?_, fun target heven => ?_⟩
  · have hcall := State.callTo_of_ok hok (s.reg rb)
    exact ⟨_, hcall, State.callTo_frame hcall⟩
  · have hcall := State.callTo_of_ok (s := s.endPrefix) hok target
    have hframe := State.callTo_frame hcall
    rw [masked_of_even heven] at hframe
    exact ⟨_, hcall, hframe⟩

/-- Settles O32: the four instructions are R96 with their own flag operations. -/
theorem returnsPopPcAndApplyTheFlagOperation : Obligations.ReturnsPopPcAndApplyTheFlagOperation := by
  intro s i z c d hok e he
  simp only [List.mem_cons, List.not_mem_nil, or_false] at he
  rcases he with rfl | rfl | rfl | rfl
  · exact State.returnWith_frame hok false false false false
  · exact State.returnWith_frame hok true false false false
  · exact State.returnWith_frame hok true false false true
  · exact State.returnWith_frame hok i z c d

/-- Settles O33: the return pops the word the call pushed, and its addition to R15 undoes the call's subtraction. -/
theorem returnComesBackBehindTheCall : Obligations.ReturnComesBackBehindTheCall := by
  intro s t rb heven hcall
  obtain ⟨⟨hsp, hregs, _⟩, _, hflags, _⟩ := State.callTo_frame hcall
  obtain ⟨hok, hword⟩ := State.callTo_stack hcall
  obtain ⟨u, hret, hpc, hsp', hregs', hflags', _⟩ := State.returnWith_frame hok false false false false
  refine ⟨u, hret, ?_, fun r => ?_, hflags'.trans hflags⟩
  · rw [hpc, hword, masked_of_even (even_add_two heven)]
  · by_cases hr : r = .r15
    · rw [hr, hsp', hsp, BitVec.sub_add_cancel]
    · rw [hregs' r (by simpa using hr), hregs r (by simpa using hr)]

/-- Settles O27: each code is its row of the table; only LS and HI read the carry in a sense of their own. -/
theorem conditionFunctionIsTheTable : Obligations.ConditionFunctionIsTheTable := fun _ =>
  ⟨fun _ => ⟨rfl, rfl, rfl, rfl, rfl, rfl, rfl, rfl, rfl, rfl, rfl, rfl, rfl, rfl⟩, rfl, rfl, rfl, rfl⟩

/-- Settles O29, from what a conditional jump does; the target's base is that of the build. -/
theorem relativeBranch : Obligations.RelativeBranch := by
  intro s k rel
  obtain ⟨honly, hnext, hjump⟩ := s.branchIf_frame (s.holds k) (s.relTarget rel)
  refine ⟨_, rfl, honly, hnext, fun hk => (hjump hk).trans ?_⟩
  rw [State.relTarget]
  cases s.build.relBase <;> rfl

/-- Settles O30, from what a conditional jump does; an even target loses nothing with bit 0. -/
theorem jumpsGoToTheirTarget : Obligations.JumpsGoToTheirTarget := by
  intro s k
  refine ⟨fun rb => ⟨_, rfl, s.branchIf_frame (s.holds k) (s.reg rb)⟩, fun target heven => ?_⟩
  have hframe := s.endPrefix.branchIf_frame (s.holds k) target
  rw [masked_of_even heven] at hframe
  exact ⟨_, rfl, hframe⟩

end Sys2Proof.Proofs

/-! The statements of spec/42_push_pop.md, with the lemmas they need. -/

namespace Sys2Proof.Machine

open Claims

/-! ### FLAGW (spec/10_state.md R16) -/

theorem getLsbD_zero_append_ofBool {n : Nat} (x : BitVec n) (b : Bool) : (x ++ BitVec.ofBool b).getLsbD 0 = b := by
  rw [BitVec.getLsbD_append]
  simp

theorem getLsbD_succ_append_ofBool {n : Nat} (x : BitVec n) (b : Bool) (i : Nat) :
    (x ++ BitVec.ofBool b).getLsbD (i + 1) = x.getLsbD i := by
  simp [BitVec.getLsbD_append]

/-- The eleven free bits of FLAGW stand above the five flags, so no flag depends on them. -/
theorem State.flagImage_flagWord (s : State) : FlagImage s s.flagWord := by
  simp only [FlagImage, State.flagWord, getLsbD_succ_append_ofBool, getLsbD_zero_append_ofBool, and_self]

/-- Flags taken from the flag image of an earlier state are that state's, but for IF. -/
theorem flags_eq_of_flagImage {s u t : State} {w : Word} (himage : FlagImage s w) (hfrom : FlagsFrom w u t) :
    t.flags = { s.flags with IF := u.flags.IF } := by
  obtain ⟨_, hN, hV, hZ, hC⟩ := himage
  obtain ⟨hN', hV', hZ', hC', hIF⟩ := hfrom
  show t.flags = ⟨u.flags.IF, s.flags.NF, s.flags.VF, s.flags.ZF, s.flags.CF⟩
  rw [← hN, ← hV, ← hZ, ← hC, ← hN', ← hV', ← hZ', ← hC', ← hIF]

/-! ### Push (spec/42_push_pop.md R110, R111) -/

/-- The whole effect of a push instruction, whatever word it pushes. -/
theorem State.pushed_advance_frame (s : State) (v : Word) :
    Pushes v s (s.pushed v).advance ∧ PcNext s (s.pushed v).advance ∧ (s.pushed v).advance.flags = s.flags
      ∧ SamePrefix s (s.pushed v).advance ∧ SameModel s (s.pushed v).advance :=
  ⟨s.pushes_pushed v, (s.pushed v).pcNext_advance, rfl, ⟨rfl, rfl⟩, rfl, rfl, rfl⟩

/-- What begins with a push completes only if the slot is accessible. -/
theorem State.wordOk_of_push_bind {s t : State} {v : Word} {k : State → Res State}
    (h : (s.push v).bind k = .next t) : s.wordOk s.pushAddr = true := by
  obtain ⟨_, hpush, _⟩ := Res.bind_eq_next.1 h
  obtain ⟨hok, _⟩ := State.push_eq_next.1 hpush
  exact hok

theorem execPushReg_eq_next {n : Reg} {s t : State} :
    execPushReg n s = .next t ↔ s.wordOk s.pushAddr = true ∧ t = (s.pushed (s.reg n)).advance := by
  refine ⟨fun h => ?_, fun ⟨hok, ht⟩ => ht ▸ execPushReg_of_ok n hok⟩
  have hok := State.wordOk_of_push_bind h
  exact ⟨hok, Res.next_eq_iff.1 ((execPushReg_of_ok n hok).symm.trans h)⟩

theorem execPushFlag_eq_next {s t : State} :
    execPushFlag s = .next t ↔ s.wordOk s.pushAddr = true ∧ t = (s.drew.pushed s.flagWord).advance := by
  refine ⟨fun h => ?_, fun ⟨hok, ht⟩ => ht ▸ execPushFlag_of_ok hok⟩
  have hok : s.wordOk s.pushAddr = true := State.wordOk_of_push_bind (s := s.drew) h
  exact ⟨hok, Res.next_eq_iff.1 ((execPushFlag_of_ok hok).symm.trans h)⟩

/-! ### Pop (spec/42_push_pop.md R112, R113) -/

/-- The whole effect of POP Rn from an accessible stack word. -/
theorem execPopReg_frame {s : State} (hok : s.wordOk (s.reg .r15) = true) {n : Reg} (hn : n ≠ .r15) :
    ∃ t, execPopReg n s = .next t ∧ t.reg n = s.wordAt (s.reg .r15)
      ∧ t.reg .r15 = s.reg .r15 + 2#16 ∧ SameRegsBut [n, .r15] s t ∧ t.flags = s.flags
      ∧ PcNext s t ∧ SamePrefix s t ∧ SameMem s t ∧ SameModel s t := by
  refine ⟨_, execPopReg_of_ok n hok, ?_, ?_, fun r hr => ?_, rfl, State.pcNext_advance _, ⟨rfl, rfl⟩,
    ⟨fun _ => rfl, rfl⟩, rfl, rfl, rfl⟩
  · rw [State.reg_advance, State.reg_setReg_self]
  · rw [State.reg_advance, State.reg_setReg_other _ _ hn.symm, State.reg_setReg_self]
  · obtain ⟨hrn, hr15⟩ : r ≠ n ∧ r ≠ .r15 := by simpa using hr
    rw [State.reg_advance, State.reg_setReg_other _ _ hrn, State.reg_setReg_other _ _ hr15]

/-- The whole effect of POP FLAG from an accessible stack word. -/
theorem execPopFlag_frame {s : State} (hok : s.wordOk (s.reg .r15) = true) :
    ∃ t, execPopFlag s = .next t ∧ FlagsFrom (s.wordAt (s.reg .r15)) s t
      ∧ t.reg .r15 = s.reg .r15 + 2#16 ∧ SameRegsBut [.r15] s t
      ∧ PcNext s t ∧ SamePrefix s t ∧ SameMem s t ∧ SameModel s t := by
  refine ⟨_, execPopFlag_of_ok hok, ⟨rfl, rfl, rfl, rfl, rfl⟩, ?_, fun r hr => ?_, State.pcNext_advance _,
    ⟨rfl, rfl⟩, ⟨fun _ => rfl, rfl⟩, rfl, rfl, rfl⟩
  · rw [State.reg_advance, State.reg_loadFlags, State.reg_setReg_self]
  · rw [State.reg_advance, State.reg_loadFlags, State.reg_setReg_other _ _ (by simpa using hr)]

/-! ### Pop after push (spec/42_push_pop.md R114) -/

/-- Which words are accessible is a matter of the build alone. -/
theorem State.wordOk_congr {s t : State} (hbuild : t.build = s.build) (a : Word) : t.wordOk a = s.wordOk a := by
  rw [State.wordOk, State.wordOk, hbuild]

/-- After a push into an accessible slot, the word R15 points to is accessible too. -/
theorem wordOk_of_pushes {s t : State} {v : Word} (hpush : Pushes v s t) (hbuild : t.build = s.build)
    (hok : s.wordOk s.pushAddr = true) : t.wordOk (t.reg .r15) = true := by
  obtain ⟨hsp, _, _, hslot, _⟩ := hpush
  rwa [hsp, ← hslot, State.wordOk_congr hbuild]

/-- After a push, the word R15 points to is the pushed one. -/
theorem wordAt_of_pushes {s t : State} {v : Word} (hpush : Pushes v s t) : t.wordAt (t.reg .r15) = v := by
  obtain ⟨hsp, _, hword, hslot, _⟩ := hpush
  rwa [hsp, ← hslot]

/-- The pop's addition to R15 undoes the push's subtraction. -/
theorem reg_r15_of_pushes {s t : State} {v : Word} (hpush : Pushes v s t) : t.reg .r15 + 2#16 = s.reg .r15 := by
  obtain ⟨hsp, _⟩ := hpush
  rw [hsp, BitVec.sub_add_cancel]

end Sys2Proof.Machine

namespace Sys2Proof.Proofs

open Sys2Proof.Machine Sys2Proof.Claims

/-- Settles O34: both forms are the one push, of Rn or of FLAGW. -/
theorem pushStoresItsOperand : Obligations.PushStoresItsOperand := by
  intro s hok
  constructor
  · intro n _
    exact ⟨_, execPushReg_of_ok n hok, s.pushed_advance_frame (s.reg n)⟩
  · exact ⟨_, s.flagWord, execPushFlag_of_ok hok, s.flagImage_flagWord, s.drew.pushed_advance_frame s.flagWord⟩

/-- Settles O35, from the effect of each form on the accessible stack word. -/
theorem popLoadsItsOperand : Obligations.PopLoadsItsOperand := fun _ hok =>
  ⟨fun _ hn => execPopReg_frame hok hn, execPopFlag_frame hok⟩

/-- Settles O36: the pop reads the word the push left at R15, and takes back the push's subtraction. -/
theorem popUndoesPush : Obligations.PopUndoesPush := by
  constructor
  · intro s t n m _ hm hpush
    obtain ⟨hok, rfl⟩ := execPushReg_eq_next.1 hpush
    obtain ⟨hpushes, _, hflags, _, hbuild, _⟩ := s.pushed_advance_frame (s.reg n)
    obtain ⟨u, hpop, hreg, hsp, hregs, hflags', _⟩ := execPopReg_frame (wordOk_of_pushes hpushes hbuild hok) hm
    have hsp' : u.reg .r15 = s.reg .r15 := hsp.trans (reg_r15_of_pushes hpushes)
    refine ⟨u, hpop, hreg.trans (wordAt_of_pushes hpushes), hsp', fun r hr => ?_, hflags'.trans hflags⟩
    obtain ⟨_, hkept, _⟩ := hpushes
    by_cases hr15 : r = .r15
    · rw [hr15, hsp']
    · rw [hregs r (by simpa [hr15] using hr), hkept r (by simpa using hr15)]
  · intro s t u hpush hbuild hsp hword
    obtain ⟨hok, rfl⟩ := execPushFlag_eq_next.1 hpush
    obtain ⟨hpushes, _, _, _, hbuild', _⟩ := s.drew.pushed_advance_frame s.flagWord
    have huok : u.wordOk (u.reg .r15) = true := by
      rw [hsp, State.wordOk_congr hbuild]
      exact wordOk_of_pushes hpushes hbuild' hok
    obtain ⟨w, hpop, hfrom, hsp', _⟩ := execPopFlag_frame huok
    rw [hsp, hword, wordAt_of_pushes hpushes] at hfrom
    refine ⟨w, hpop, flags_eq_of_flagImage s.flagImage_flagWord hfrom, ?_⟩
    rw [hsp', hsp, reg_r15_of_pushes hpushes, State.reg_drew]

end Sys2Proof.Proofs

/-! The statements of spec/43_shift.md, with the lemmas they need. -/

namespace Sys2Proof.Machine

open Claims

/-! ### The shifted word (spec/43_shift.md R121, R122) -/

/-- A word shifted right by one, with a given bit coming in at bit 15: the result of `State.shiftTo`. -/
def shiftIn (top : Bool) (old : Word) : Word := BitVec.ofBool top ++ old.extractLsb' 1 15

theorem shiftIn_toNat (top : Bool) (old : Word) : (shiftIn top old).toNat = top.toNat * 32768 + old.toNat / 2 := by
  have hlow : (old.extractLsb' 1 15).toNat = old.toNat / 2 := by
    rw [BitVec.extractLsb'_toNat, Nat.shiftRight_eq_div_pow]
    omega
  rw [shiftIn, BitVec.toNat_append, ← Nat.shiftLeft_add_eq_or_of_lt (BitVec.isLt _), hlow, Nat.shiftLeft_eq,
    BitVec.toNat_ofBool]

/-- With the sign coming in, the shift halves the signed value and rounds down. -/
theorem shiftIn_sign_toInt (old : Word) : (shiftIn (old.getLsbD 15) old).toInt = old.toInt / 2 := by
  have hlt := old.isLt
  rw [toInt_eq_ite, toInt_eq_ite, shiftIn_toNat, getLsbD_15_eq]
  by_cases hneg : 32768 ≤ old.toNat
  · rw [decide_eq_true hneg, Bool.toNat_true]
    omega
  · rw [decide_eq_false hneg, Bool.toNat_false]
    omega

/-- Bit 0 is the remainder of the halving, of the signed value too. -/
theorem getLsbD_zero_eq_toInt_mod (a : Word) : ((a.getLsbD 0).toNat : Int) = a.toInt % 2 := by
  rw [getLsbD_zero_eq, toInt_eq_ite]
  omega

/-! ### What a shift does (spec/43_shift.md R121, R122) -/

theorem State.reg_shiftTo_self (s : State) (ra : Reg) (top : Bool) :
    (s.shiftTo ra top).reg ra = shiftIn top (s.reg ra) :=
  s.reg_setReg_self ra _

theorem State.reg_shiftTo_other (s : State) {ra q : Reg} (top : Bool) (h : q ≠ ra) :
    (s.shiftTo ra top).reg q = s.reg q :=
  s.reg_setReg_other _ h

/-- What a shift does besides writing its result, whatever bit comes in. -/
theorem State.shiftTo_frame (s : State) (ra : Reg) (top : Bool) :
    (s.shiftTo ra top).flags.CF = (s.reg ra).getLsbD 0 ∧ ZeroNegOf ((s.shiftTo ra top).reg ra) (s.shiftTo ra top)
      ∧ (s.shiftTo ra top).flags.IF = s.flags.IF ∧ SameRegsBut [ra] s (s.shiftTo ra top)
      ∧ PcNext s (s.shiftTo ra top) ∧ SamePrefix s (s.shiftTo ra top) ∧ SameMem s (s.shiftTo ra top)
      ∧ SameModel s (s.shiftTo ra top) := by
  refine ⟨rfl, ?_, rfl, fun q hq => s.reg_shiftTo_other top (by simpa using hq), State.pcNext_advance _, ⟨rfl, rfl⟩,
    ⟨fun _ => rfl, rfl⟩, rfl, rfl, rfl⟩
  rw [s.reg_shiftTo_self ra top]
  exact ⟨rfl, rfl⟩

theorem exec_shr_eq_next {s t : State} {ra : Reg} :
    exec (.shr ra) s = .next t ↔ s.build.hasShift = true ∧ t = s.shiftTo ra s.flags.CF :=
  State.needsUnit_eq_next.trans (and_congr_right' Res.next_eq_iff)

theorem exec_asr_eq_next {s t : State} {ra : Reg} :
    exec (.asr ra) s = .next t ↔ s.build.hasShift = true ∧ t = s.shiftTo ra ((s.reg ra).getLsbD 15) :=
  State.needsUnit_eq_next.trans (and_congr_right' Res.next_eq_iff)

end Sys2Proof.Machine

namespace Sys2Proof.Proofs

open Sys2Proof.Machine Sys2Proof.Claims

/-- Settles O45: both are the one shift, with CF or with the sign coming in at bit 15. -/
theorem shiftsRightByOne : Obligations.ShiftsRightByOne := by
  intro s ra hunit
  refine ⟨⟨_, exec_shr_eq_next.2 ⟨hunit, rfl⟩, ?_, s.shiftTo_frame ra _⟩,
    ⟨_, exec_asr_eq_next.2 ⟨hunit, rfl⟩, ?_, s.shiftTo_frame ra _⟩⟩
  · rw [State.reg_shiftTo_self, shiftIn_toNat]
  · rw [State.reg_shiftTo_self, shiftIn_sign_toInt]

/-- Settles O46: the bit ASR drops from the high word is the CF that SHR shifts into the low word. -/
theorem twoWordShiftChain : Obligations.TwoWordShiftChain := by
  intro s t u hi lo hne hasr hshr
  obtain ⟨_, rfl⟩ := exec_asr_eq_next.1 hasr
  obtain ⟨_, rfl⟩ := exec_shr_eq_next.1 hshr
  obtain ⟨hcarry, _⟩ := s.shiftTo_frame hi ((s.reg hi).getLsbD 15)
  have hbit := getLsbD_zero_eq_toInt_mod (s.reg hi)
  rw [State.reg_shiftTo_other _ _ hne, State.reg_shiftTo_self, shiftIn_sign_toInt,
    State.reg_shiftTo_self, shiftIn_toNat, hcarry, State.reg_shiftTo_other _ _ hne.symm]
  omega

end Sys2Proof.Proofs

/-! The statements of spec/44_memory_access.md, with the lemmas they need. -/

namespace Sys2Proof

/-! ### The words of loads and stores (spec/44_memory_access.md R131, R132) -/

theorem Reg.ofBits_ne_r15 {n : Nibble} (h : n ≠ 0xF#4) : Reg.ofBits n ≠ .r15 := fun hr => h <| calc
  n = (Reg.ofBits n).bits := (Reg.bits_ofBits n).symm
  _ = 0xF#4 := congrArg Reg.bits hr

/-- The second word of a two-word load or store by its fields, behind a payload that supplies the rest of the
displacement. -/
theorem dispWord_longDisp (op b d p : Nibble) (q : Byte) :
    dispWord op (Reg.ofBits b) (Reg.ofBits d) (longDisp q p) = word4 op b d p := by
  rw [dispWord, Reg.bits_ofBits, Reg.bits_ofBits, extractLsb'_longDisp]

/-- A one-word load or store whose base code is not 15. -/
theorem decode_shortAccess {c : Config} {op b d p : Nibble} {i : Instr}
    (hmap : InMap c.smBit none (word4 op (Reg.ofBits b).bits (Reg.ofBits d).bits p) i) (hb : i.inBuild c = true) :
    decode c none (word4 op b d p) = .ok i := by
  rw [Reg.bits_ofBits, Reg.bits_ofBits] at hmap
  exact hmap.decode_ok hb

/-- A two-word load or store, with the displacement and the width its payload supplies. -/
theorem decode_longAccess {c : Config} {q : Byte} {op b d p : Nibble} {byteAccess : Bool} {i : Instr}
    (hq : q.getLsbD 7 = byteAccess)
    (hmap : InMap c.smBit (some (dispPayload byteAccess (longDisp q p)))
      (dispWord op (Reg.ofBits b) (Reg.ofBits d) (longDisp q p)) i)
    (hb : i.inBuild c = true) : decode c (some q) (word4 op b d p) = .ok i := by
  rw [← hq, dispPayload_longDisp, dispWord_longDisp] at hmap
  exact hmap.decode_ok hb

end Sys2Proof

namespace Sys2Proof.Machine

open Claims

/-! ### Effective addresses (spec/44_memory_access.md R131, R132) -/

theorem State.shortAddr_toNat (s : State) (base : Reg) (p : Nibble) :
    (s.shortAddr base p).toNat = ((s.reg base).toNat + 2 * p.toNat) % 65536 := by
  simp [State.shortAddr]

theorem State.longAddr_toNat (s : State) (base : Reg) (disp : BitVec 11) :
    ((s.longAddr base disp).toNat : Int) = ((s.reg base).toNat + disp.toInt) % 65536 := by
  rw [State.longAddr, BitVec.toNat_add, BitVec.signExtend, BitVec.toNat_ofInt]
  omega

/-! ### The data register (spec/44_memory_access.md R130) -/

variable {s t : State} {data : Reg} {ea : Word}

theorem State.dataIsFlag_iff : s.dataIsFlag data = true ↔ NamesFlag s data := by
  simp [State.dataIsFlag, NamesFlag]

theorem State.loadData_of_namesFlag (h : NamesFlag s data) (v : Word) : s.loadData data v = s.loadFlags v :=
  if_pos (State.dataIsFlag_iff.2 h)

theorem State.loadData_of_not_namesFlag (h : ¬ NamesFlag s data) (v : Word) : s.loadData data v = s.setReg data v :=
  if_neg (mt State.dataIsFlag_iff.1 h)

theorem State.storeData_of_namesFlag (h : NamesFlag s data) : s.storeData data = s.flagWord :=
  if_pos (State.dataIsFlag_iff.2 h)

theorem State.storeData_of_not_namesFlag (h : ¬ NamesFlag s data) : s.storeData data = s.reg data :=
  if_neg (mt State.dataIsFlag_iff.1 h)

theorem State.flagImage_storeData (h : NamesFlag s data) : FlagImage s (s.storeData data) := by
  rw [State.storeData_of_namesFlag h]
  exact s.flagImage_flagWord

/-- Reading the data register of a store changes the count of drawn values at most. -/
theorem State.exists_afterStoreData_eq (s : State) (data : Reg) :
    ∃ n, s.afterStoreData data = { s with freeCount := n } := by
  unfold State.afterStoreData
  split
  · exact ⟨s.freeCount + 1, rfl⟩
  · exact ⟨s.freeCount, rfl⟩

/-! ### Loads (spec/44_memory_access.md R133, R135, R137) -/

/-- The whole effect of a load, whatever value it delivers. -/
theorem State.loadData_advance_frame (s : State) (data : Reg) (v : Word) :
    Loads data v s (s.loadData data v).advance ∧ SamePrefix s (s.loadData data v).advance := by
  by_cases h : NamesFlag s data
  · rw [State.loadData_of_namesFlag h]
    exact ⟨⟨absurd h, fun _ => ⟨fun _ _ => rfl, rfl, rfl, rfl, rfl, rfl⟩, ⟨fun _ => rfl, rfl⟩, ⟨rfl, rfl, rfl⟩,
      State.pcNext_advance _⟩, rfl, rfl⟩
  · rw [State.loadData_of_not_namesFlag h]
    exact ⟨⟨fun _ => ⟨s.reg_setReg_self data v, fun r hr => s.reg_setReg_other v (by simpa using hr), rfl⟩,
      fun hflag => absurd hflag h, ⟨fun _ => rfl, rfl⟩, ⟨rfl, rfl, rfl⟩, State.pcNext_advance _⟩, rfl, rfl⟩

theorem State.loadWord_frame (h : s.loadWord data ea = .next t) :
    Loads data (s.wordAt ea) s t ∧ SamePrefix s t := by
  obtain ⟨_, rfl⟩ := State.loadWord_eq_next.1 h
  exact s.loadData_advance_frame data _

theorem State.loadByte_frame (h : s.loadByte data ea = .next t) :
    Loads data ((s.reg data).extractLsb' 8 8 ++ s.byteAt ea.toNat) s t ∧ SamePrefix s t := by
  obtain ⟨_, rfl⟩ := State.loadByte_eq_next.1 h
  exact s.loadData_advance_frame data _

/-- A word load from an accessible address. -/
theorem State.loadWord_of_ok (h : s.wordOk ea = true) (data : Reg) :
    ∃ t, s.loadWord data ea = .next t ∧ Loads data (s.wordAt ea) s t ∧ SamePrefix s t :=
  have hload := State.loadWord_eq_next.2 ⟨h, rfl⟩
  ⟨_, hload, State.loadWord_frame hload⟩

/-! ### Stores (spec/44_memory_access.md R134, R136, R138) -/

theorem State.storesOnly_putByte (s : State) (a : Word) (v : Byte) : StoresOnly a 1 s (s.putByte a.toNat v) := by
  refine ⟨s.sameMemBut_putByte a v, fun b => ?_⟩
  have hrange : a.toNat ≤ b ∧ b < a.toNat + 1 ↔ b = a.toNat := by omega
  rw [State.putByte_written, mem_insertAddr, hrange, or_comm]

/-- The whole effect of a word store that completes. -/
theorem State.storeWord_frame (h : s.storeWord data ea = .next t) :
    StoresOnly ea 2 s t ∧ StoreFrame s t ∧ SamePrefix s t ∧ t.wordAt ea = s.storeData data := by
  obtain ⟨_, rfl⟩ := State.storeWord_eq_next.1 h
  obtain ⟨n, hn⟩ := s.exists_afterStoreData_eq data
  rw [hn]
  refine ⟨State.storesOnly_putWord { s with freeCount := n } ea _,
    ⟨fun _ _ => rfl, rfl, ⟨rfl, rfl, rfl⟩, State.pcNext_advance _⟩, ⟨rfl, rfl⟩, ?_⟩
  rw [State.wordAt_advance, State.wordAt_putWord]

/-- The whole effect of a byte store that completes. -/
theorem State.storeByte_frame (h : s.storeByte data ea = .next t) :
    StoresOnly ea 1 s t ∧ StoreFrame s t ∧ SamePrefix s t
      ∧ t.byteAt ea.toNat = (s.storeData data).extractLsb' 0 8 := by
  obtain ⟨_, rfl⟩ := State.storeByte_eq_next.1 h
  obtain ⟨n, hn⟩ := s.exists_afterStoreData_eq data
  rw [hn]
  refine ⟨State.storesOnly_putByte { s with freeCount := n } ea _,
    ⟨fun _ _ => rfl, rfl, ⟨rfl, rfl, rfl⟩, State.pcNext_advance _⟩, ⟨rfl, rfl⟩, ?_⟩
  rw [State.byteAt_advance, State.byteAt_putByte, if_pos rfl]

/-- A word store at an accessible address, by what the data register stands for. -/
theorem State.storeWord_of_ok (h : s.wordOk ea = true) (data : Reg) :
    ∃ t, s.storeWord data ea = .next t ∧ StoresOnly ea 2 s t ∧ StoreFrame s t ∧ SamePrefix s t
      ∧ (¬ NamesFlag s data → t.wordAt ea = s.reg data) ∧ (NamesFlag s data → FlagImage s (t.wordAt ea)) := by
  have hstore := State.storeWord_eq_next (data := data) |>.2 ⟨h, rfl⟩
  obtain ⟨honly, hframe, hprefix, hword⟩ := State.storeWord_frame hstore
  refine ⟨_, hstore, honly, hframe, hprefix, fun hreg => ?_, fun hflag => ?_⟩
  · rw [hword, State.storeData_of_not_namesFlag hreg]
  · rw [hword]
    exact State.flagImage_storeData hflag

end Sys2Proof.Machine

namespace Sys2Proof.Proofs

open Sys2Proof.Machine Sys2Proof.Claims

/-- Settles O39: the addresses by arithmetic, the words by the maps, and the prefix by what each access leaves of the
state with the prefix used up. -/
theorem effectiveAddressesOfLoadsAndStores : Obligations.EffectiveAddressesOfLoadsAndStores := by
  refine ⟨fun s base p disp => ?_, fun c b d p hb => ?_, fun c q b d p disp hdisp => ?_,
    fun s t data base disp => ?_⟩
  · have hlow := disp.le_toInt
    have hhigh := disp.toInt_lt
    exact ⟨s.shortAddr_toNat base p, s.longAddr_toNat base disp, by omega, by omega⟩
  · have hbase := Reg.ofBits_ne_r15 hb
    exact ⟨decode_shortAccess (.ldm _ _ p hbase) rfl, decode_shortAccess (.stm _ p _ hbase) rfl⟩
  · subst hdisp
    exact ⟨fun hq => ⟨decode_longAccess hq (.ldmw _ _ _) rfl, decode_longAccess hq (.stmw _ _ _) rfl⟩,
      fun hq hbyte => ⟨decode_longAccess hq (.ldmb _ _ _) hbyte, decode_longAccess hq (.stmb _ _ _) hbyte⟩⟩
  · simp only [List.forall_mem_cons]
    refine ⟨fun h => ?ldmw, fun h => ?stmw, fun h => ?ldmb, fun h => ?stmb, List.forall_mem_nil _⟩
    case ldmw =>
      obtain ⟨_, hpfx, _⟩ := State.loadWord_frame (s := s.endPrefix) h
      exact hpfx
    case stmw =>
      obtain ⟨_, _, ⟨hpfx, _⟩, _⟩ := State.storeWord_frame (s := s.endPrefix) h
      exact hpfx
    case ldmb =>
      obtain ⟨_, h⟩ := State.needsUnit_eq_next.1 h
      obtain ⟨_, hpfx, _⟩ := State.loadByte_frame (s := s.endPrefix) h
      exact hpfx
    case stmb =>
      obtain ⟨_, h⟩ := State.needsUnit_eq_next.1 h
      obtain ⟨_, _, ⟨hpfx, _⟩, _⟩ := State.storeByte_frame (s := s.endPrefix) h
      exact hpfx

/-- Settles O40: both forms are the one word load, LDMW with the prefix used up. -/
theorem wordLoads : Obligations.WordLoads := fun s data _ =>
  ⟨fun _ _ hok => State.loadWord_of_ok hok data, fun _ hok => State.loadWord_of_ok (s := s.endPrefix) hok data⟩

/-- Settles O41: both forms are the one word store, STMW with the prefix used up. -/
theorem wordStores : Obligations.WordStores := fun s data _ =>
  ⟨fun _ _ hok => State.storeWord_of_ok hok data, fun _ hok => State.storeWord_of_ok (s := s.endPrefix) hok data⟩

/-- Settles O42: with the byte unit both are the byte access with the prefix used up; what STMB stores of FLAG is the
low byte of FLAGW. -/
theorem byteLoadsAndStores : Obligations.ByteLoadsAndStores := by
  intro s data base disp hbyte hok
  constructor
  · have hload := State.loadByte_eq_next (s := s.endPrefix) (data := data) |>.2 ⟨hok, rfl⟩
    obtain ⟨hloads, hprefix⟩ := State.loadByte_frame hload
    exact ⟨_, State.needsUnit_eq_next.2 ⟨hbyte, hload⟩, hprefix, hloads⟩
  · have hstore := State.storeByte_eq_next (s := s.endPrefix) (data := data) |>.2 ⟨hok, rfl⟩
    obtain ⟨honly, hframe, hprefix, hstored⟩ := State.storeByte_frame hstore
    refine ⟨_, State.needsUnit_eq_next.2 ⟨hbyte, hstore⟩, honly, hframe, hprefix, fun hreg => ?_, fun hflag =>
      ⟨s.storeData data, State.flagImage_storeData hflag, hstored⟩⟩
    rw [hstored, State.storeData_of_not_namesFlag (s := s.endPrefix) hreg, State.reg_endPrefix]

end Sys2Proof.Proofs

/-! The statements of spec/45_alu.md, with the lemmas they need. -/

namespace Sys2Proof.Machine

open Claims

/-! ### The three operand forms (spec/45_alu.md R150) -/

/-- The state an ALU operation in a given operand form acts on: the 16-bit immediate form has used the prefix up. -/
def State.aluEntry (s : State) (b : AluOperand) : State := { s with pfxValid := b.pfxValidAfter s }

section

variable (s : State) (ra : Reg) (b : AluOperand)

theorem exec_andOf_eq :
    exec (andOf ra b) s = .next ((s.aluEntry b).logicTo ra (s.reg ra &&& b.value s)) := by
  cases b <;> rfl

theorem exec_orOf_eq :
    exec (orOf ra b) s = .next ((s.aluEntry b).logicTo ra (s.reg ra ||| b.value s)) := by
  cases b <;> rfl

theorem exec_xorOf_eq :
    exec (xorOf ra b) s = .next ((s.aluEntry b).logicTo ra (s.reg ra ^^^ b.value s)) := by
  cases b <;> rfl

theorem exec_movOf_eq : exec (movOf ra b) s = .next ((s.aluEntry b).logicTo ra (b.value s)) := by
  cases b <;> rfl

theorem exec_tstOf_eq :
    exec (tstOf ra b) s = .next ((s.aluEntry b).logicTest (s.reg ra &&& b.value s)) := by
  cases b <;> rfl

theorem exec_addOf_eq :
    exec (addOf ra b) s = .next ((s.aluEntry b).arithTo ra (addc (s.reg ra) (b.value s) false)) := by
  cases b <;> rfl

theorem exec_adcOf_eq :
    exec (adcOf ra b) s = .next ((s.aluEntry b).chainTo ra (addc (s.reg ra) (b.value s) s.flags.CF)) := by
  cases b <;> rfl

theorem exec_subOf_eq :
    exec (subOf ra b) s =
      .next ((s.aluEntry b).arithTo ra (subFlags s.build.subCarry (s.reg ra) (b.value s) false)) := by
  cases b <;> rfl

theorem exec_sbcOf_eq :
    exec (sbcOf ra b) s =
      .next ((s.aluEntry b).chainTo ra (subFlags s.build.subCarry (s.reg ra) (b.value s) s.borrowIn)) := by
  cases b <;> rfl

theorem exec_cmpOf_eq :
    exec (cmpOf ra b) s =
      .next ((s.aluEntry b).arithTest (subFlags s.build.subCarry (s.reg ra) (b.value s) false)) := by
  cases b <;> rfl

theorem exec_mltOf_eq :
    exec (mltOf ra b) s =
      s.needsUnit .mlt (.next ((s.aluEntry b).logicTo ra (mulLow (s.reg ra) (b.value s)))) := by
  cases b <;> rfl

theorem exec_mlhOf_eq :
    exec (mlhOf ra b) s =
      s.needsUnit .mlh (.next ((s.aluEntry b).logicTo ra (mulHigh (s.reg ra) (b.value s)))) := by
  cases b <;> rfl

end

/-! ### What an ALU operation writes and leaves unchanged (spec/45_alu.md R151, R152) -/

/-- An operation that writes RA and any flags but IF. -/
theorem State.aluFrame_setReg (s : State) (ra : Reg) (b : AluOperand) (r : Word) {f : Flags}
    (hIF : f.IF = s.flags.IF) (n : Nat) :
    AluFrame b [ra] s ({ (s.aluEntry b).setReg ra r with flags := f, freeCount := n } : State).advance :=
  ⟨fun _ hq => s.reg_setReg_other r (by simpa using hq), ⟨fun _ => rfl, rfl⟩, ⟨rfl, rfl, rfl⟩,
    State.pcNext_advance _, rfl, rfl, hIF⟩

/-- An operation that writes any flags but IF and no register. -/
theorem State.aluFrame_flags (s : State) (b : AluOperand) {f : Flags} (hIF : f.IF = s.flags.IF) (n : Nat) :
    AluFrame b [] s ({ s.aluEntry b with flags := f, freeCount := n } : State).advance :=
  ⟨fun _ _ => rfl, ⟨fun _ => rfl, rfl⟩, ⟨rfl, rfl, rfl⟩, State.pcNext_advance _, rfl, rfl, hIF⟩

section

variable (s : State) (ra : Reg) (b : AluOperand) (r : Word) (o : ArithOut)

theorem State.reg_logicTo_self : (s.logicTo ra r).reg ra = r := s.reg_setReg_self ra r

theorem State.reg_arithTo_self : (s.arithTo ra o).reg ra = o.r := s.reg_setReg_self ra o.r

theorem State.reg_chainTo_self : (s.chainTo ra o).reg ra = o.r := s.reg_setReg_self ra o.r

theorem State.zeroNegOf_logicTo : ZeroNegOf r (s.logicTo ra r) := ⟨rfl, rfl⟩

theorem State.zeroNegOf_arithTo : ZeroNegOf ((s.arithTo ra o).reg ra) (s.arithTo ra o) := by
  rw [State.reg_arithTo_self]
  exact ⟨rfl, rfl⟩

theorem State.zeroNegOf_arithTest : ZeroNegOf o.r (s.arithTest o) := ⟨rfl, rfl⟩

theorem State.NF_chainTo : (s.chainTo ra o).flags.NF = ((s.chainTo ra o).reg ra).getLsbD 15 := by
  rw [State.reg_chainTo_self]
  rfl

theorem State.chainZero_chainTo : ChainZero s (s.chainTo ra o) ((s.chainTo ra o).reg ra) := by
  have hZF : (s.chainTo ra o).flags.ZF = chainZero s.build.adcSbcZSticky s.flags.ZF o.r := rfl
  rw [State.reg_chainTo_self]
  constructor <;> intro hsticky <;> rw [hZF, hsticky] <;> rfl

theorem State.aluFrame_logicTo : AluFrame b [ra] s ((s.aluEntry b).logicTo ra r) :=
  s.aluFrame_setReg ra b r rfl (s.freeCount + 2)

theorem State.aluFrame_arithTo : AluFrame b [ra] s ((s.aluEntry b).arithTo ra o) :=
  s.aluFrame_setReg ra b o.r rfl s.freeCount

theorem State.aluFrame_chainTo : AluFrame b [ra] s ((s.aluEntry b).chainTo ra o) :=
  s.aluFrame_setReg ra b o.r rfl s.freeCount

/-- What AND OR XOR MOV and the multiplications have in common. -/
theorem State.logicTo_frame :
    ((s.aluEntry b).logicTo ra r).reg ra = r ∧ ZeroNegOf r ((s.aluEntry b).logicTo ra r)
      ∧ AluFrame b [ra] s ((s.aluEntry b).logicTo ra r) :=
  ⟨State.reg_logicTo_self .., State.zeroNegOf_logicTo .., s.aluFrame_logicTo ra b r⟩

end

/-! ### Sums, differences and products (spec/45_alu.md R153, R165, R166) -/

theorem addc_r (x y : Word) : (addc x y false).r = x + y := by
  apply BitVec.eq_of_toNat_eq
  rw [addc_toNat, BitVec.toNat_add]
  rfl

theorem addc_false_ovf (x y : Word) : (addc x y false).ovf = true ↔ OutOfRange (x.toInt + y.toInt) := by
  simpa [OutOfRange] using addc_ovf x y false

/-- The carry of a sum of two words and a bit, as a digit. -/
theorem toNat_carry {c : Bool} {n : Nat} (h : c = true ↔ 65536 ≤ n) (hlt : n < 131072) : c.toNat = n / 65536 := by
  cases c
  case false =>
    have hsmall := mt h.2 Bool.false_ne_true
    rw [Bool.toNat_false]
    omega
  case true =>
    have hlarge := h.1 rfl
    rw [Bool.toNat_true]
    omega

theorem subFlags_borrow (k : SubCarry) (x y : Word) (c : Bool) :
    carryOfBorrow k (subFlags k x y c).carry = true ↔ x.toNat < y.toNat + c.toNat := by
  rw [subFlags, carryOfBorrow_carryOfBorrow]
  exact subb_carry x y c

/-- CF in the build's sense, read as a borrow. -/
theorem borrowFlag_iff {s t : State} {p : Prop} :
    BorrowFlag s t p ↔ (carryOfBorrow s.build.subCarry t.flags.CF = true ↔ p) := by
  rw [BorrowFlag]
  cases s.build.subCarry
  case borrow => simp [carryOfBorrow]
  case notBorrow => by_cases hp : p <;> simp [carryOfBorrow, hp]

theorem borrowOf_eq (s : State) : borrowOf s = s.borrowIn.toNat := by
  rw [borrowOf, State.borrowIn]
  cases s.build.subCarry
  case borrow => rfl
  case notBorrow => cases s.flags.CF <;> rfl

/-- The borrow a subtraction left in CF is what SBC takes in behind it. -/
theorem borrowOf_of_borrowFlag {s t : State} {p : Prop} [Decidable p] (hbuild : t.build = s.build)
    (h : BorrowFlag s t p) : borrowOf t = if p then 1 else 0 := by
  rw [borrowFlag_iff, ← hbuild] at h
  rw [borrowOf_eq, State.borrowIn]
  split
  case isTrue hp => rw [h.2 hp]; rfl
  case isFalse hp => rw [Bool.eq_false_iff.2 (mt h.1 hp)]; rfl

theorem mulLow_toNat (x y : Word) : (mulLow x y).toNat = x.toNat * y.toNat % 65536 := BitVec.toNat_ofNat ..

/-- The product of two words has 32 bits, so its high half fits a word. -/
theorem mulHigh_toNat (x y : Word) : (mulHigh x y).toNat = x.toNat * y.toNat / 65536 := by
  have hlt : x.toNat * y.toNat < 65536 * 65536 := Nat.mul_lt_mul'' x.isLt y.isLt
  rw [mulHigh, BitVec.toNat_ofNat, Nat.mod_eq_of_lt (Nat.div_lt_of_lt_mul hlt)]

/-! ### The prefix word (spec/45_alu.md R154, spec/60_exceptions.md R182) -/

theorem prefixWord_eq_append (p : Byte) : prefixWord p = 0x27#8 ++ p := rfl

/-- A pending prefix holds an interrupt off unless the build lets a payload of 0 pass. -/
theorem State.accepts_eq_false_of_pending {s : State} (hpfx : s.pfxValid = true)
    (hbuild : s.build.iackOnZeroPrefix = false) : s.accepts = false := by
  have hblocks : s.prefixBlocks = true := by rw [State.prefixBlocks, hpfx, hbuild]; rfl
  rw [State.accepts, hblocks, Bool.not_true, Bool.and_false]

/-- The state after the step at a prefix word. -/
def State.afterPrefix (s : State) (p : Byte) : State :=
  ((s.sampled.addCycles (instrCycles (.pfx p))).setPrefix p).advance

theorem step_of_prefixWord {s : State} {p : Byte} (ha : s.accepts = false) (hpfx : s.pfxValid = false)
    (hf : CanFetch s s.pc) (hw : s.wordAt s.pc = 0x27#8 ++ p) : step s = .next (s.afterPrefix p) := by
  have hp : s.pending = none := by rw [State.pending, hpfx]; rfl
  exact step_of_inMap ha hf hp (hw.trans (prefixWord_eq_append p).symm) (.pfx p) rfl

end Sys2Proof.Machine

namespace Sys2Proof.Proofs

open Sys2Proof.Machine Sys2Proof.Claims

/-- Settles O16: the payload left pending holds the interrupt off, and selects the prefixed map for the second word. -/
theorem twoWordInstructionIsNotInterrupted : Obligations.TwoWordInstructionIsNotInterrupted := by
  intro s p i hbuild ha hpfx hfirst hsecond hw hd
  have ⟨hok, _⟩ := hsecond
  have hpc : (s.afterPrefix p).pc = s.pc + 2#16 := masked_of_even (State.even_of_wordOk hok)
  have hta : (s.afterPrefix p).accepts = false := State.accepts_eq_false_of_pending rfl hbuild
  refine ⟨s.afterPrefix p, step_of_prefixWord ha hpfx hfirst hw, hpc, rfl, rfl, rfl, rfl, rfl, hta,
    step_of_decode hta ?_ ?_⟩ <;> rw [hpc]
  · exact hsecond
  · exact hd

/-- Settles O49: all three forms are ADDC without a carry in. -/
theorem addResultAndFlags : Obligations.AddResultAndFlags := fun s ra b =>
  ⟨_, exec_addOf_eq s ra b, (State.reg_arithTo_self ..).trans (addc_r ..), State.zeroNegOf_arithTo ..,
    addc_carry _ _ false, addc_false_ovf .., s.aluFrame_arithTo ra b _⟩

/-- Settles O50: all three forms are ADDC with CF as the carry in. -/
theorem addWithCarryResultAndFlags : Obligations.AddWithCarryResultAndFlags := by
  intro s ra b
  refine ⟨_, exec_adcOf_eq s ra b, ?_, State.NF_chainTo .., (s.aluEntry b).chainZero_chainTo ra _,
    addc_carry .., addc_ovf .., s.aluFrame_chainTo ra b _⟩
  rw [State.reg_chainTo_self, addc_toNat]

/-- Settles O51: SUB compares A and B as CMP does, and writes the difference. -/
theorem subtractResultAndFlags : Obligations.SubtractResultAndFlags := by
  intro s ra b
  have hflags := ComparesTo.arithFlags s s.build.subCarry (s.reg ra) (b.value s)
  exact ⟨_, exec_subOf_eq s ra b, (State.reg_arithTo_self ..).trans (subb_r ..), State.zeroNegOf_arithTo ..,
    borrowFlag_iff.2 hflags.borrow, hflags.ovf, s.aluFrame_arithTo ra b _⟩

/-- Settles O52: the borrow SBC takes in is the one CF stands for in the build's sense. -/
theorem subtractWithCarryResultAndFlags : Obligations.SubtractWithCarryResultAndFlags := by
  intro s ra b
  rw [borrowOf_eq]
  refine ⟨_, exec_sbcOf_eq s ra b, ?_, State.NF_chainTo .., (s.aluEntry b).chainZero_chainTo ra _,
    borrowFlag_iff.2 (subFlags_borrow ..), subb_ovf .., s.aluFrame_chainTo ra b _⟩
  rw [State.reg_chainTo_self]
  exact subb_toNat ..

/-- Settles O53: the flags are those of SUB, over the state with its registers unchanged. -/
theorem compareSetsTheFlagsOfSubtract : Obligations.CompareSetsTheFlagsOfSubtract := by
  intro s ra b
  have hflags := ComparesTo.arithFlags s s.build.subCarry (s.reg ra) (b.value s)
  refine ⟨_, exec_cmpOf_eq s ra b, ?_, borrowFlag_iff.2 hflags.borrow, hflags.ovf,
    s.aluFrame_flags b rfl s.freeCount⟩
  rw [← subb_r]
  exact State.zeroNegOf_arithTest ..

/-- Settles O54: with the unit present, a multiplication writes its half as a logical operation writes its result. -/
theorem multiplyWritesOneHalf : Obligations.MultiplyWritesOneHalf := by
  intro s ra b
  refine ⟨fun hunit => ⟨_, (exec_mltOf_eq s ra b).trans (State.needsUnit_of_has (u := .mlt) hunit _), ?_, ?_,
      s.aluFrame_logicTo ra b _⟩,
    fun hunit => ⟨_, (exec_mlhOf_eq s ra b).trans (State.needsUnit_of_has (u := .mlh) hunit _), ?_, ?_,
      s.aluFrame_logicTo ra b _⟩⟩
  all_goals rw [State.reg_logicTo_self]
  · exact mulLow_toNat ..
  · exact State.zeroNegOf_logicTo ..
  · exact mulHigh_toNat ..
  · exact State.zeroNegOf_logicTo ..

/-- Settles O47: the four differ in their result only. -/
theorem logicalOperations : Obligations.LogicalOperations := by
  intro s ra b
  simp only [List.forall_mem_cons]
  exact ⟨⟨_, exec_andOf_eq s ra b, s.logicTo_frame ra b _⟩, ⟨_, exec_orOf_eq s ra b, s.logicTo_frame ra b _⟩,
    ⟨_, exec_xorOf_eq s ra b, s.logicTo_frame ra b _⟩, ⟨_, exec_movOf_eq s ra b, s.logicTo_frame ra b _⟩,
    List.forall_mem_nil _⟩

/-- Settles O48: TST is AND without the write to RA. -/
theorem testSetsFlagsOnly : Obligations.TestSetsFlagsOnly := fun s ra b =>
  ⟨_, exec_tstOf_eq s ra b, ⟨rfl, rfl⟩, s.aluFrame_flags b rfl (s.freeCount + 2)⟩

/-- Settles O58: PFX sets the prefix register and goes on. -/
theorem prefixWordMakesItsPayloadPending : Obligations.PrefixWordMakesItsPayloadPending := fun s p =>
  ⟨(s.setPrefix p).advance, rfl, State.pcNext_advance _, State.onlyPc_advance _⟩

/-! ### Operations on two words (spec/45_alu.md R170, R166) -/

/-- Settles O55: the CF the low sum leaves is the carry the high sum takes in. -/
theorem twoWordAdditionChain : Obligations.TwoWordAdditionChain := by
  intro s t u ah al bh bl hah hbh hadd hadc
  obtain ⟨_, ht, hlow, _, hcarry, _, hkept, _⟩ := addResultAndFlags s al (.reg bl)
  cases ht.symm.trans hadd
  obtain ⟨_, hu, hhigh, _, _, hout, _, hkept', _⟩ := addWithCarryResultAndFlags t ah (.reg bh)
  cases hu.symm.trans hadc
  have hal : u.reg al = t.reg al := hkept' al (by simpa using hah)
  have hah' : t.reg ah = s.reg ah := hkept ah (by simpa using hah.symm)
  have hbh' : t.reg bh = s.reg bh := hkept bh (by simpa using hbh.symm)
  simp only [AluOperand.value, hah', hbh'] at hlow hcarry hhigh hout
  have hmid := toNat_carry hcarry (by omega)
  have htop := toNat_carry hout (by omega)
  rw [hal, hlow, BitVec.toNat_add, hhigh, htop, hmid]
  omega

/-- Settles O56: the borrow the high difference takes in is the borrow of the low one, whichever sense CF has. -/
theorem twoWordSubtractionChain : Obligations.TwoWordSubtractionChain := by
  intro s t u ah al bh bl hah hbh hsub hsbc
  obtain ⟨_, ht, hlow, _, hborrow, _, hkept, _, ⟨hbuild, _⟩, _⟩ := subtractResultAndFlags s al (.reg bl)
  cases ht.symm.trans hsub
  obtain ⟨_, hu, hhigh, _, _, _, _, hkept', _⟩ := subtractWithCarryResultAndFlags t ah (.reg bh)
  cases hu.symm.trans hsbc
  have hal : u.reg al = t.reg al := hkept' al (by simpa using hah)
  have hah' : t.reg ah = s.reg ah := hkept ah (by simpa using hah.symm)
  have hbh' : t.reg bh = s.reg bh := hkept bh (by simpa using hbh.symm)
  simp only [AluOperand.value, hah', hbh'] at hlow hborrow hhigh
  have hmid := borrowOf_of_borrowFlag hbuild hborrow
  rw [hal, hlow, BitVec.toNat_sub, hhigh, hmid]
  split <;> omega

/-- Settles O57: the second factor and the copy are untouched between the two multiplications. -/
theorem multiplyHalvesMakeTheProduct : Obligations.MultiplyHalvesMakeTheProduct := by
  intro s t u lo hi b hhi hb hcopy hmlt hmlh
  obtain ⟨hunit, _⟩ := State.needsUnit_eq_next.1 hmlt
  obtain ⟨hunit', _⟩ := State.needsUnit_eq_next.1 hmlh
  obtain ⟨_, ht, hlow, _, hkept, _⟩ := (multiplyWritesOneHalf s lo (.reg b)).1 hunit
  cases ht.symm.trans hmlt
  obtain ⟨_, hu, hhigh, _, hkept', _⟩ := (multiplyWritesOneHalf t hi (.reg b)).2 hunit'
  cases hu.symm.trans hmlh
  have hlo : u.reg lo = t.reg lo := hkept' lo (by simpa using hhi)
  have hhi' : t.reg hi = s.reg hi := hkept hi (by simpa using hhi.symm)
  have hb' : t.reg b = s.reg b := hkept b (by simpa using hb.symm)
  simp only [AluOperand.value, hhi', hb'] at hlow hhigh
  rw [hlo, hlow, hhigh, hcopy]
  exact Nat.div_add_mod' ..

end Sys2Proof.Proofs

/-! The statements of spec/60_exceptions.md, with the lemmas they need. -/

namespace Sys2Proof.Machine

open Claims

/-! ### The boundary between two steps (spec/60_exceptions.md R182, R198) -/

/-- Whether the prefix register holds an interrupt off, in both builds. -/
theorem State.prefixBlocks_eq_false_iff {s : State} :
    s.prefixBlocks = false ↔ s.pfxValid = false ∨ s.build.iackOnZeroPrefix = true ∧ s.pfx = 0#8 := by
  rw [State.prefixBlocks, Bool.and_eq_false_iff, Bool.not_eq_false', Bool.and_eq_true, beq_iff_eq]

theorem step_of_accepts {s : State} (h : s.accepts = true) :
    step s = (s.sampled.addCycles iackCycles).iack s.ivectorNow :=
  if_pos h

/-! ### The acknowledge sequence (spec/60_exceptions.md R183) -/

theorem State.iack_of_ok {s : State} {v : BitVec 6} (hslot : s.wordOk s.pushAddr = true)
    (htable : s.wordOk (vectorAddr v) = true) :
    s.iack v = .next ((s.acknowledged.pushed s.pc).setPc ((s.acknowledged.pushed s.pc).wordAt (vectorAddr v))) :=
  State.iack_eq_next.2 ⟨s.acknowledged, rfl, hslot, htable, rfl⟩

/-- The whole effect of an acknowledge sequence that completes. -/
theorem State.iack_frame {s t : State} {v : BitVec 6} (h : s.iack v = .next t) :
    Pushes s.pc s t ∧ t.pc = t.wordAt (vectorAddr v) &&& 0xFFFE#16 ∧ t.flags = { s.flags with IF := false }
      ∧ PrefixUsed s t ∧ SameModel s t := by
  obtain ⟨_, rfl, _, _, rfl⟩ := State.iack_eq_next.1 h
  exact ⟨s.acknowledged.pushes_pushed s.pc, rfl, rfl, ⟨rfl, rfl⟩, rfl, rfl, rfl⟩

/-- The handler of an interrupt finds the interrupted PC in an accessible stack word. -/
theorem State.iack_stack {s t : State} {v : BitVec 6} (h : s.iack v = .next t) :
    t.wordOk (t.reg .r15) = true ∧ t.wordAt (t.reg .r15) = s.pc := by
  obtain ⟨hpushes, _, _, _, hbuild, _⟩ := State.iack_frame h
  obtain ⟨_, rfl, hslot, _, _⟩ := State.iack_eq_next.1 h
  exact ⟨wordOk_of_pushes hpushes hbuild hslot, wordAt_of_pushes hpushes⟩

end Sys2Proof.Machine

namespace Sys2Proof.Proofs

open Sys2Proof.Machine Sys2Proof.Claims

/-- Settles O14: the boundary's sample and cycles are no part of what the acknowledge sequence reads or writes. -/
theorem acceptedInterruptEntersTheHandler : Obligations.AcceptedInterruptEntersTheHandler := by
  intro s haccepts hslot htable
  have hiack := State.iack_of_ok (s := s.sampled.addCycles iackCycles) (v := s.ivectorNow) hslot htable
  obtain ⟨hpushes, hpc, hflags, ⟨hpfxValid, hpfx⟩, hbuild, hivectors, hcycles⟩ := State.iack_frame hiack
  exact ⟨_, (step_of_accepts haccepts).trans hiack, hflags, hpushes, hpc, hpfxValid, hpfx, hbuild, hivectors, hcycles⟩

/-- Settles O15: the return pops the PC the acknowledge sequence pushed, and its addition to R15 undoes the push's
subtraction. -/
theorem retStiResumesTheInterruptedProgram : Obligations.RetStiResumesTheInterruptedProgram := by
  intro s t u v heven hiack hbuild hsp hword
  obtain ⟨hpushes, _⟩ := State.iack_frame hiack
  obtain ⟨hok, hpushed⟩ := State.iack_stack hiack
  have huok : u.wordOk (u.reg .r15) = true := by rwa [hsp, State.wordOk_congr hbuild]
  obtain ⟨w, hret, hpc, hsp', hregs, hflags, _, hmem, _⟩ := State.returnWith_frame huok true false false true
  refine ⟨w, hret, ?_, ?_, hflags, hregs, hmem⟩
  · rw [hpc, hsp, hword, hpushed, masked_of_even heven]
  · rw [hsp', hsp, reg_r15_of_pushes hpushes]

/-- Settles O21: beside the consumed sample and the counted cycles, a step has an effect, which keeps the build and
turns no counter back. -/
theorem everyStepConsumesOneSample : Obligations.EveryStepConsumesOneSample := by
  intro s t h
  obtain ⟨n, heffect⟩ := step_effect h
  exact ⟨heffect.build, heffect.ivectors, heffect.cycles ▸ Nat.le_add_right s.cycles n, heffect.freeCount⟩

/-- Settles O12, from the step of a decoded word. -/
theorem stepRunsTheDecodedInstruction : Obligations.StepRunsTheDecodedInstruction :=
  fun _ _ haccepts hfetch hdecode => step_of_decode haccepts hfetch hdecode

/-- Settles O13: the build says which pending prefixes hold a request off. -/
theorem interruptAcceptanceCondition : Obligations.InterruptAcceptanceCondition := by
  intro s
  rw [State.accepts_iff, State.prefixBlocks_eq_false_iff]
  constructor <;> intro hbuild
  · simp [hbuild]
  · simp [hbuild]

end Sys2Proof.Proofs

/-! The statements of spec/70_reset_and_hazards.md, with the lemmas they need. -/

namespace Sys2Proof.Machine

open Claims

/-! ### The end of a run (spec/70_reset_and_hazards.md R203) -/

theorem step_of_fetchInstr {s : State} {i : Instr} (ha : s.accepts = false) (hi : s.fetchInstr = .next i) :
    step s = exec i (s.sampled.addCycles (instrCycles i)) := by
  rw [step, ha, hi]
  rfl

theorem State.setPc_eq_self {s : State} {target : Word} (h : target &&& 0xFFFE#16 = s.pc) : s.setPc target = s := by
  rw [State.setPc, h]

theorem State.onlyPc_refl (s : State) : OnlyPc s s :=
  ⟨fun _ _ => rfl, rfl, ⟨rfl, rfl⟩, ⟨fun _ => rfl, rfl⟩, rfl, rfl, rfl⟩

theorem State.accepts_eq_false_of_samples {s : State} (h : ∀ v ∈ s.ivectors, v = 0#6) : s.accepts = false :=
  Bool.eq_false_iff.2 fun ha => by
    obtain ⟨hsample, _⟩ := State.accepts_iff.1 ha
    refine hsample ?_
    cases hv : s.ivectors
    case nil => rfl
    case cons v rest => exact h v (hv ▸ List.mem_cons_self)

theorem State.Ended.accepts_eq_false {s : State} (h : s.Ended) : s.accepts = false := by
  obtain ⟨_, _, _, hIF | hsamples⟩ := h
  · exact State.accepts_eq_false_of_IF hIF
  · exact State.accepts_eq_false_of_samples hsamples

/-- Neither the fetch nor the branch's target reads the samples or the cycles, and fewer samples are still all 0. -/
theorem State.Ended.sampled_addCycles {s : State} (h : s.Ended) (n : Nat) : (s.sampled.addCycles n).Ended := by
  obtain ⟨rel, hfetch, htarget, hquiet⟩ := h
  exact ⟨rel, hfetch, htarget, hquiet.imp_right fun hsamples v hv => hsamples v (List.mem_of_mem_tail hv)⟩

/-- The branch of an ended run writes PC with the value it has. -/
theorem State.Ended.step_eq {s : State} (h : s.Ended) : step s = .next (s.sampled.addCycles 1) := by
  have haccepts := h.accepts_eq_false
  obtain ⟨rel, hfetch, htarget, _⟩ := h
  have hself : (s.sampled.addCycles 1).setPc (s.relTarget rel) = s.sampled.addCycles 1 := State.setPc_eq_self htarget
  rw [step_of_fetchInstr haccepts hfetch]
  exact congrArg Host.Outcome.next hself

/-! ### The reset sequence (spec/70_reset_and_hazards.md R200) -/

theorem State.takeReset_of_ok {s : State} (h : s.wordOk 0#16 = true) :
    s.takeReset = .next { State.reset with
      build := s.build, mem := s.mem, ivectors := s.ivectors, freeCount := s.freeCount
      pc := s.wordAt 0#16 &&& 0xFFFE#16 } := by
  rw [State.takeReset, State.readWord_of_ok h, Res.bind_next]

end Sys2Proof.Machine

namespace Sys2Proof.Proofs

open Sys2Proof.Machine Sys2Proof.Claims

/-- Settles O23: the step of an ended run consumes a sample and counts a cycle, and does nothing else. -/
theorem endedRunStaysEnded : Obligations.EndedRunStaysEnded := fun s h =>
  ⟨s.sampled.addCycles 1, h.step_eq, h.sampled_addCycles 1, rfl, (s.sampled.addCycles 1).onlyPc_refl⟩

/-- Settles O2, from the state the reset sequence answers. -/
theorem resetSequenceLoadsPcFromWordZero : Obligations.ResetSequenceLoadsPcFromWordZero := fun _ hok =>
  ⟨_, State.takeReset_of_ok hok, rfl, rfl, rfl, fun _ => rfl, rfl, rfl⟩

/-- Settles O22, row by row: no count depends on an operand's value. -/
theorem cycleCountsAreTheTable : Obligations.CycleCountsAreTheTable := by
  refine ⟨?flag, ?branch, ?jump, ?ret, ?stackShift, ?short, ?long, ?alu, rfl⟩
  case flag | ret => decide
  case branch => exact fun _ _ _ => ⟨rfl, rfl⟩
  case jump => exact fun _ _ _ => ⟨rfl, rfl, rfl⟩
  case stackShift => exact fun _ => ⟨rfl, rfl, rfl, rfl⟩
  case short => exact fun _ _ _ => ⟨rfl, rfl⟩
  case long => exact fun _ _ _ => ⟨rfl, rfl, rfl, rfl⟩
  case alu =>
    intro _ b
    simp only [List.forall_mem_cons]
    cases b
    case reg | byte | word => exact ⟨rfl, rfl, rfl, rfl, rfl, rfl, rfl, rfl, rfl, rfl, rfl, rfl, List.forall_mem_nil _⟩

end Sys2Proof.Proofs

namespace Sys2Proof.Proofs

open Sys2Proof.Claims

/-- Settles O11, from the format of the decode maps that each word stands in. -/
theorem sampleWordsDecode : Obligations.SampleWordsDecode := by
  refine ⟨?sti, ?bcc, ?ldm, ?pushReg, ?shr, ?stmw, ?sbcI16, ?jsrAbs⟩
  case sti => exact InMap.decode_ok (.flag true false false true) rfl
  case bcc => exact InMap.decode_ok (.bcc .ne 0xFD#8 (by decide)) rfl
  case ldm => exact InMap.decode_ok (.ldm .r5 .r14 0xF#4 (by decide)) rfl
  case pushReg => exact InMap.decode_ok (.pushReg .r14 0#3 (by decide)) rfl
  case shr => exact InMap.decode_ok (.shr .r0) rfl
  case stmw => exact InMap.decode_ok (.stmw .r15 0x020#11 .r4) rfl
  case sbcI16 => exact InMap.decode_ok (.aluI16 0xB#4 .r1 0x1234#16 (by decide)) rfl
  case jsrAbs => exact InMap.decode_ok (.jsrAbs 0x0120#16 rfl) rfl

end Sys2Proof.Proofs
